-- ==== Sys2Proof/Word.lean ====
section
/-! DEFINITION. The word types of the block: an 8-bit cell, a colour word, a binary32 word. -/

namespace Sys2Proof

/-- An 8-bit intensity (10_state.md R48). -/
abbrev Byte := BitVec 8

/-- A colour word. `COLOR_BITS` is 1 to 32 (00_scope.md R9); a word is held in 32 bits, its unused upper bits 0. -/
abbrev Color := BitVec 32

/-- An IEEE 754 binary32 word, by its bits (00_scope.md R13). -/
abbrev F32 := BitVec 32

end Sys2Proof
end

