-- ==== Sys2Proof/Config.lean ====
section
/-! DEFINITION. What an implementation fixes: the record `Cfg` of 00_scope.md R9 as plain data, and the free values.
A function-valued field of R9 is a default (Machine/Params.lean) and a finite list of overrides. Its domain is finite,
so the lists reach every function. -/

namespace Sys2Proof

/-- Free value: the `k`-th word that the row port answers to a request it has no row for (45_compositor_handoff.md R242).
DESIGN CHOICE of form, log 8. -/
opaque Config.freeWord : Nat → BitVec 32

/-- `F_SIN` where the configuration lists no value (00_scope.md R9: any total function; log 5). -/
opaque Config.fSin : F32 → F32

/-- `F_COS` where the configuration lists no value (00_scope.md R9: any total function; log 5). -/
opaque Config.fCos : F32 → F32

/-- Free value: the integer that the truncation of minus infinity (`true`) or plus infinity (`false`) gives
(00_scope.md R13 states none). DESIGN CHOICE of form, log 7. -/
opaque Config.truncInf : Bool → Int

/-- One segment of a palette seed, `(i0, i1, (r0, g0, b0), (r1, g1, b1))` (40_table_builders.md R112). -/
structure Seg where
  i0 : Nat
  i1 : Nat
  r0 : Nat
  g0 : Nat
  b0 : Nat
  r1 : Nat
  g1 : Nat
  b1 : Nat
  deriving DecidableEq, Repr

/-- `WINDOW` with its frame numbers, or `TERMINAL` (44_gen_wireframe_text.md R221). -/
inductive EventKind where
  | window (f0 f1 : Nat)
  | terminal
  deriving DecidableEq, Repr

/-- One text event (44_gen_wireframe_text.md R221). -/
structure TextEvent where
  kind : EventKind
  x : Int
  y : Int
  scale : Nat
  inten : Byte
  str : List Char
  deriving DecidableEq, Repr

/-- A binary32 function of the frame-relative offset: constant by default, with overrides (00_scope.md R9, `FR_SX`, `FR_SY`). -/
structure Sweep where
  base : F32
  ov : List (Int × F32)
  deriving DecidableEq, Repr

/-- The configuration record (00_scope.md R9). The per-Effect fields DUR, PALSEL, POLICY, BGSEL and WIRESEL are the
fields of the descriptor words `edr` (30_encoding.md R92). -/
structure Cfg where
  W : Nat
  H : Nat
  LEAD : Nat
  /-- the effect descriptor ROM `EDR[0..8]` (30_encoding.md R92) -/
  edr : Vector (BitVec 32) 9
  /-- `COLOR_BITS` -/
  colorBits : Nat
  /-- overrides of `PACK`, by (r, g, b) -/
  packOv : List ((Nat × Nat × Nat) × BitVec 32)
  palSeed : Vector (List Seg) 6
  ambientAmt : Nat
  /-- overrides of `CONV1`, `CONV2`, `CONV3`, by the argument -/
  conv1Ov : List (Nat × Nat)
  conv2Ov : List (Nat × Nat)
  conv3Ov : List (Nat × Nat)
  frCre : F32
  frCim0 : F32
  frCimRate : F32
  frSx : Sweep
  frSy : Sweep
  /-- overrides of `PLASMA_VAL`, by (f, y, x) -/
  plasmaOv : List ((Nat × Nat × Nat) × Nat)
  /-- values of `F_SIN` and `F_COS` that the configuration lists -/
  sinOv : List (F32 × F32)
  cosOv : List (F32 × F32)
  geoCubeS : F32
  geoGemR : F32
  geoGemA : F32
  wireDepth : F32
  /-- `PROJ`, row-major: `PROJ[r][c]` is entry `4 * r + c` -/
  proj : Vector F32 16
  wEps : F32
  lissAx : F32
  lissAy : F32
  lissKx : F32
  lissKy : F32
  wireInt : Byte
  font : List (Char × BitVec 15)
  textEvents : List TextEvent
  payload : List Byte
  /-- `AUD_BUF_N`, the transport's habitual request size; the block itself serves any size (90_conflicts.md C13) -/
  audBufN : Nat
  audFrac : Nat
  audStepReset : BitVec 32
  /-- overrides of `WIDEN`, by the source sample -/
  widenOv : List (Nat × BitVec 16)
  deriving DecidableEq, Repr

/-- The test palette seed of 95_test_vectors.md. -/
def Cfg.testSeed : Vector (List Seg) 6 :=
  #v[[⟨0, 254, 0, 0, 0, 255, 255, 255⟩],
     [⟨0, 127, 0, 0, 0, 255, 0, 0⟩, ⟨128, 254, 255, 0, 0, 255, 255, 0⟩],
     [⟨0, 254, 0, 0, 0, 0, 0, 255⟩],
     [⟨0, 254, 0, 0, 0, 0, 255, 0⟩],
     [⟨0, 254, 0, 0, 0, 255, 0, 0⟩],
     [⟨0, 63, 0, 0, 0, 0, 0, 255⟩, ⟨64, 64, 0, 0, 255, 0, 0, 255⟩, ⟨65, 254, 0, 0, 255, 255, 255, 255⟩]]

/-- The configuration of program P1, "the source's timeline" (95_test_vectors.md section 3): its `.cfg` lines, its nine
descriptor words, the test seed, and the defaults of 00_scope.md R9 for every field that has one. `PAYLOAD` and
`AUD_STEP_RESET`, which P1 does not set, are those of program P3; `AUD_BUF_N` is 256. DESIGN CHOICE, log 1. -/
def Cfg.p1 : Cfg where
  W := 8
  H := 8
  LEAD := 2
  edr := #v[0x0000000A#32, 0x102900D7#32, 0x20320083#32, 0x318B0001#32, 0x40240001#32, 0x50450001#32, 0x62200001#32,
    0x70210001#32, 0x80620002#32]
  colorBits := 16
  packOv := []
  palSeed := Cfg.testSeed
  ambientAmt := 1
  conv1Ov := []
  conv2Ov := []
  conv3Ov := []
  frCre := 0x00000000#32
  frCim0 := 0x00000000#32
  frCimRate := 0x00000000#32
  frSx := ⟨0x3E800000#32, []⟩
  frSy := ⟨0x3E800000#32, []⟩
  plasmaOv := []
  sinOv := []
  cosOv := []
  geoCubeS := 0x3F800000#32
  geoGemR := 0x3F800000#32
  geoGemA := 0x3FC00000#32
  wireDepth := 0x40800000#32
  proj := #v[0x3F800000#32, 0#32, 0#32, 0#32,
             0#32, 0x3F800000#32, 0#32, 0#32,
             0#32, 0#32, 0x3F800347#32, 0x3F800000#32,
             0#32, 0#32, 0xBDCCD20B#32, 0#32]
  wEps := 0x358637BD#32
  lissAx := 0x40800000#32
  lissAy := 0x40800000#32
  lissKx := 0x40000000#32
  lissKy := 0x40400000#32
  wireInt := 254#8
  font := [('T', 0x7492#15)]
  textEvents := [⟨.window 2 8, 2, 1, 1, 200#8, ['T']⟩]
  payload := [0x80#8, 0xFF#8, 0x00#8, 0x40#8]
  audBufN := 256
  audFrac := 8
  audStepReset := 0x100#32
  widenOv := []

end Sys2Proof
end

