-- ==== Sys2Proof/Syntax.lean ====
section
/-! DEFINITION. The instructions: one constructor per row of spec/opcode_table.json (30_encoding.md R90, R94, R101, R102). -/

namespace Sys2Proof

/-- The nine Effects, in timeline order (30_encoding.md R90). -/
inductive Effect where
  | start | water | acid | wireframeA | fireA | fractal | fireB | fireC | theEnd
  deriving DecidableEq, Repr

/-- `BGSEL` (30_encoding.md R94). -/
inductive BgSel where
  | none | automaton | fractal | plasma | checker
  deriving DecidableEq, Repr

/-- `WIRESEL` (30_encoding.md R94). -/
inductive WireSel where
  | none | cube | gem
  deriving DecidableEq, Repr

/-- `POLICY` (30_encoding.md R94). -/
inductive Policy where
  | clear | halve | quarter
  deriving DecidableEq, Repr

/-- A decoded descriptor word, format D (30_encoding.md R92). -/
structure Descr where
  op : Effect
  wire : WireSel
  bg : BgSel
  policy : Policy
  pal : BitVec 3
  dur : BitVec 16
  deriving DecidableEq, Repr

/-- The operands of an Effect row: every field of the word but `OP`. -/
structure EffectArgs where
  wire : WireSel
  bg : BgSel
  policy : Policy
  pal : BitVec 3
  dur : BitVec 16
  deriving DecidableEq, Repr

/-- The operands of a `BGSEL` row: every field of the word but `BGSEL`. -/
structure BgArgs where
  op : Effect
  wire : WireSel
  policy : Policy
  pal : BitVec 3
  dur : BitVec 16
  deriving DecidableEq, Repr

/-- The operands of a `WIRESEL` row: every field of the word but `WIRESEL`. -/
structure WireArgs where
  op : Effect
  bg : BgSel
  policy : Policy
  pal : BitVec 3
  dur : BitVec 16
  deriving DecidableEq, Repr

/-- The operands of a `POLICY` row: every field of the word but `POLICY`. -/
structure PolicyArgs where
  op : Effect
  wire : WireSel
  bg : BgSel
  pal : BitVec 3
  dur : BitVec 16
  deriving DecidableEq, Repr

/-- The instructions. A descriptor word matches one row in each of four groups (30_encoding.md R104), so one word is read
as an Effect row, a `BGSEL` row, a `WIRESEL` row or a `POLICY` row; each row carries the word's other fields. -/
inductive Instr where
  | start (a : EffectArgs)
  | water (a : EffectArgs)
  | acid (a : EffectArgs)
  | wireframeA (a : EffectArgs)
  | fireA (a : EffectArgs)
  | fractal (a : EffectArgs)
  | fireB (a : EffectArgs)
  | fireC (a : EffectArgs)
  | theEnd (a : EffectArgs)
  | bgNone (a : BgArgs)
  | bgAutomaton (a : BgArgs)
  | bgFractal (a : BgArgs)
  | bgPlasma (a : BgArgs)
  | bgChecker (a : BgArgs)
  | wireNone (a : WireArgs)
  | wireCube (a : WireArgs)
  | wireGem (a : WireArgs)
  | clear (a : PolicyArgs)
  | halve (a : PolicyArgs)
  | quarter (a : PolicyArgs)
  /-- format RP with both its fields, bits 15:13 and bits 12:0; a non-zero `zero` is answered by 45_compositor_handoff.md R242 -/
  | rowrd (zero : BitVec 3) (idx : BitVec 13)
  /-- format AP -/
  | audrd (n : BitVec 16)
  deriving DecidableEq, Repr

/-- Which of the six readings of a request or descriptor word an instruction belongs to (30_encoding.md R104). -/
inductive Slot where
  | effect | background | wire | policy | rowPort | audioPort
  deriving DecidableEq, Repr

/-- The reading that gives an instruction. -/
def Instr.slot : Instr → Slot
  | .start _ | .water _ | .acid _ | .wireframeA _ | .fireA _ | .fractal _ | .fireB _ | .fireC _ | .theEnd _ => .effect
  | .bgNone _ | .bgAutomaton _ | .bgFractal _ | .bgPlasma _ | .bgChecker _ => .background
  | .wireNone _ | .wireCube _ | .wireGem _ => .wire
  | .clear _ | .halve _ | .quarter _ => .policy
  | .rowrd _ _ => .rowPort
  | .audrd _ => .audioPort

end Sys2Proof
end

