-- ==== Sys2Proof/WellFormed.lean ====
section
/-! DEFINITION. Well-formed descriptors and instructions (30_encoding.md R95, R97, R101, R103). -/

namespace Sys2Proof

/-- The descriptor a format-D row stands for. -/
def Instr.descr : Instr → Option Descr
  | .start a => some ⟨.start, a.wire, a.bg, a.policy, a.pal, a.dur⟩
  | .water a => some ⟨.water, a.wire, a.bg, a.policy, a.pal, a.dur⟩
  | .acid a => some ⟨.acid, a.wire, a.bg, a.policy, a.pal, a.dur⟩
  | .wireframeA a => some ⟨.wireframeA, a.wire, a.bg, a.policy, a.pal, a.dur⟩
  | .fireA a => some ⟨.fireA, a.wire, a.bg, a.policy, a.pal, a.dur⟩
  | .fractal a => some ⟨.fractal, a.wire, a.bg, a.policy, a.pal, a.dur⟩
  | .fireB a => some ⟨.fireB, a.wire, a.bg, a.policy, a.pal, a.dur⟩
  | .fireC a => some ⟨.fireC, a.wire, a.bg, a.policy, a.pal, a.dur⟩
  | .theEnd a => some ⟨.theEnd, a.wire, a.bg, a.policy, a.pal, a.dur⟩
  | .bgNone a => some ⟨a.op, a.wire, .none, a.policy, a.pal, a.dur⟩
  | .bgAutomaton a => some ⟨a.op, a.wire, .automaton, a.policy, a.pal, a.dur⟩
  | .bgFractal a => some ⟨a.op, a.wire, .fractal, a.policy, a.pal, a.dur⟩
  | .bgPlasma a => some ⟨a.op, a.wire, .plasma, a.policy, a.pal, a.dur⟩
  | .bgChecker a => some ⟨a.op, a.wire, .checker, a.policy, a.pal, a.dur⟩
  | .wireNone a => some ⟨a.op, .none, a.bg, a.policy, a.pal, a.dur⟩
  | .wireCube a => some ⟨a.op, .cube, a.bg, a.policy, a.pal, a.dur⟩
  | .wireGem a => some ⟨a.op, .gem, a.bg, a.policy, a.pal, a.dur⟩
  | .clear a => some ⟨a.op, a.wire, a.bg, .clear, a.pal, a.dur⟩
  | .halve a => some ⟨a.op, a.wire, a.bg, .halve, a.pal, a.dur⟩
  | .quarter a => some ⟨a.op, a.wire, a.bg, .quarter, a.pal, a.dur⟩
  | .rowrd _ _ => none
  | .audrd _ => none

/-- `PALSEL` is 0 to 5 (30_encoding.md R97, R103). -/
def Descr.palOk (d : Descr) : Bool := decide (d.pal.toNat ≤ 5)

/-- The cells of the dispatch table that the source fixes (30_encoding.md R95). -/
def Descr.fixedCellsOk (d : Descr) : Bool :=
  match d.op with
  | .water | .acid | .fireA | .fireB | .fireC => decide (d.bg = .automaton)
  | .fractal => decide (d.bg = .fractal)
  | .wireframeA => decide (d.wire ≠ .none)
  | .start | .theEnd => true

/-- A descriptor that a well-formed ROM may hold at index `d.op` (30_encoding.md R103). -/
def Descr.wf (d : Descr) : Bool := d.palOk && d.fixedCellsOk

/-- A well-formed instruction: a descriptor's fields are legal (R97, R103); a row request has bits 15:13 zero (R101). -/
def Instr.wf (i : Instr) : Bool :=
  match i with
  | .rowrd zero _ => decide (zero = 0#3)
  | .audrd _ => true
  | i => i.descr.all Descr.wf

end Sys2Proof
end

