-- ==== Sys2Proof/Decode.lean ====
section
/-! DEFINITION. The decoder, total on every word and rejecting by name, and the encoder (30_encoding.md R90 to R104). -/

namespace Sys2Proof

/-- Why a word is no instruction of a reading: the ill-formed encodings of 30_encoding.md R97. -/
inductive Reject where
  /-- `OP` in 9 to 15 -/
  | reservedOp
  /-- bits 27:26 not 0 -/
  | reservedBits
  /-- `WIRESEL` = 3 -/
  | reservedWire
  /-- `BGSEL` in 5 to 7 -/
  | reservedBg
  /-- `POLICY` = 3 -/
  | reservedPolicy
  /-- `PALSEL` in 6 to 7 -/
  | reservedPal
  /-- a port request with bits above its 16 -/
  | tooWide
  deriving DecidableEq, Repr

/-- What a decoder answers. -/
inductive Decoded (α : Type) where
  | ok (a : α)
  | rejected (r : Reject)
  deriving DecidableEq, Repr

/-! ### The fields of format D (30_encoding.md R92, R93) -/

/-- `OP`, bits 31:28. -/
def opField (w : BitVec 32) : BitVec 4 := w.extractLsb' 28 4
/-- bits 27:26, which must be 0. -/
def rsvField (w : BitVec 32) : BitVec 2 := w.extractLsb' 26 2
/-- `WIRESEL`, bits 25:24. -/
def wireField (w : BitVec 32) : BitVec 2 := w.extractLsb' 24 2
/-- `BGSEL`, bits 23:21. -/
def bgField (w : BitVec 32) : BitVec 3 := w.extractLsb' 21 3
/-- `POLICY`, bits 20:19. -/
def policyField (w : BitVec 32) : BitVec 2 := w.extractLsb' 19 2
/-- `PALSEL`, bits 18:16. -/
def palField (w : BitVec 32) : BitVec 3 := w.extractLsb' 16 3
/-- `DUR`, bits 15:0. -/
def durField (w : BitVec 32) : BitVec 16 := w.extractLsb' 0 16

/-! ### The codes of the fields (30_encoding.md R90, R94) -/

/-- The code of an Effect (R90). -/
def Effect.code : Effect → BitVec 4
  | .start => 0 | .water => 1 | .acid => 2 | .wireframeA => 3 | .fireA => 4
  | .fractal => 5 | .fireB => 6 | .fireC => 7 | .theEnd => 8

/-- The Effect of a code; 9 to 15 are reserved (R90, R97). -/
def Effect.ofCode (c : BitVec 4) : Option Effect :=
  match c.toNat with
  | 0 => some .start | 1 => some .water | 2 => some .acid | 3 => some .wireframeA | 4 => some .fireA
  | 5 => some .fractal | 6 => some .fireB | 7 => some .fireC | 8 => some .theEnd | _ => none

/-- The code of a background selector (R94). -/
def BgSel.code : BgSel → BitVec 3
  | .none => 0 | .automaton => 1 | .fractal => 2 | .plasma => 3 | .checker => 4

/-- The background selector of a code; 5 to 7 are reserved (R94). -/
def BgSel.ofCode (c : BitVec 3) : Option BgSel :=
  match c.toNat with
  | 0 => some .none | 1 => some .automaton | 2 => some .fractal | 3 => some .plasma | 4 => some .checker
  | _ => Option.none

/-- The code of a wire selector (R94). -/
def WireSel.code : WireSel → BitVec 2
  | .none => 0 | .cube => 1 | .gem => 2

/-- The wire selector of a code; 3 is reserved (R94). -/
def WireSel.ofCode (c : BitVec 2) : Option WireSel :=
  match c.toNat with
  | 0 => some .none | 1 => some .cube | 2 => some .gem | _ => Option.none

/-- The code of a reset policy (R94). -/
def Policy.code : Policy → BitVec 2
  | .clear => 0 | .halve => 1 | .quarter => 2

/-- The reset policy of a code; 3 is reserved (R94). -/
def Policy.ofCode (c : BitVec 2) : Option Policy :=
  match c.toNat with
  | 0 => some .clear | 1 => some .halve | 2 => some .quarter | _ => none

/-! ### Decoding -/

/-- A descriptor word by its fields, or the first ill-formed field (R92, R97). The source-fixed cells of R95 are a matter
of the ROM as a whole and are checked there (log 14). -/
def decodeDescr (w : BitVec 32) : Decoded Descr :=
  match Effect.ofCode (opField w) with
  | none => .rejected .reservedOp
  | some op =>
    if rsvField w ≠ 0#2 then .rejected .reservedBits else
    match WireSel.ofCode (wireField w) with
    | none => .rejected .reservedWire
    | some wire =>
      match BgSel.ofCode (bgField w) with
      | none => .rejected .reservedBg
      | some bg =>
        match Policy.ofCode (policyField w) with
        | none => .rejected .reservedPolicy
        | some policy =>
          if 5 < (palField w).toNat then .rejected .reservedPal
          else .ok ⟨op, wire, bg, policy, palField w, durField w⟩

/-- The Effect row of a descriptor (R104 (1)). -/
def effectRow (d : Descr) : Instr :=
  match d.op with
  | .start => .start ⟨d.wire, d.bg, d.policy, d.pal, d.dur⟩
  | .water => .water ⟨d.wire, d.bg, d.policy, d.pal, d.dur⟩
  | .acid => .acid ⟨d.wire, d.bg, d.policy, d.pal, d.dur⟩
  | .wireframeA => .wireframeA ⟨d.wire, d.bg, d.policy, d.pal, d.dur⟩
  | .fireA => .fireA ⟨d.wire, d.bg, d.policy, d.pal, d.dur⟩
  | .fractal => .fractal ⟨d.wire, d.bg, d.policy, d.pal, d.dur⟩
  | .fireB => .fireB ⟨d.wire, d.bg, d.policy, d.pal, d.dur⟩
  | .fireC => .fireC ⟨d.wire, d.bg, d.policy, d.pal, d.dur⟩
  | .theEnd => .theEnd ⟨d.wire, d.bg, d.policy, d.pal, d.dur⟩

/-- The `BGSEL` row of a descriptor (R104 (2)). -/
def bgRow (d : Descr) : Instr :=
  match d.bg with
  | .none => .bgNone ⟨d.op, d.wire, d.policy, d.pal, d.dur⟩
  | .automaton => .bgAutomaton ⟨d.op, d.wire, d.policy, d.pal, d.dur⟩
  | .fractal => .bgFractal ⟨d.op, d.wire, d.policy, d.pal, d.dur⟩
  | .plasma => .bgPlasma ⟨d.op, d.wire, d.policy, d.pal, d.dur⟩
  | .checker => .bgChecker ⟨d.op, d.wire, d.policy, d.pal, d.dur⟩

/-- The `WIRESEL` row of a descriptor (R104 (3)). -/
def wireRow (d : Descr) : Instr :=
  match d.wire with
  | .none => .wireNone ⟨d.op, d.bg, d.policy, d.pal, d.dur⟩
  | .cube => .wireCube ⟨d.op, d.bg, d.policy, d.pal, d.dur⟩
  | .gem => .wireGem ⟨d.op, d.bg, d.policy, d.pal, d.dur⟩

/-- The `POLICY` row of a descriptor (R104 (4)). -/
def policyRow (d : Descr) : Instr :=
  match d.policy with
  | .clear => .clear ⟨d.op, d.wire, d.bg, d.pal, d.dur⟩
  | .halve => .halve ⟨d.op, d.wire, d.bg, d.pal, d.dur⟩
  | .quarter => .quarter ⟨d.op, d.wire, d.bg, d.pal, d.dur⟩

/-- The row port's reading of its 16-bit request word, format RP (R101). Every word is answered (45_compositor_handoff.md R242). -/
def decodeRowPort (w : BitVec 16) : Instr := .rowrd (w.extractLsb' 13 3) (w.extractLsb' 0 13)

/-- The audio port's reading of its 16-bit request word, format AP (R102). -/
def decodeAudioPort (w : BitVec 16) : Instr := .audrd w

/-- A descriptor's row in one reading. -/
def Decoded.row (f : Descr → Instr) : Decoded Descr → Decoded Instr
  | .ok d => .ok (f d)
  | .rejected r => .rejected r

/-- The decoder: the instruction that a word is in a reading (R91, R104). A port's word has 16 bits. -/
def decode (sl : Slot) (w : BitVec 32) : Decoded Instr :=
  match sl with
  | .effect => (decodeDescr w).row effectRow
  | .background => (decodeDescr w).row bgRow
  | .wire => (decodeDescr w).row wireRow
  | .policy => (decodeDescr w).row policyRow
  | .rowPort => if 2 ^ 16 ≤ w.toNat then .rejected .tooWide else .ok (decodeRowPort (w.extractLsb' 0 16))
  | .audioPort => if 2 ^ 16 ≤ w.toNat then .rejected .tooWide else .ok (decodeAudioPort (w.extractLsb' 0 16))

/-! ### Encoding -/

/-- Format D assembled: `{OP, 00, WIRESEL, BGSEL, POLICY, PALSEL, DUR}` (R92, R99). -/
def encodeDescr (d : Descr) : BitVec 32 :=
  d.op.code ++ (0#2 : BitVec 2) ++ d.wire.code ++ d.bg.code ++ d.policy.code ++ d.pal ++ d.dur

/-- Format RP assembled: `{ZERO, IDX}` (R101). -/
def encodeRow (zero : BitVec 3) (idx : BitVec 13) : BitVec 16 := zero ++ idx

/-- The encoder: an instruction's word; a port request stands in the low 16 bits. -/
def encode (i : Instr) : BitVec 32 :=
  match i with
  | .rowrd zero idx => (encodeRow zero idx).setWidth 32
  | .audrd n => n.setWidth 32
  | i => match i.descr with
    | some d => encodeDescr d
    | none => 0#32

/-! ### The opcode table's words -/

/-- Which reading of a descriptor word `decodeTableWord` reports. A word matches a row of each of four groups (R104) and
the table's rows overlap, so one must be named: an Effect row where `OP` is not 0; where `OP` is 0, the first of `BGSEL`,
`WIRESEL`, `POLICY` that is not 0; the row `START` where all four are 0. Machine execution does not use it (log 4). -/
def tableSlot (w : BitVec 32) : Slot :=
  if opField w ≠ 0#4 then .effect
  else if bgField w ≠ 0#3 then .background
  else if wireField w ≠ 0#2 then .wire
  else if policyField w ≠ 0#2 then .policy
  else .effect

/-- Which port a 16-bit word is sent to: both formats fill 16 bits and only RP fixes any (R101, R102), so a word
with bits 15:13 zero is a row request and any other an audio request (log 4). -/
def tablePort (w : BitVec 16) : Slot :=
  if w.extractLsb' 13 3 = 0#3 then .rowPort else .audioPort

/-- The instruction of an opcode-table word of `nbits` bits. -/
def decodeTableWord (nbits w : Nat) : Option Instr :=
  let sl := if nbits ≤ 16 then tablePort (BitVec.ofNat 16 w) else tableSlot (BitVec.ofNat 32 w)
  match decode sl (BitVec.ofNat 32 (w % 2 ^ nbits)) with
  | .ok i => some i
  | .rejected _ => none

end Sys2Proof
end

