-- ==== Sys2Proof/Machine/State.lean ====
section
/-! DEFINITION. The machine's state as plain data, its reset value, and the reasons a step can stop
(10_state.md R20 to R55, 70_reset_and_hazards.md R340, R341). -/

namespace Sys2Proof.Machine

/-- A memory: address and word pairs, addresses strictly rising, no entry 0. An unlisted address reads as 0, which is the
reset contents the spec gives BG, FG and COMP (10_state.md R54). With `w = 8` it is a list of `Host.Cell`. -/
abbrev Memory (w : Nat) := List (Nat × BitVec w)

/-- Where Context A stands in its loop (10_state.md R31). -/
inductive Phase where
  | gen | merge | boundary
  deriving DecidableEq, Repr

/-- The model's own: a row request in service (45_compositor_handoff.md R241): its request word and the next column to read. -/
structure RowService where
  req : BitVec 16
  next : Nat
  deriving DecidableEq, Repr

/-- The model's own: an audio request in service (46_audio.md R258): the samples still to deliver, and `AUD_EN = 1 and
HALTED = 0` as sampled at the start of the request. -/
structure AudioService where
  left : Nat
  live : Bool
  deriving DecidableEq, Repr

/-- What happens next: which agent moves, or what an outside agent does (60_exceptions.md R306 to R308). -/
inductive Event where
  /-- Context A takes a step, if it is enabled (41_sequencer.md R125) -/
  | contextA
  /-- the builders run, if they have not (40_table_builders.md R110) -/
  | build
  /-- the video consumer puts a request word at the row port and is answered at once -/
  | rowRequest (w : BitVec 16)
  /-- the same, its words read one by one by `rowWord` events -/
  | rowOpen (w : BitVec 16)
  /-- one word read of the row request in service (45_compositor_handoff.md R241) -/
  | rowWord
  /-- the audio transport puts a request word at the audio port and is answered at once -/
  | audioRequest (w : BitVec 16)
  /-- the same, its samples produced one by one by `audioSample` events -/
  | audioOpen (w : BitVec 16)
  /-- one sample of the audio request in service (60_exceptions.md R308) -/
  | audioSample
  /-- the host reads `bytes` bytes at an offset of the register block -/
  | hostRead (off : BitVec 32) (bytes : Nat)
  /-- the host writes `bytes` bytes at an offset of the register block -/
  | hostWrite (off : BitVec 32) (bytes : Nat) (v : BitVec 32)
  /-- the platform asserts reset (70_reset_and_hazards.md R340) -/
  | reset
  deriving DecidableEq, Repr

/-- The state. Every field but the last seven is named by the spec; INVENTORY.md lists each with its rule. -/
structure State where
  /-- the configuration, which no step changes (00_scope.md R9) -/
  cfg : Cfg
  effect : BitVec 4
  frame : BitVec 32
  countdown : BitVec 16
  palact : BitVec 3
  scan : BitVec 13
  prologueDone : Bool
  phase : Phase
  col : BitVec 13
  audPos : BitVec 32
  audStep : BitVec 32
  vidEn : Bool
  audEn : Bool
  tblRdy : Bool
  halted : Bool
  diag : BitVec 4
  bg : Memory 8
  fg : Memory 8
  comp : Memory 32
  pal : Memory 32
  geo : Memory 32
  /-- the model's own from here on -/
  rowReq : Option RowService
  rowReply : List Color
  audReq : Option AudioService
  audReply : List (BitVec 16)
  hostData : BitVec 32
  events : List Event
  free : Nat
  deriving DecidableEq, Repr

/-- Why the machine stops. The block itself raises no fault (60_exceptions.md R300). -/
inductive Fault where
  /-- Raised by a generator unit or the merger whose position lies outside the grid (`SCAN >= H` or `COL >= W`), or by
  the merger with `PALACT` above 5: the access would go to an address that does not exist (20_memory.md R61, R62, R63).
  No run reaches such a position (20_memory.md R69). Safe: the machine stops. Log 17. -/
  | outsideAddressSpace
  deriving DecidableEq, Repr

/-- Why the model gives no meaning. -/
inductive Refusal where
  /-- Raised by `exec` for an instruction whose meaning is not written yet; none is left. Safe. -/
  | notModelled (mnemonic : String)
  /-- Raised by Context A's fetch of a descriptor word that is ill-formed, or whose `OP` is not its index
  (30_encoding.md R97, R103). Safe: the run ends. Log 14. -/
  | illFormedDescriptor
  /-- Raised by every step taken before `TBL_RDY = 1` under a configuration that breaks a constraint of 00_scope.md R9
  (93_implementation_defined.md U8), so by the first step of a run from reset. Safe: the run does not start. Log 14. -/
  | illFormedCfg
  deriving DecidableEq, Repr

/-- The descriptor word of a code; the ROM has nine words (30_encoding.md R92). -/
def edrWord (c : Cfg) (e : Nat) : BitVec 32 := c.edr[e]?.getD 0#32

/-- The machine right after reset, under a configuration (10_state.md R54). -/
def State.resetWith (c : Cfg) : State where
  cfg := c
  effect := 0#4
  frame := 0#32
  countdown := BitVec.ofNat 16 ((durField (edrWord c 0)).toNat - 1)
  palact := palField (edrWord c 0)
  scan := 0#13
  prologueDone := false
  phase := .gen
  col := 0#13
  audPos := 0#32
  audStep := c.audStepReset
  vidEn := false
  audEn := false
  tblRdy := false
  halted := false
  diag := 0#4
  bg := []
  fg := []
  comp := []
  pal := []
  geo := []
  rowReq := none
  rowReply := []
  audReq := none
  audReply := []
  hostData := 0#32
  events := []
  free := 0

/-- The machine right after reset, under the configuration of the spec's program P1 (log 1). -/
def State.reset : State := State.resetWith Cfg.p1

end Sys2Proof.Machine
end

