-- ==== Sys2Proof/Machine/Flags.lean ====
section
/-! DEFINITION. The one status flag `PROLOGUE_DONE` (10_state.md R28) and the words of control and status bits
(10_state.md R38, R39). No other condition code exists. -/

namespace Sys2Proof.Machine

/-- The frame-boundary step sets the flag (41_sequencer.md R126). -/
def setPrologue (s : State) : State := { s with prologueDone := true }

/-- The row-done step clears it (41_sequencer.md R134). -/
def clearPrologue (s : State) : State := { s with prologueDone := false }

/-- A bit as a word. -/
def bitAt (k : Nat) (b : Bool) : BitVec 32 := if b then 1#32 <<< k else 0#32

/-- `AT_END`, 1 exactly when `EFFECT = 8` (10_state.md R39). -/
def atEnd (s : State) : Bool := decide (s.effect = 8#4)

/-- `CTRL_R` as read: bit 0 `VID_EN`, bit 1 `AUD_EN` (10_state.md R38). -/
def ctrlWord (s : State) : BitVec 32 := bitAt 0 s.vidEn ||| bitAt 1 s.audEn

/-- `STATUS_R`: bit 0 `TBL_RDY`, bit 1 `PROLOGUE_DONE`, bit 2 `AT_END`, bit 3 `HALTED`, bits 7:4 `DIAG` (10_state.md R39). -/
def statusWord (s : State) : BitVec 32 :=
  bitAt 0 s.tblRdy ||| bitAt 1 s.prologueDone ||| bitAt 2 (atEnd s) ||| bitAt 3 s.halted ||| (s.diag.setWidth 32 <<< 4)

/-- Context A is enabled: `VID_EN = 1` and `HALTED = 0` (41_sequencer.md R125). -/
def videoLive (s : State) : Bool := s.vidEn && !s.halted

/-- Context B serves payload data: `AUD_EN = 1` and `HALTED = 0` (46_audio.md R258). -/
def audioLive (s : State) : Bool := s.audEn && !s.halted

end Sys2Proof.Machine
end

