-- ==== Sys2Proof/Machine/Float.lean ====
section
/-! DEFINITION. IEEE 754 binary32 arithmetic, round to nearest, ties to even, subnormals exact, each operation rounded
once (00_scope.md R13, 43_gen_fractal_plasma_checker.md R171). Every finite binary32 value is an integer number of
units of 2^-149, so an operation is exact integer arithmetic and one rounding of a quotient. -/

namespace Sys2Proof.Machine

/-- The sign bit. -/
def f32Neg (x : F32) : Bool := decide (2 ^ 31 ≤ x.toNat)

/-- The bits below the sign: the magnitude's encoding, which orders magnitudes. -/
def f32Mag (x : F32) : Nat := x.toNat % 2 ^ 31

/-- The magnitude encoding of infinity. -/
def infMag : Nat := 0x7F800000

def f32IsNaN (x : F32) : Bool := decide (infMag < f32Mag x)
def f32IsInf (x : F32) : Bool := decide (f32Mag x = infMag)
def f32IsFinite (x : F32) : Bool := decide (f32Mag x < infMag)
def f32IsZero (x : F32) : Bool := decide (f32Mag x = 0)

/-- The one NaN that operations produce; payloads are not modelled. DESIGN CHOICE, log 6. -/
def f32NaN : F32 := 0x7FC00000#32

/-- A word from its sign and magnitude encoding. -/
def f32Of (neg : Bool) (mag : Nat) : F32 := BitVec.ofNat 32 (mag + if neg then 2 ^ 31 else 0)

/-- The magnitude of a finite word in units of 2^-149: `significand * 2^(exponent - 1)`, a subnormal's own bits. -/
def f32Units (x : F32) : Nat :=
  let e := f32Mag x / 2 ^ 23
  let m := f32Mag x % 2 ^ 23
  if e = 0 then m else (2 ^ 23 + m) * 2 ^ (e - 1)

/-- The signed value of a finite word in units of 2^-149. -/
def f32Int (x : F32) : Int := if f32Neg x then -(f32Units x : Int) else f32Units x

/-- The magnitude encoding nearest to `n / d` units, ties to even; infinity from the overflow threshold on. With
`k` the number of places the 24-bit significand is shifted, the encoding is `k * 2^23` plus the rounded significand. -/
def roundMag (n d : Nat) : Nat :=
  let k := Nat.log2 (n / d) - 23
  let d' := d * 2 ^ k
  let q := n / d'
  let r := n % d'
  let up := d' < 2 * r || (2 * r == d' && q % 2 == 1)
  min (k * 2 ^ 23 + q + if up then 1 else 0) infMag

/-- A signed integer number of units of 2^-149, rounded; an exact zero is +0. -/
def f32OfUnits (i : Int) : F32 := f32Of (decide (i < 0)) (roundMag i.natAbs 1)

/-- `f32(v)`: an integer to binary32 (00_scope.md R13). -/
def f32OfInt (i : Int) : F32 := f32Of (decide (i < 0)) (roundMag (i.natAbs * 2 ^ 149) 1)

/-- `f32(v)` of a natural number. -/
def f32OfNat (n : Nat) : F32 := f32OfInt (n : Int)

/-- The sign flipped; a NaN stays a NaN. -/
def f32Negate (x : F32) : F32 := f32Of (!f32Neg x) (f32Mag x)

/-- `+f`. -/
def f32Add (a b : F32) : F32 :=
  if f32IsNaN a || f32IsNaN b then f32NaN
  else if f32IsInf a then (if f32IsInf b && (f32Neg a != f32Neg b) then f32NaN else a)
  else if f32IsInf b then b
  else if f32IsZero a && f32IsZero b then f32Of (f32Neg a && f32Neg b) 0
  else f32OfUnits (f32Int a + f32Int b)

/-- `-f`. -/
def f32Sub (a b : F32) : F32 := f32Add a (f32Negate b)

/-- `*f`. -/
def f32Mul (a b : F32) : F32 :=
  let neg := f32Neg a != f32Neg b
  if f32IsNaN a || f32IsNaN b then f32NaN
  else if f32IsInf a || f32IsInf b then
    (if f32IsZero a || f32IsZero b then f32NaN else f32Of neg infMag)
  else f32Of neg (roundMag (f32Units a * f32Units b) (2 ^ 149))

/-- `/f`. -/
def f32Div (a b : F32) : F32 :=
  let neg := f32Neg a != f32Neg b
  if f32IsNaN a || f32IsNaN b then f32NaN
  else if f32IsInf a then (if f32IsInf b then f32NaN else f32Of neg infMag)
  else if f32IsInf b then f32Of neg 0
  else if f32IsZero b then (if f32IsZero a then f32NaN else f32Of neg infMag)
  else f32Of neg (roundMag (f32Units a * 2 ^ 149) (f32Units b))

/-- The place of a word that is no NaN in the order of the numbers; both zeros have place 0. -/
def f32Key (x : F32) : Int := if f32Neg x then -(f32Mag x : Int) else f32Mag x

/-- The IEEE comparison `a > b`, false where either is a NaN (00_scope.md R13). -/
def f32Gt (a b : F32) : Bool := !f32IsNaN a && !f32IsNaN b && decide (f32Key b < f32Key a)

/-- `abs`. -/
def f32Abs (x : F32) : F32 := f32Of false (f32Mag x)

/-- `trunc(v)` of a word that is no NaN: the integer toward zero. The truncation of an infinity is a free value (log 7). -/
def f32Trunc (x : F32) : Int :=
  if f32IsInf x then Config.truncInf (f32Neg x)
  else if f32Neg x then -((f32Units x / 2 ^ 149 : Nat) : Int) else ((f32Units x / 2 ^ 149 : Nat) : Int)

/-- A NaN as the one NaN; any other word as it is (log 6). -/
def f32Canon (x : F32) : F32 := if f32IsNaN x then f32NaN else x

end Sys2Proof.Machine
end

