-- ==== Sys2Proof/Machine/Params.lean ====
section
/-! DEFINITION. The function-valued parameters of 00_scope.md R9, each its default and the configuration's overrides, and
the constraints of R9 on a configuration. -/

namespace Sys2Proof.Machine

/-- A function given by its default and a finite list of overrides. -/
def override {α β : Type} [BEq α] (ov : List (α × β)) (dflt : α → β) (a : α) : β := (ov.lookup a).getD (dflt a)

/-- A colour word cut to `COLOR_BITS` bits, the width of a colour memory's word (10_state.md R50, log 18). -/
def colorOf (c : Cfg) (w : BitVec 32) : Color := BitVec.ofNat 32 (w.toNat % 2 ^ c.colorBits)

/-- RGB565, the default `PACK` (40_table_builders.md R115). -/
def rgb565 (r g b : Nat) : BitVec 32 :=
  BitVec.ofNat 32 (((r / 8) % 32) * 2048 + ((g / 4) % 64) * 32 + (b / 8) % 32)

/-- `PACK` (40_table_builders.md R115). -/
def pack (c : Cfg) (r g b : Nat) : Color :=
  colorOf c (override c.packOv (fun k => rgb565 k.1 k.2.1 k.2.2) (r, g, b))

/-- `CONV1`, `CONV2`, `CONV3` (42_gen_automaton.md R151). -/
def conv1 (c : Cfg) (v : Nat) : Nat := override c.conv1Ov (fun v => v / 4) v
def conv2 (c : Cfg) (v : Nat) : Nat := override c.conv2Ov (fun v => v / 8) v
def conv3 (c : Cfg) (v : Nat) : Nat := override c.conv3Ov (fun v => v / 8) v

/-- `FR_SX(t)`, `FR_SY(t)` (43_gen_fractal_plasma_checker.md R168). -/
def sweepAt (s : Sweep) (t : Int) : F32 := override s.ov (fun _ => s.base) t

/-- `F_SIN`, any total function of one NaN and the other words (00_scope.md R9, log 5, log 6). -/
def fSin (c : Cfg) (x : F32) : F32 := override c.sinOv Config.fSin (f32Canon x)

/-- `F_COS` (00_scope.md R9, log 5, log 6). -/
def fCos (c : Cfg) (x : F32) : F32 := override c.cosOv Config.fCos (f32Canon x)

/-- The default `WIDEN(s) = (s - 128) * 256` (46_audio.md R261). -/
def widenDefault (s : Nat) : BitVec 16 := BitVec.ofInt 16 (((s : Int) - 128) * 256)

/-- `WIDEN` (46_audio.md R261). -/
def widen (c : Cfg) (s : Byte) : BitVec 16 := override c.widenOv widenDefault s.toNat

/-- `PROJ[r][col]` (44_gen_wireframe_text.md R196). -/
def projAt (c : Cfg) (r col : Nat) : F32 := c.proj[4 * r + col]?.getD 0#32

/-- The default projection matrix (44_gen_wireframe_text.md R196). -/
def defaultProj (W H : Nat) : Vector F32 16 :=
  #v[f32Div (f32OfNat H) (f32OfNat W), 0#32, 0#32, 0#32,
     0#32, 0x3F800000#32, 0#32, 0#32,
     0#32, 0#32, 0x3F800347#32, 0x3F800000#32,
     0#32, 0#32, 0xBDCCD20B#32, 0#32]

/-- `DUR[e]`, `PALSEL[e]` (30_encoding.md R92, R93). -/
def durOf (c : Cfg) (e : Nat) : BitVec 16 := durField (edrWord c e)
def palselOf (c : Cfg) (e : Nat) : BitVec 3 := palField (edrWord c e)

/-- `FR_T0 = DUR[0] + DUR[1] + DUR[2] + DUR[3] + DUR[4]` (30_encoding.md R93). -/
def frT0 (c : Cfg) : Nat :=
  (durOf c 0).toNat + (durOf c 1).toNat + (durOf c 2).toNat + (durOf c 3).toNat + (durOf c 4).toNat

/-- The glyph mask of a character; a character with no entry has mask 0 (20_memory.md R65). -/
def fontMask (c : Cfg) (ch : Char) : BitVec 15 := override c.font (fun _ => 0#15) ch

/-- The number of palette table words, `6 * 256` (10_state.md R51). -/
def palWords : Nat := 6 * 256

/-! ### The constraints of R9 -/

/-- A descriptor ROM is well-formed (30_encoding.md R103). -/
def edrWf (c : Cfg) : Bool :=
  (List.range 9).all fun e =>
    match decodeDescr (edrWord c e) with
    | .ok d => decide (d.op.code.toNat = e) && d.wf
    | .rejected _ => false

/-- The source's timeline: the three durations the source gives (30_encoding.md R103). A test configuration may use others,
so it is no constraint. -/
def isSourceTimeline (c : Cfg) : Bool :=
  decide (durOf c 0 = 10#16) && decide (durOf c 1 = 215#16) && decide (durOf c 2 = 131#16)

/-- A segment's own constraints (40_table_builders.md R112). -/
def segWf (s : Seg) : Bool :=
  decide (s.i0 ≤ s.i1 ∧ s.i1 ≤ 254 ∧ s.r1 ≤ 255 ∧ s.g1 ≤ 255 ∧ s.b1 ≤ 255 ∧ s.r0 ≤ s.r1 ∧ s.g0 ≤ s.g1 ∧ s.b0 ≤ s.b1)

/-- The segments from index `i` on partition `i..254` (40_table_builders.md R112). -/
def segsFrom (i : Nat) : List Seg → Bool
  | [] => decide (i = 255)
  | s :: t => segWf s && decide (s.i0 = i) && segsFrom (s.i1 + 1) t

/-- A seed is well-formed (40_table_builders.md R112). -/
def seedWf (l : List Seg) : Bool :=
  segsFrom 0 l &&
    match l with
    | [] => false
    | s :: _ => decide (s.r0 = 0 ∧ s.g0 = 0 ∧ s.b0 = 0)

/-- A text event's bounds (44_gen_wireframe_text.md R221). -/
def eventWf (e : TextEvent) : Bool :=
  decide (-32768 ≤ e.x ∧ e.x ≤ 32767 ∧ -32768 ≤ e.y ∧ e.y ≤ 32767 ∧ 1 ≤ e.scale ∧ e.scale ≤ 64 ∧ e.inten ≠ 0#8)

/-- The binary32 parameters that R9 wants finite. -/
def finiteParams (c : Cfg) : List F32 :=
  [c.frCre, c.frCim0, c.frCimRate, c.frSx.base, c.frSy.base, c.geoCubeS, c.geoGemR, c.geoGemA, c.wireDepth,
    c.lissAx, c.lissAy, c.lissKx, c.lissKy] ++ c.frSx.ov.map Prod.snd ++ c.frSy.ov.map Prod.snd ++ c.proj.toList

/-- `W_EPS >= 0` (00_scope.md R9). -/
def epsWf (c : Cfg) : Bool := !f32IsNaN c.wEps && decide (0 ≤ f32Key c.wEps)

/-- Every constraint of the table of 00_scope.md R9. A `Cfg` that violates one is refused (93_implementation_defined.md U8). -/
def cfgWf (c : Cfg) : Bool :=
  decide (4 ≤ c.W ∧ c.W ≤ 4096 ∧ 4 ≤ c.H ∧ c.H ≤ 4096 ∧ c.LEAD < c.H) &&
  decide (1 ≤ c.colorBits ∧ c.colorBits ≤ 32) &&
  decide (pack c 0 0 0 = 0#32) &&
  c.palSeed.toList.all seedWf &&
  edrWf c &&
  decide (c.ambientAmt ≤ 255) &&
  (c.conv1Ov ++ c.conv2Ov ++ c.conv3Ov).all (fun p => decide (p.2 ≤ 255)) &&
  c.plasmaOv.all (fun p => decide (p.2 ≤ 254)) &&
  (finiteParams c).all f32IsFinite &&
  epsWf c &&
  decide (c.wireInt ≠ 0#8) &&
  c.textEvents.all eventWf &&
  decide (c.payload ≠ [] ∧ c.audFrac ≤ 16 ∧ (c.payload.length - 1) * 2 ^ c.audFrac < 2 ^ 32) &&
  decide (1 ≤ c.audBufN ∧ c.audBufN ≤ 65535)

end Sys2Proof.Machine
end

