-- ==== Sys2Proof/Machine/Ops.lean ====
section
/-! DEFINITION. The named operations over memories, the audio cursor's `SAMPLE`, the host's registers, the fatal event
and the return from it (reset). -/

namespace Sys2Proof.Machine

/-! ### Memories (20_memory.md R61 to R64) -/

/-- The word at an address; an unlisted address reads as 0. -/
def Memory.read {w : Nat} : Memory w → Nat → BitVec w
  | [], _ => 0#w
  | (k, v) :: t, a => if k = a then v else Memory.read t a

/-- A word put at its place in a memory, over the word its address holds. -/
def Memory.put {w : Nat} : Memory w → Nat → BitVec w → Memory w
  | [], a, v => [(a, v)]
  | (k, u) :: t, a, v =>
    if a < k then (a, v) :: (k, u) :: t
    else if a = k then (a, v) :: t
    else (k, u) :: Memory.put t a v

/-- The memory with one word replaced, in canonical form: writing 0 takes the entry away. -/
def Memory.write {w : Nat} (m : Memory w) (a : Nat) (v : BitVec w) : Memory w :=
  if v = 0#w then m.filter (fun p => decide (p.1 ≠ a)) else Memory.put m a v

/-- Canonical form above an address: addresses rise strictly, no entry is 0. -/
def Memory.wfFrom {w : Nat} (lo : Nat) : Memory w → Bool
  | [] => true
  | (k, v) :: t => decide (lo ≤ k) && decide (v ≠ 0#w) && Memory.wfFrom (k + 1) t

/-- Canonical form: what every memory of a state keeps. -/
def Memory.wf {w : Nat} (m : Memory w) : Bool := Memory.wfFrom 0 m

/-- Every listed address is below a size. -/
def Memory.below {w : Nat} (n : Nat) (m : Memory w) : Bool := m.all fun p => decide (p.1 < n)

/-- Every listed word is below a bound. -/
def Memory.valuesBelow {w : Nat} (n : Nat) (m : Memory w) : Bool := m.all fun p => decide (p.2.toNat < n)

/-- The first `n` words of a memory each replaced by a function of itself (a whole-layer sweep: 41_sequencer.md R130,
44_gen_wireframe_text.md R194). -/
def Memory.sweep {w : Nat} (f : BitVec w → BitVec w) : Nat → Memory w → Memory w
  | 0, m => m
  | n + 1, m =>
    let m' := Memory.sweep f n m
    Memory.write m' n (f (Memory.read m' n))

/-! ### `SAMPLE` (46_audio.md R257) -/

/-- The largest cursor value, `(L - 1) << AUD_FRAC`. -/
def audEnd (c : Cfg) : Nat := (c.payload.length - 1) * 2 ^ c.audFrac

/-- Cursor addressing: the payload index `min(AUD_POS >> AUD_FRAC, L - 1)` (20_memory.md R69). -/
def audIndex (c : Cfg) (pos : BitVec 32) : Nat := min (pos.toNat / 2 ^ c.audFrac) (c.payload.length - 1)

/-- The sample that a cursor position gives. -/
def sampleAt (c : Cfg) (pos : BitVec 32) : BitVec 16 := widen c (c.payload[audIndex c pos]?.getD 0#8)

/-- The cursor after one sample: the exact sum, saturated at the end (46_audio.md R257, R264). -/
def audAdvance (c : Cfg) (pos step : BitVec 32) : BitVec 32 :=
  BitVec.ofNat 32 (min (pos.toNat + step.toNat) (audEnd c))

/-- One sample of the audio request in service: payload data with the cursor's advance where the request was live at its
start, else 0 with the cursor unchanged (46_audio.md R257, R258). Nothing where no request is in service. -/
def audioSample (s : State) : State :=
  match s.audReq with
  | none => s
  | some a =>
    let rest := if a.left ≤ 1 then none else some { a with left := a.left - 1 }
    if a.live then
      { s with
        audPos := audAdvance s.cfg s.audPos s.audStep
        audReply := s.audReply ++ [sampleAt s.cfg s.audPos]
        audReq := rest }
    else { s with audReply := s.audReply ++ [0#16], audReq := rest }

/-- `n` samples. -/
def audioSamples : Nat → State → State
  | 0, s => s
  | n + 1, s => audioSamples n (audioSample s)

/-- The samples that the request in service still has to deliver. -/
def audioLeft (s : State) : Nat :=
  match s.audReq with
  | none => 0
  | some a => a.left

/-- The request in service served to completion (46_audio.md R255). -/
def audioFinish (s : State) : State := audioSamples (audioLeft s) s

/-! ### The fatal event (60_exceptions.md R301 to R305) -/

/-- `raise Fatal(c)`: DIAG takes the code and HALTED is set; nothing where the block is halted already (R303, R304). No
state is saved and no vector is fetched. An audio request that began before is completed first, since every step that
began before the event has completed and none begins after it (R302). DEDUCED, log 11. -/
def raiseFatal (code : BitVec 4) (s : State) : State :=
  if s.halted then s else { audioFinish s with diag := code, halted := true }

/-- The only exit from the halted state: reset puts every piece of state into the value of 10_state.md R54 and leaves the
configuration (60_exceptions.md R305, 70_reset_and_hazards.md R340). The coming events, which are the outside's, and
the count of free values go on (log 2). -/
def resetBlock (s : State) : State := { State.resetWith s.cfg with events := s.events, free := s.free }

/-! ### The host register block (10_state.md R37 to R47, 20_memory.md R72 to R74) -/

/-- The generated row `gy = (SCAN + LEAD) mod H` (41_sequencer.md R133). -/
def genRow (s : State) : Nat := (s.scan.toNat + s.cfg.LEAD) % s.cfg.H

/-- `SCAN_R`: bits 12:0 `SCAN`, bits 28:16 the generated row, 0 where `SCAN = H` (10_state.md R43). After reset that is `LEAD` in
bits 28:16, where the table of R37 gives the register the reset value 0; the spec settles the conflict nowhere and the
model follows R43 in every state. DESIGN CHOICE, log 20. -/
def scanWord (s : State) : BitVec 32 :=
  s.scan.setWidth 32 ||| (if s.scan.toNat < s.cfg.H then (BitVec.ofNat 13 (genRow s)).setWidth 32 <<< 16 else 0#32)

/-- The word at an offset; unmapped offsets read 0 (10_state.md R37, 20_memory.md R73). -/
def regRead (s : State) (off : BitVec 32) : BitVec 32 :=
  match off.toNat with
  | 0x00 => ctrlWord s
  | 0x04 => statusWord s
  | 0x08 => s.frame
  | 0x0C => s.effect.setWidth 32 ||| (s.palact.setWidth 32 <<< 4)
  | 0x10 => s.countdown.setWidth 32
  | 0x14 => scanWord s
  | 0x18 => s.audPos
  | 0x1C => s.audStep
  | 0x20 => 0#32
  | 0x24 => BitVec.ofNat 32 (s.cfg.W % 2 ^ 16 + (s.cfg.H % 2 ^ 16) * 2 ^ 16)
  | _ => 0#32

/-- A write to `CTRL_R`: bits written 1 are set while `TBL_RDY = 1` and `HALTED = 0`, else the write is ignored
(10_state.md R38, 70_reset_and_hazards.md R345). -/
def writeCtrl (v : BitVec 32) (s : State) : State :=
  if s.tblRdy && !s.halted then
    { s with vidEn := s.vidEn || v.getLsbD 0, audEn := s.audEn || v.getLsbD 1 }
  else s

/-- A write to `FAIL_R`: bits 3:0 not 0 raise that fatal code; code 0 is ignored (10_state.md R46). -/
def writeFail (v : BitVec 32) (s : State) : State :=
  let code := v.extractLsb' 0 4
  if code = 0#4 then s else raiseFatal code s

/-- A write at an offset; read-only registers and unmapped offsets ignore it (10_state.md R37, 20_memory.md R73). -/
def regWrite (off v : BitVec 32) (s : State) : State :=
  match off.toNat with
  | 0x00 => writeCtrl v s
  | 0x1C => { s with audStep := v }
  | 0x20 => writeFail v s
  | _ => s

/-- A host access has a meaning where it is 32 bits wide at a multiple of 4 (20_memory.md R72). -/
def regAligned (off : BitVec 32) (bytes : Nat) : Bool := decide (bytes = 4 ∧ off.toNat % 4 = 0)

/-- A host read: its value goes to the host; a malformed read returns 0 (20_memory.md R72, log 13). -/
def hostRead (off : BitVec 32) (bytes : Nat) (s : State) : State :=
  { s with hostData := if regAligned off bytes then regRead s off else 0#32 }

/-- A host write; a malformed write is ignored (20_memory.md R72, log 13). -/
def hostWrite (off : BitVec 32) (bytes : Nat) (v : BitVec 32) (s : State) : State :=
  if regAligned off bytes then regWrite off v s else s

end Sys2Proof.Machine
end

