-- ==== Sys2Proof/Machine/Operands.lean ====
section
/-! DEFINITION. The addressing modes: direct, clamp, clip, block fill, table lookup (20_memory.md R67 to R69,
43_gen_fractal_plasma_checker.md R174, 45_compositor_handoff.md R235), and the check of Context A's position. -/

namespace Sys2Proof.Machine

/-- The address of cell (`y`, `x`), `y * W + x` (10_state.md R48). -/
def cellAddr (c : Cfg) (y x : Nat) : Nat := y * c.W + x

/-- `clampY`, `clampX` (20_memory.md R67). -/
def clampTo (n : Nat) (v : Int) : Nat := (min (max v 0) ((n : Int) - 1)).toNat

/-- The address of a clamped access (20_memory.md R67). -/
def clampAddr (c : Cfg) (y x : Int) : Nat := cellAddr c (clampTo c.H y) (clampTo c.W x)

/-- A clipped access is on the grid (20_memory.md R68). -/
def onGrid (c : Cfg) (y x : Int) : Bool := decide (0 ≤ y ∧ y < c.H ∧ 0 ≤ x ∧ x < c.W)

/-- A clipped write (20_memory.md R68). -/
def clipWrite (c : Cfg) (m : Memory 8) (y x : Int) (v : Byte) : Memory 8 :=
  if onGrid c y x then Memory.write m (cellAddr c y.toNat x.toNat) v else m

/-- One value written, clipped, to a list of points (y, x) in order. -/
def clipWrites (c : Cfg) (v : Byte) (pts : List (Int × Int)) (m : Memory 8) : Memory 8 :=
  pts.foldl (fun m p => clipWrite c m p.1 p.2 v) m

/-- The points of a `k` by `k` block with corner (`y`, `x`), row by row. -/
def blockPoints (y x : Int) (k : Nat) : List (Int × Int) :=
  (List.range k).flatMap fun (dy : Nat) => (List.range k).map fun (dx : Nat) => (y + (dy : Int), x + (dx : Int))

/-- `BLOCK_FILL(L, y, x, k, v)` (43_gen_fractal_plasma_checker.md R174). -/
def blockFill (c : Cfg) (m : Memory 8) (y x : Int) (k : Nat) (v : Byte) : Memory 8 :=
  clipWrites c v (blockPoints y x k) m

/-- `LUT(i) = min(i, 254)` (45_compositor_handoff.md R235). -/
def lut (i : Byte) : Nat := min i.toNat 254

/-- The palette word of an intensity in a palette (20_memory.md R63, R69). -/
def palLookup (m : Memory 32) (p : Nat) (i : Byte) : Color := Memory.read m (p * 256 + lut i)

/-- The position of Context A lies on the grid, where the generated row is defined (41_sequencer.md R125, 20_memory.md R69). -/
def positionOk (s : State) : Bool := decide (s.scan.toNat < s.cfg.H ∧ s.col.toNat < s.cfg.W)

/-- The first dispatch of a frame, `SCAN = 0` and `COL = 0` (44_gen_wireframe_text.md R190). -/
def firstDispatch (s : State) : Bool := decide (s.scan = 0#13 ∧ s.col = 0#13)

/-- An operation at the dispatch coordinates; a position outside the grid addresses no cell (20_memory.md R61, log 17). -/
def atPosition (s : State) (f : State → State) : Host.Outcome State Fault Refusal :=
  if positionOk s then .next (f s) else .fault .outsideAddressSpace

/-- The Background with a function of it applied, at the dispatch coordinates. -/
def onBackground (f : Cfg → Nat → Nat → Memory 8 → Memory 8) (s : State) : State :=
  { s with bg := f s.cfg (genRow s) s.col.toNat s.bg }

end Sys2Proof.Machine
end

