-- ==== Sys2Proof/Machine/Automaton.lean ====
section
/-! DEFINITION. The thermal/fluid cellular automaton (42_gen_automaton.md R145 to R154). A transfer works on addresses
that are already clamped; a value is a cell's natural number, computed exactly and bounded before the store (R155). -/

namespace Sys2Proof.Machine

/-- A cell's intensity. -/
def cell (m : Memory 8) (a : Nat) : Nat := (Memory.read m a).toNat

/-- A cell stored. Every caller's value is at most 255 (42_gen_automaton.md R153). -/
def setCell (m : Memory 8) (a v : Nat) : Memory 8 := Memory.write m a (BitVec.ofNat 8 v)

/-- The forcing classes (30_encoding.md R96). -/
inductive Forcing where
  | ambient | seed | noforce
  deriving DecidableEq, Repr

/-- The forcing class of an Effect (30_encoding.md R96). -/
def forcingClass : Effect → Forcing
  | .water | .acid => .ambient
  | .fireA | .fireB | .fireC => .seed
  | .start | .wireframeA | .fractal | .theEnd => .noforce

/-- The convection direction: +1 for ACID, -1 for every other Effect (30_encoding.md R96). -/
def direction : Effect → Int
  | .acid => 1
  | .start | .water | .wireframeA | .fireA | .fractal | .fireB | .fireC | .theEnd => -1

/-- `NBR`, row-major without the centre (42_gen_automaton.md R146). -/
def nbr : List (Int × Int) := [(-1, -1), (-1, 0), (-1, 1), (0, -1), (0, 1), (1, -1), (1, 0), (1, 1)]

/-- The addresses of the eight clamped neighbours, in order (42_gen_automaton.md R146). -/
def nbrAddrs (c : Cfg) (y x : Nat) : List Nat := nbr.map fun d => clampAddr c (y + d.1) (x + d.2)

/-- `XFER(src, dst, req)`; the second cell is read after the first write (42_gen_automaton.md R147). -/
def xfer (m : Memory 8) (src dst req : Nat) : Memory 8 :=
  let t := min req (min (cell m src) (255 - cell m dst))
  let m' := setCell m src (cell m src - t)
  setCell m' dst (cell m' dst + t)

/-- `FORCING` (42_gen_automaton.md R148). -/
def forcing (c : Cfg) (e : Effect) (f y x : Nat) (m : Memory 8) : Memory 8 :=
  let a := cellAddr c y x
  match forcingClass e with
  | .ambient => if f % 2 = 0 then setCell m a (min (cell m a + c.ambientAmt) 255) else m
  | .seed => if y = c.H - 1 then setCell m a 255 else m
  | .noforce => m

/-- The first least cell of a list of addresses, from a value and address found so far (42_gen_automaton.md R149). -/
def firstMin (m : Memory 8) : Nat × Option Nat → List Nat → Nat × Option Nat
  | best, [] => best
  | best, a :: t => firstMin m (if cell m a < best.1 then (cell m a, some a) else best) t

/-- `DIFFUSE` (42_gen_automaton.md R149). -/
def diffuse (c : Cfg) (y x : Nat) (m : Memory 8) : Memory 8 :=
  let a := cellAddr c y x
  let self := cell m a
  match firstMin m (256, none) (nbrAddrs c y x) with
  | (least, some tgt) =>
    if least < self then
      let t := min (self / 2) (255 - least)
      setCell (setCell m a (self - t)) tgt (least + t)
    else m
  | (_, none) => m

/-- `COOL` (42_gen_automaton.md R150). -/
def cool (c : Cfg) (y x : Nat) (m : Memory 8) : Memory 8 :=
  let a := cellAddr c y x
  let avg := ((nbrAddrs c y x).map (cell m)).sum / 8
  if avg < cell m a then setCell m a (cell m a - 1) else m

/-- `TH_CONV1` and `TH_CONV2` (00_scope.md R9). -/
def thConv1 : Nat := 32
def thConv2 : Nat := 128

/-- `CONVECT`; both thresholds are tested on the one sample `v` (42_gen_automaton.md R151). -/
def convect (c : Cfg) (e : Effect) (y x : Nat) (m : Memory 8) : Memory 8 :=
  let d := direction e
  let a := cellAddr c y x
  let n1 := clampAddr c (y + d) x
  let n2 := clampAddr c (y + 2 * d) x
  let s1 := clampAddr c (y - d) x
  let v := cell m a
  let m1 := if thConv1 < v then xfer m a n1 (conv1 c v) else m
  if thConv2 < v then
    let m2 := xfer m1 a n2 (conv2 c v)
    xfer m2 s1 n2 (conv3 c (cell m2 s1))
  else m1

/-- `BG_AUTOMATON(e, f, y, x)` (42_gen_automaton.md R145). -/
def automaton (e : Effect) (f : Nat) (c : Cfg) (y x : Nat) (m : Memory 8) : Memory 8 :=
  convect c e y x (cool c y x (diffuse c y x (forcing c e f y x m)))

end Sys2Proof.Machine
end

