-- ==== Sys2Proof/Machine/Pattern.lean ====
section
/-! DEFINITION. The escape-time fractal, the plasma and the checkerboard (43_gen_fractal_plasma_checker.md). -/

namespace Sys2Proof.Machine

/-! ### Escape-time fractal -/

/-- `FR_MAXIT` and `FR_ESC` (00_scope.md R9). -/
def frMaxIt : Nat := 32
def frEsc : F32 := 0x3FC00000#32

/-- The frame-relative offset `t = f - FR_T0` (43_gen_fractal_plasma_checker.md R167). -/
def frOffset (c : Cfg) (f : Nat) : Int := (f : Int) - (frT0 c : Int)

/-- `FR_PARAM(f)` (43_gen_fractal_plasma_checker.md R167). -/
def frParam (c : Cfg) (f : Nat) : F32 × F32 :=
  (c.frCre, f32Add c.frCim0 (f32Mul c.frCimRate (f32OfInt (frOffset c f))))

/-- `FR_START(f, y, x)` (43_gen_fractal_plasma_checker.md R168). -/
def frStart (c : Cfg) (f y x : Nat) : F32 × F32 :=
  let t := frOffset c f
  (f32Mul (f32Sub (f32OfNat x) (f32Div (f32OfNat c.W) 0x40000000#32)) (sweepAt c.frSx t),
   f32Mul (f32Sub (f32OfNat y) (f32Div (f32OfNat c.H) 0x40000000#32)) (sweepAt c.frSy t))

/-- The escape-time loop with a number of iterations left; it answers the updates performed (43_gen_fractal_plasma_checker.md R169). -/
def frLoop (cr ci : F32) : Nat → F32 → F32 → Nat
  | 0, _, _ => 0
  | left + 1, zr, zi =>
    if f32Gt (f32Add (f32Mul zr zr) (f32Mul zi zi)) frEsc then 0
    else
      1 + frLoop cr ci left (f32Add (f32Sub (f32Mul zr zr) (f32Mul zi zi)) cr)
        (f32Add (f32Mul (f32Mul 0x40000000#32 zr) zi) ci)

/-- `FR_ITER(zr, zi, cr, ci)` (43_gen_fractal_plasma_checker.md R169). -/
def frIter (zr zi cr ci : F32) : Nat := frLoop cr ci frMaxIt zr zi

/-- The pixel's intensity `(32 - n) * 2` (43_gen_fractal_plasma_checker.md R165, R170). -/
def frValue (c : Cfg) (f y x : Nat) : Nat :=
  (frMaxIt - frIter (frStart c f y x).1 (frStart c f y x).2 (frParam c f).1 (frParam c f).2) * 2

/-- `BG_FRACTAL(f, y, x)` (43_gen_fractal_plasma_checker.md R165, R166). -/
def fractalUnit (f : Nat) (c : Cfg) (y x : Nat) (m : Memory 8) : Memory 8 :=
  if y % 2 = 0 ∧ x % 2 = 0 then blockFill c m y x 2 (BitVec.ofNat 8 (frValue c f y x)) else m

/-! ### Plasma -/

/-- `sat8` of the conversion to an integer; of a NaN it is 0 (43_gen_fractal_plasma_checker.md R178). -/
def sat8 (x : F32) : Nat := if f32IsNaN x then 0 else (min (max (f32Trunc x) 0) 255).toNat

/-- One colour channel: `sat8(trunc((v + 1.0) * 127.5))` (43_gen_fractal_plasma_checker.md R178). -/
def channel (v : F32) : Nat := sat8 (f32Mul (f32Add v 0x3F800000#32) 0x42FF0000#32)

/-- The sum of the three trigonometric terms (43_gen_fractal_plasma_checker.md R178). -/
def plasmaSum (c : Cfg) (f y x : Nat) : F32 :=
  let k : F32 := 0x41200000#32
  let u := f32Div (f32OfNat x) (f32OfNat c.W)
  let w := f32Div (f32OfNat y) (f32OfNat c.H)
  let ph := f32Mul (f32OfNat f) 0x3D800000#32
  f32Add (f32Add (fSin c (f32Add (f32Mul u k) ph)) (fSin c (f32Add (f32Mul w k) ph)))
    (fSin c (f32Add (f32Mul (f32Add u w) k) ph))

/-- The default `PLASMA_VAL` (43_gen_fractal_plasma_checker.md R178). -/
def plasmaDefault (c : Cfg) (f y x : Nat) : Nat :=
  let a := f32Mul (plasmaSum c f y x) 0x40490FDB#32
  (channel (fSin c a) + channel (fCos c a)) % 255

/-- `PLASMA_VAL(f, y, x)` (43_gen_fractal_plasma_checker.md R177, R178). -/
def plasmaVal (c : Cfg) (f y x : Nat) : Nat := override c.plasmaOv (fun k => plasmaDefault c k.1 k.2.1 k.2.2) (f, y, x)

/-- `BG_PLASMA(f, y, x)` (43_gen_fractal_plasma_checker.md R175, R176). -/
def plasmaUnit (f : Nat) (c : Cfg) (y x : Nat) (m : Memory 8) : Memory 8 :=
  if y % 4 = 0 ∧ x % 4 = 0 then blockFill c m y x 4 (BitVec.ofNat 8 (plasmaVal c f y x)) else m

/-! ### Checkerboard -/

/-- `(k - 1) mod 256` with `k = (y + h) XOR (x + h)`, `h = f div 2` (43_gen_fractal_plasma_checker.md R184). -/
def checkerValue (f y x : Nat) : Byte := BitVec.ofInt 8 ((((y + f / 2) ^^^ (x + f / 2) : Nat) : Int) - 1)

/-- `BG_CHECKER(f, y, x)` (43_gen_fractal_plasma_checker.md R184). -/
def checkerUnit (f : Nat) (c : Cfg) (y x : Nat) (m : Memory 8) : Memory 8 :=
  Memory.write m (cellAddr c y x) (checkerValue f y x)

end Sys2Proof.Machine
end

