-- ==== Sys2Proof/Machine/Background.lean ====
section
/-! DEFINITION. The background units and the meanings of the five `BGSEL` rows. The Effect code that the automaton needs is
the `OP` of the word, which is `EFFECT` for a fetched word (30_encoding.md R103, log 16). -/

namespace Sys2Proof.Machine

/-- The background unit that a descriptor selects, at the dispatch coordinates (45_compositor_handoff.md R231). -/
def bgUnit (sel : BgSel) (e : Effect) (s : State) : State :=
  match sel with
  | .none => s
  | .automaton => onBackground (automaton e s.frame.toNat) s
  | .fractal => onBackground (fractalUnit s.frame.toNat) s
  | .plasma => onBackground (plasmaUnit s.frame.toNat) s
  | .checker => onBackground (checkerUnit s.frame.toNat) s

/-- `BG_NONE`: no cell of BG is read or written (45_compositor_handoff.md R232). -/
def execBgNone (a : BgArgs) (s : State) : Host.Outcome State Fault Refusal := .next (bgUnit .none a.op s)

/-- `BG_AUTOMATON` (42_gen_automaton.md R145). -/
def execBgAutomaton (a : BgArgs) (s : State) : Host.Outcome State Fault Refusal := atPosition s (bgUnit .automaton a.op)

/-- `BG_FRACTAL` (43_gen_fractal_plasma_checker.md R165). -/
def execBgFractal (a : BgArgs) (s : State) : Host.Outcome State Fault Refusal := atPosition s (bgUnit .fractal a.op)

/-- `BG_PLASMA` (43_gen_fractal_plasma_checker.md R175). -/
def execBgPlasma (a : BgArgs) (s : State) : Host.Outcome State Fault Refusal := atPosition s (bgUnit .plasma a.op)

/-- `BG_CHECKER` (43_gen_fractal_plasma_checker.md R184). -/
def execBgChecker (a : BgArgs) (s : State) : Host.Outcome State Fault Refusal := atPosition s (bgUnit .checker a.op)

end Sys2Proof.Machine
end

