-- ==== Sys2Proof/Machine/Builders.lean ====
section
/-! DEFINITION. The table builders `PAL_BUILD` and `GEO_BUILD` (40_table_builders.md R110 to R118). -/

namespace Sys2Proof.Machine

/-! ### Palettes -/

/-- `RAMP(c0, c1, i0, i1, i)` (40_table_builders.md R114). Its operands have `c1 >= c0` and `i >= i0` (R112, R156). -/
def ramp (c0 c1 i0 i1 i : Nat) : Nat :=
  if i1 = i0 then c0 else c0 + ((c1 - c0) * (i - i0)) / (i1 - i0)

/-- The colour word a segment gives to an index (40_table_builders.md R111). -/
def segColor (c : Cfg) (s : Seg) (i : Nat) : Color :=
  pack c (ramp s.r0 s.r1 s.i0 s.i1 i) (ramp s.g0 s.g1 s.i0 s.i1 i) (ramp s.b0 s.b1 s.i0 s.i1 i)

/-- The entries `seg.i0 .. seg.i1` of palette `p`, in order. -/
def segEntries (c : Cfg) (p : Nat) (s : Seg) : List (Nat × Color) :=
  (List.range (s.i1 + 1 - s.i0)).map fun j => (p * 256 + (s.i0 + j), segColor c s (s.i0 + j))

/-- The entries of palette `p`, in the order the builder writes them (40_table_builders.md R111). -/
def palEntries (c : Cfg) (p : Nat) : List (Nat × Color) := (c.palSeed[p]?.getD []).flatMap (segEntries c p)

/-- Entries written in order. -/
def writeAll {w : Nat} (es : List (Nat × BitVec w)) (m : Memory w) : Memory w :=
  es.foldl (fun m e => Memory.write m e.1 e.2) m

/-- `PAL_BUILD` (40_table_builders.md R111). -/
def palBuild (c : Cfg) (m : Memory 32) : Memory 32 := writeAll ((List.range 6).flatMap (palEntries c)) m

/-! ### Geometry (20_memory.md R64): word (shape, triangle, vertex, component) -/

/-- A vertex `(x, y, z)` (10_state.md R52). -/
abbrev Vertex := F32 × F32 × F32

/-- The first word of a shape: the cube has 12 triangles of 9 words, the gem 10. -/
def shapeBase (gem : Bool) : Nat := if gem then 108 else 0

/-- The triangles of a shape. -/
def shapeTriangles (gem : Bool) : Nat := if gem then 10 else 12

/-- The word index of component 0 of a vertex. -/
def geoAddr (gem : Bool) (tri v : Nat) : Nat := shapeBase gem + tri * 9 + v * 3

/-- The vertices of `GEO.CUBE`, three a triangle: each component is `+S` (`true`) or `-S` (40_table_builders.md R117). -/
def cubeSigns : List (Bool × Bool × Bool) :=
  [(false, false, false), (false, true, false), (true, true, false),
   (false, false, false), (true, true, false), (true, false, false),
   (true, false, false), (true, true, false), (true, true, true),
   (true, false, false), (true, true, true), (true, false, true),
   (true, false, true), (true, true, true), (false, true, true),
   (true, false, true), (false, true, true), (false, false, true),
   (false, false, true), (false, true, true), (false, true, false),
   (false, false, true), (false, true, false), (false, false, false),
   (false, true, false), (false, true, true), (true, true, true),
   (false, true, false), (true, true, true), (true, true, false),
   (true, false, true), (false, false, true), (false, false, false),
   (true, false, true), (false, false, false), (true, false, false)]

/-- One cube coordinate: `S` or `-S`. -/
def cubeCoord (c : Cfg) (plus : Bool) : F32 := if plus then c.geoCubeS else f32Negate c.geoCubeS

/-- The vertices of `GEO.CUBE` in table order (40_table_builders.md R117). -/
def cubeVertices (c : Cfg) : List Vertex :=
  cubeSigns.map fun s => (cubeCoord c s.1, cubeCoord c s.2.1, cubeCoord c s.2.2)

/-- `ANG5`, the binary32 constant nearest to 2*pi/5 (40_table_builders.md R118). -/
def ang5 : F32 := 0x3FA0D97C#32

/-- The pentagon's vertex `P_k` (40_table_builders.md R118). -/
def gemCorner (c : Cfg) (k : Nat) : Vertex :=
  let a := f32Mul (f32OfNat k) ang5
  (f32Mul c.geoGemR (fCos c a), 0#32, f32Mul c.geoGemR (fSin c a))

/-- The upper apex `T` and the lower apex `U` (40_table_builders.md R118). -/
def gemTop (c : Cfg) : Vertex := (0#32, c.geoGemA, 0#32)
def gemBottom (c : Cfg) : Vertex := (0#32, f32Sub 0#32 c.geoGemA, 0#32)

/-- The vertices of `GEO.GEM` in table order (40_table_builders.md R118). -/
def gemVertices (c : Cfg) : List Vertex :=
  ((List.range 5).flatMap fun k => [gemTop c, gemCorner c k, gemCorner c ((k + 1) % 5)]) ++
  ((List.range 5).flatMap fun k => [gemBottom c, gemCorner c ((k + 1) % 5), gemCorner c k])

/-- Vertices as consecutive words from an index on. -/
def vertexEntries (base : Nat) : List Vertex → List (Nat × F32)
  | [] => []
  | v :: t => (base, v.1) :: (base + 1, v.2.1) :: (base + 2, v.2.2) :: vertexEntries (base + 3) t

/-- `GEO_BUILD` (40_table_builders.md R116): the cube, then the gem. -/
def geoBuild (c : Cfg) (m : Memory 32) : Memory 32 :=
  writeAll (vertexEntries (shapeBase true) (gemVertices c)) (writeAll (vertexEntries (shapeBase false) (cubeVertices c)) m)

/-- The vertex that `GEO` holds. -/
def geoVertex (m : Memory 32) (gem : Bool) (tri v : Nat) : Vertex :=
  let a := geoAddr gem tri v
  (Memory.read m a, Memory.read m (a + 1), Memory.read m (a + 2))

/-- Both builders, then `TBL_RDY <- 1` (40_table_builders.md R110); R342 lets a model take them as one step (log 15). -/
def buildTables (s : State) : State :=
  { s with pal := palBuild s.cfg s.pal, geo := geoBuild s.cfg s.geo, tblRdy := true }

end Sys2Proof.Machine
end

