-- ==== Sys2Proof/Machine/Wire.lean ====
section
/-! DEFINITION. The wire unit: fade, projector, line rasteriser (44_gen_wireframe_text.md R190 to R210). -/

namespace Sys2Proof.Machine

/-- A cell shifted right, rounding down. -/
def halveCell (v : Byte) : Byte := v >>> 1

/-- `FG_FADE`: every Foreground cell halved (44_gen_wireframe_text.md R194). -/
def fgFade (c : Cfg) (m : Memory 8) : Memory 8 := Memory.sweep halveCell (c.H * c.W) m

/-- `TOINT(s)`: saturated to -32768..32767 and truncated; a NaN gives 0 (44_gen_wireframe_text.md R201). -/
def toInt (s : F32) : Int :=
  if f32IsNaN s then 0
  else
    let lo : F32 := if f32Gt 0xC7000000#32 s then 0xC7000000#32 else s
    f32Trunc (if f32Gt lo 0x46FFFE00#32 then 0x46FFFE00#32 else lo)

/-- One coordinate of the row vector `[x y z 1]` times `PROJ`, in the association of 44_gen_wireframe_text.md R195. -/
def projDot (c : Cfg) (col : Nat) (x y z : F32) : F32 :=
  f32Add (f32Add (f32Add (f32Mul x (projAt c 0 col)) (f32Mul y (projAt c 1 col))) (f32Mul z (projAt c 2 col))) (projAt c 3 col)

/-- The rotation angle `th = f32(f) / 8.0` (44_gen_wireframe_text.md R195). -/
def wireAngle (f : Nat) : F32 := f32Div (f32OfNat f) 0x41000000#32

/-- The vertex rotated about x, then about y, by an angle of sine `sn` and cosine `cs`, and moved to view depth
(44_gen_wireframe_text.md R195, R197). -/
def viewPoint (c : Cfg) (v : Vertex) (sn cs : F32) : Vertex :=
  let y1 := f32Sub (f32Mul v.2.1 cs) (f32Mul v.2.2 sn)
  let z1 := f32Add (f32Mul v.2.1 sn) (f32Mul v.2.2 cs)
  let x2 := f32Add (f32Mul v.1 cs) (f32Mul z1 sn)
  let z2 := f32Sub (f32Mul z1 cs) (f32Mul v.1 sn)
  (x2, y1, f32Add z2 c.wireDepth)

/-- The homogeneous divide, performed only where `abs(pw) > W_EPS` (44_gen_wireframe_text.md R198). -/
def guardedDiv (c : Cfg) (p pw : F32) : F32 := if f32Gt (f32Abs pw) c.wEps then f32Div p pw else p

/-- A projected coordinate to screen space over `n` pixels (44_gen_wireframe_text.md R199). -/
def toScreen (n : Nat) (p : F32) : F32 := f32Mul (f32Add p 0x3F800000#32) (f32Mul 0x3F000000#32 (f32OfNat n))

/-- `PROJECT(v, f)`: the integer screen point (ix, iy) (44_gen_wireframe_text.md R195, R200). -/
def project (c : Cfg) (v : Vertex) (f : Nat) : Int × Int :=
  let th := wireAngle f
  let p := viewPoint c v (fSin c th) (fCos c th)
  let pw := projDot c 3 p.1 p.2.1 p.2.2
  let px := guardedDiv c (projDot c 0 p.1 p.2.1 p.2.2) pw
  let py := guardedDiv c (projDot c 1 p.1 p.2.1 p.2.2) pw
  let sx := f32Add (toScreen c.W px) (f32Mul c.lissAx (fSin c (f32Mul th c.lissKx)))
  let sy := f32Add (toScreen c.H py) (f32Mul c.lissAy (fCos c (f32Mul th c.lissKy)))
  (toInt sx, toInt sy)

/-- The walk of `LINE` with a number of moves left: the points (x, y) in plotting order. `dx`, `dy`, `sx`, `sy` are the
rule's (44_gen_wireframe_text.md R203). -/
def lineWalk (x1 y1 dx dy sx sy : Int) : Nat → Int → Int → Int → List (Int × Int)
  | 0, x0, y0, _ => [(x0, y0)]
  | left + 1, x0, y0, err =>
    if x0 = x1 ∧ y0 = y1 then [(x0, y0)]
    else
      let e2 := 2 * err
      let goX := decide (dy ≤ e2)
      let goY := decide (e2 ≤ dx)
      (x0, y0) ::
        lineWalk x1 y1 dx dy sx sy left (if goX then x0 + sx else x0) (if goY then y0 + sy else y0)
          (err + (if goX then dy else 0) + (if goY then dx else 0))

/-- The points of `LINE((x0, y0), (x1, y1), v)`, first to last; the walk makes `max(abs(x1 - x0), abs(y1 - y0))` moves
(44_gen_wireframe_text.md R203). -/
def linePoints (p q : Int × Int) : List (Int × Int) :=
  let ax := (q.1 - p.1).natAbs
  let ay := (q.2 - p.2).natAbs
  lineWalk q.1 q.2 ax (-(ay : Int)) (if p.1 < q.1 then 1 else -1) (if p.2 < q.2 then 1 else -1) (max ax ay) p.1 p.2
    ((ax : Int) - (ay : Int))

/-- `LINE`: every point written with clip addressing (44_gen_wireframe_text.md R203, R205). -/
def drawLine (c : Cfg) (v : Byte) (p q : Int × Int) (m : Memory 8) : Memory 8 :=
  clipWrites c v ((linePoints p q).map fun p => (p.2, p.1)) m

/-- A triangle's three edges, P0-P1, P1-P2, P2-P0 (44_gen_wireframe_text.md R202). -/
def drawTriangle (c : Cfg) (geo : Memory 32) (gem : Bool) (f tri : Nat) (m : Memory 8) : Memory 8 :=
  let p0 := project c (geoVertex geo gem tri 0) f
  let p1 := project c (geoVertex geo gem tri 1) f
  let p2 := project c (geoVertex geo gem tri 2) f
  drawLine c c.wireInt p2 p0 (drawLine c c.wireInt p1 p2 (drawLine c c.wireInt p0 p1 m))

/-- The redraw of a shape, its triangles in table order (44_gen_wireframe_text.md R190). -/
def drawShape (c : Cfg) (geo : Memory 32) (gem : Bool) (f : Nat) (m : Memory 8) : Memory 8 :=
  (List.range (shapeTriangles gem)).foldl (fun m tri => drawTriangle c geo gem f tri m) m

/-- The fade and the redraw at the first dispatch of a frame, nothing at any other (44_gen_wireframe_text.md R190). -/
def wireRedraw (gem : Bool) (s : State) : State :=
  if firstDispatch s then { s with fg := drawShape s.cfg s.geo gem s.frame.toNat (fgFade s.cfg s.fg) } else s

/-- `WIRE(sel, f, first)` (44_gen_wireframe_text.md R190 to R193). -/
def wireUnit (sel : WireSel) (s : State) : State :=
  match sel with
  | .none => s
  | .cube => wireRedraw false s
  | .gem => wireRedraw true s

end Sys2Proof.Machine
end

