-- ==== Sys2Proof/Machine/Foreground.lean ====
section
/-! DEFINITION. The meanings of the three `WIRESEL` rows (44_gen_wireframe_text.md R191 to R193). -/

namespace Sys2Proof.Machine

/-- `WIRE_NONE` (44_gen_wireframe_text.md R191). -/
def execWireNone (_a : WireArgs) (s : State) : Host.Outcome State Fault Refusal := .next (wireUnit .none s)

/-- `WIRE_CUBE` (44_gen_wireframe_text.md R192). -/
def execWireCube (_a : WireArgs) (s : State) : Host.Outcome State Fault Refusal := .next (wireUnit .cube s)

/-- `WIRE_GEM` (44_gen_wireframe_text.md R193). -/
def execWireGem (_a : WireArgs) (s : State) : Host.Outcome State Fault Refusal := .next (wireUnit .gem s)

end Sys2Proof.Machine
end

