-- ==== Sys2Proof/Machine/Sequencer.lean ====
section
/-! DEFINITION. The frame and effect sequencer: `LAYER_RESET` with its policies, `FRAME_ADV`, `ROW_DONE`, and the meanings of
the three `POLICY` rows (41_sequencer.md R126 to R140). -/

namespace Sys2Proof.Machine

/-- What a policy makes of one Background cell (41_sequencer.md R135 to R137). -/
def policyCell (p : Policy) (v : Byte) : Byte :=
  match p with
  | .clear => 0#8
  | .halve => v >>> 1
  | .quarter => v >>> 2

/-- `LAYER_RESET(policy)`: the policy over the Background, a full clear of the Foreground (41_sequencer.md R130). -/
def layerReset (p : Policy) (s : State) : State :=
  { s with
    bg := Memory.sweep (policyCell p) (s.cfg.H * s.cfg.W) s.bg
    fg := Memory.sweep (fun _ => 0#8) (s.cfg.H * s.cfg.W) s.fg }

/-- The next Effect code, `min(EFFECT + 1, 8)` (41_sequencer.md R129). -/
def nextEffect (e : BitVec 4) : Nat := min (e.toNat + 1) 8

/-- A transition: the next Effect, its duration and palette, and the outgoing Effect's policy (41_sequencer.md R126, R129). -/
def transition (policy : Policy) (s : State) : State :=
  let n := nextEffect s.effect
  layerReset policy
    { s with effect := BitVec.ofNat 4 n, countdown := durOf s.cfg n, palact := palselOf s.cfg n }

/-- What every frame boundary does: count the frame, count down (floor at zero), return to row 0, set the one-shot flag
(41_sequencer.md R126). -/
def countFrame (s : State) : State :=
  setPrologue { s with frame := s.frame + 1#32, countdown := BitVec.ofNat 16 (s.countdown.toNat - 1), scan := 0#13 }

/-- `FRAME_ADV` acts: the scan position has wrapped and the flag is clear (41_sequencer.md R127). -/
def frameDue (s : State) : Bool := decide (s.scan.toNat = s.cfg.H) && !s.prologueDone

/-- `FRAME_ADV`; `policy` is the current descriptor's, the outgoing Effect's (41_sequencer.md R126). -/
def frameAdv (policy : Policy) (s : State) : State :=
  if frameDue s then countFrame (if s.countdown = 0#16 then transition policy s else s) else s

/-- `ROW_DONE` (41_sequencer.md R134). -/
def rowDone (s : State) : State :=
  let n := s.scan.toNat + 1
  clearPrologue { s with scan := BitVec.ofNat 13 n, phase := if n = s.cfg.H then .boundary else .gen }

/-- `CLEAR` (41_sequencer.md R130, R135). -/
def execClear (_a : PolicyArgs) (s : State) : Host.Outcome State Fault Refusal := .next (layerReset .clear s)

/-- `HALVE` (41_sequencer.md R130, R136). -/
def execHalve (_a : PolicyArgs) (s : State) : Host.Outcome State Fault Refusal := .next (layerReset .halve s)

/-- `QUARTER` (41_sequencer.md R130, R137). -/
def execQuarter (_a : PolicyArgs) (s : State) : Host.Outcome State Fault Refusal := .next (layerReset .quarter s)

end Sys2Proof.Machine
end

