-- ==== Sys2Proof/Machine/Text.lean ====
section
/-! DEFINITION. The text unit (44_gen_wireframe_text.md R220 to R226). -/

namespace Sys2Proof.Machine

/-- `ACTIVE(ev, e, f)` (44_gen_wireframe_text.md R221). -/
def eventActive (ev : TextEvent) (e : Effect) (f : Nat) : Bool :=
  match ev.kind with
  | .window f0 f1 => decide (f0 ≤ f ∧ f < f1)
  | .terminal => decide (e = .theEnd)

/-- Cell (`r`, `c`) of a glyph is bit `14 - (3 * r + c)` of its mask (44_gen_wireframe_text.md R225). -/
def glyphBit (mask : BitVec 15) (r c : Nat) : Bool := mask.getLsbD (14 - (3 * r + c))

/-- The points (y, x) that `GLYPH_BLIT(mask, x0, y0, scale, inten)` writes, in order (44_gen_wireframe_text.md R224). -/
def glyphPoints (mask : BitVec 15) (x0 y0 : Int) (scale : Nat) : List (Int × Int) :=
  (List.range 5).flatMap fun r => (List.range 3).flatMap fun c =>
    if glyphBit mask r c then blockPoints (y0 + ((r * scale : Nat) : Int)) (x0 + ((c * scale : Nat) : Int)) scale else []

/-- `GLYPH_BLIT`: set cells overwrite, clear cells leave what is there (44_gen_wireframe_text.md R224). -/
def glyphBlit (c : Cfg) (mask : BitVec 15) (x0 y0 : Int) (scale : Nat) (inten : Byte) (m : Memory 8) : Memory 8 :=
  clipWrites c inten (glyphPoints mask x0 y0 scale) m

/-- `DRAW_STRING` from a pen position on (44_gen_wireframe_text.md R223). -/
def drawChars (c : Cfg) (ev : TextEvent) : List Char → Int → Int → Memory 8 → Memory 8
  | [], _, _, m => m
  | ch :: t, cx, cy, m =>
    if ch = '\n' then drawChars c ev t ev.x (cy + 6 * ev.scale) m
    else drawChars c ev t (cx + 4 * ev.scale) cy (glyphBlit c (fontMask c ch) cx cy ev.scale ev.inten m)

/-- `DRAW_STRING(ev)` (44_gen_wireframe_text.md R223). -/
def drawString (c : Cfg) (m : Memory 8) (ev : TextEvent) : Memory 8 := drawChars c ev ev.str ev.x ev.y m

/-- The active events drawn in list order (44_gen_wireframe_text.md R220, R226). -/
def drawEvents (c : Cfg) (e : Effect) (f : Nat) (m : Memory 8) : Memory 8 :=
  (c.textEvents.filter fun ev => eventActive ev e f).foldl (drawString c) m

/-- `TEXT(e, f, first)` (44_gen_wireframe_text.md R220). -/
def textUnit (e : Effect) (s : State) : State :=
  if firstDispatch s then { s with fg := drawEvents s.cfg e s.frame.toNat s.fg } else s

end Sys2Proof.Machine
end

