-- ==== Sys2Proof/Machine/Compositor.lean ====
section
/-! DEFINITION. `PIX_DISPATCH`, `PIX_MERGE` and one step of Context A's loop (45_compositor_handoff.md R231, R236,
41_sequencer.md R125). -/

namespace Sys2Proof.Machine

/-- `PIX_DISPATCH`: the background unit, then the wire unit, then the text unit (45_compositor_handoff.md R231). -/
def pixDispatch (e : Effect) (a : EffectArgs) (s : State) : State :=
  textUnit e (wireUnit a.wire (bgUnit a.bg e s))

/-- The composite colour of the two layers' values: the OR of the two palette words (45_compositor_handoff.md R236). -/
def mergeColor (s : State) (b g : Byte) : Color :=
  palLookup s.pal s.palact.toNat b ||| palLookup s.pal s.palact.toNat g

/-- `PIX_MERGE` at the dispatch coordinates (45_compositor_handoff.md R236). -/
def pixMerge (s : State) : State :=
  let a := cellAddr s.cfg (genRow s) s.col.toNat
  { s with comp := Memory.write s.comp a (mergeColor s (Memory.read s.bg a) (Memory.read s.fg a)) }

/-- The last column of a row. -/
def lastColumn (s : State) : Bool := decide (s.col.toNat + 1 = s.cfg.W)

/-- After a dispatch: the next column, or column 0 of phase MERGE (41_sequencer.md R125). -/
def afterDispatch (s : State) : State :=
  if lastColumn s then { s with col := 0#13, phase := .merge } else { s with col := s.col + 1#13 }

/-- After a merge: the next column, or the end of the row (41_sequencer.md R125). -/
def afterMerge (s : State) : State :=
  if lastColumn s then rowDone { s with col := 0#13 } else { s with col := s.col + 1#13 }

/-- A merge reads palette `PALACT`; the table has six (20_memory.md R63, log 17). -/
def mergeOk (s : State) : Bool := decide (s.palact.toNat ≤ 5)

/-- One step of Context A under an Effect and its descriptor's fields; none while it is not enabled (41_sequencer.md R125). -/
def contextStep (e : Effect) (a : EffectArgs) (s : State) : Host.Outcome State Fault Refusal :=
  if videoLive s then
    match s.phase with
    | .gen => atPosition s fun s => afterDispatch (pixDispatch e a s)
    | .merge => if mergeOk s then atPosition s fun s => afterMerge (pixMerge s) else .fault .outsideAddressSpace
    | .boundary => .next { frameAdv a.policy s with phase := .gen }
  else .next s

end Sys2Proof.Machine
end

