-- ==== Sys2Proof/Machine/Effects.lean ====
section
/-! DEFINITION. The meanings of the nine Effect rows: one step of Context A with the fields of the descriptor
(45_compositor_handoff.md R243 to R251). -/

namespace Sys2Proof.Machine

/-- `START` (45_compositor_handoff.md R243). -/
def execStart (a : EffectArgs) (s : State) : Host.Outcome State Fault Refusal := contextStep .start a s
/-- `WATER` (45_compositor_handoff.md R244). -/
def execWater (a : EffectArgs) (s : State) : Host.Outcome State Fault Refusal := contextStep .water a s
/-- `ACID` (45_compositor_handoff.md R245). -/
def execAcid (a : EffectArgs) (s : State) : Host.Outcome State Fault Refusal := contextStep .acid a s
/-- `WIREFRAME_A` (45_compositor_handoff.md R246). -/
def execWireframeA (a : EffectArgs) (s : State) : Host.Outcome State Fault Refusal := contextStep .wireframeA a s
/-- `FIRE_A` (45_compositor_handoff.md R247). -/
def execFireA (a : EffectArgs) (s : State) : Host.Outcome State Fault Refusal := contextStep .fireA a s
/-- `FRACTAL` (45_compositor_handoff.md R248). -/
def execFractal (a : EffectArgs) (s : State) : Host.Outcome State Fault Refusal := contextStep .fractal a s
/-- `FIRE_B` (45_compositor_handoff.md R249). -/
def execFireB (a : EffectArgs) (s : State) : Host.Outcome State Fault Refusal := contextStep .fireB a s
/-- `FIRE_C` (45_compositor_handoff.md R250). -/
def execFireC (a : EffectArgs) (s : State) : Host.Outcome State Fault Refusal := contextStep .fireC a s
/-- `END` (45_compositor_handoff.md R251). -/
def execTheEnd (a : EffectArgs) (s : State) : Host.Outcome State Fault Refusal := contextStep .theEnd a s

end Sys2Proof.Machine
end

