-- ==== Sys2Proof/Machine/Ports.lean ====
section
/-! DEFINITION. The two ports: `ROWRD` (45_compositor_handoff.md R240 to R242) and `AUDRD` (46_audio.md R258). A request may be
served whole or word by word, so that the interleavings of 20_memory.md R78 and 46_audio.md R260 exist. -/

namespace Sys2Proof.Machine

/-! ### Row port -/

/-- A request names a row: bits 15:13 are zero and `IDX < H` (30_encoding.md R101, 45_compositor_handoff.md R242). -/
def rowNamed (c : Cfg) (req : BitVec 16) : Bool :=
  decide (req.extractLsb' 13 3 = 0#3 ∧ (req.extractLsb' 0 13).toNat < c.H)

/-- A request is accepted; its words are read by `rowWord`. The latest request's words are what the port shows (log 12). -/
def rowOpen (req : BitVec 16) (s : State) : State := { s with rowReq := some ⟨req, 0⟩, rowReply := [] }

/-- The service after a word: the next column, or none after the last. -/
def rowRest (c : Cfg) (r : RowService) : Option RowService :=
  if r.next + 1 < c.W then some { r with next := r.next + 1 } else none

/-- One word read of the request in service: the colour word that COMP holds now, or, for a request that names no row, a
free value (45_compositor_handoff.md R240, R241, R242). No state of the block changes. -/
def rowWord (s : State) : State :=
  match s.rowReq with
  | none => s
  | some r =>
    if rowNamed s.cfg r.req then
      { s with
        rowReply := s.rowReply ++ [Memory.read s.comp (cellAddr s.cfg (r.req.extractLsb' 0 13).toNat r.next)]
        rowReq := rowRest s.cfg r }
    else
      { s with
        rowReply := s.rowReply ++ [colorOf s.cfg (Config.freeWord s.free)]
        rowReq := rowRest s.cfg r
        free := s.free + 1 }

/-- `n` word reads. -/
def rowWords : Nat → State → State
  | 0, s => s
  | n + 1, s => rowWords n (rowWord s)

/-- `ROWRD idx` answered at once: the request and its `W` word reads (45_compositor_handoff.md R240). -/
def execRowrd (zero : BitVec 3) (idx : BitVec 13) (s : State) : Host.Outcome State Fault Refusal :=
  .next (rowWords s.cfg.W (rowOpen (encodeRow zero idx) s))

/-! ### Audio port -/

/-- A request is accepted after the one in service, if any, has been served to completion (46_audio.md R255); `AUD_EN` and
`HALTED` are sampled here, at the start of the request (46_audio.md R258). What the transport sees of the samples that the new
request forces is left open by the spec (60_exceptions.md R306): here they advance the cursor, and the record `audReply` is
begun anew for the new request, so that no state shows their words. DESIGN CHOICE, log 12. -/
def audioOpen (n : BitVec 16) (s : State) : State :=
  let s := audioFinish s
  { s with audReq := if n = 0#16 then none else some ⟨n.toNat, audioLive s⟩, audReply := [] }

/-- `AUDRD n` answered at once (46_audio.md R258). -/
def execAudrd (n : BitVec 16) (s : State) : Host.Outcome State Fault Refusal := .next (audioFinish (audioOpen n s))

end Sys2Proof.Machine
end

