-- ==== Sys2Proof/Machine/Dispatch.lean ====
section
/-! DEFINITION. One arm per instruction. -/

namespace Sys2Proof.Machine

def exec (i : Instr) (s : State) : Host.Outcome State Fault Refusal :=
  match i with
  | .start a => Sys2Proof.Machine.execStart a s
  | .water a => Sys2Proof.Machine.execWater a s
  | .acid a => Sys2Proof.Machine.execAcid a s
  | .wireframeA a => Sys2Proof.Machine.execWireframeA a s
  | .fireA a => Sys2Proof.Machine.execFireA a s
  | .fractal a => Sys2Proof.Machine.execFractal a s
  | .fireB a => Sys2Proof.Machine.execFireB a s
  | .fireC a => Sys2Proof.Machine.execFireC a s
  | .theEnd a => Sys2Proof.Machine.execTheEnd a s
  | .bgNone a => Sys2Proof.Machine.execBgNone a s
  | .bgAutomaton a => Sys2Proof.Machine.execBgAutomaton a s
  | .bgFractal a => Sys2Proof.Machine.execBgFractal a s
  | .bgPlasma a => Sys2Proof.Machine.execBgPlasma a s
  | .bgChecker a => Sys2Proof.Machine.execBgChecker a s
  | .wireNone a => Sys2Proof.Machine.execWireNone a s
  | .wireCube a => Sys2Proof.Machine.execWireCube a s
  | .wireGem a => Sys2Proof.Machine.execWireGem a s
  | .clear a => Sys2Proof.Machine.execClear a s
  | .halve a => Sys2Proof.Machine.execHalve a s
  | .quarter a => Sys2Proof.Machine.execQuarter a s
  | .rowrd zero idx => Sys2Proof.Machine.execRowrd zero idx s
  | .audrd n => Sys2Proof.Machine.execAudrd n s

end Sys2Proof.Machine
end

