-- ==== Sys2Proof/Machine/Agents.lean ====
section
/-! DEFINITION. Fetching the current descriptor, and what each agent and each outside event does in one step
(60_exceptions.md R306 to R308, R324; 70_reset_and_hazards.md R342). -/

namespace Sys2Proof.Machine

/-- The instruction Context A runs: the Effect row of `EDR[EFFECT]`, whose `OP` must be its index. A ROM has nine words
(10_state.md R24, 30_encoding.md R92, R97). -/
def fetch (s : State) : Option Instr :=
  match decodeDescr (edrWord s.cfg s.effect.toNat) with
  | .ok d => if d.op.code = s.effect then some (effectRow d) else none
  | .rejected _ => none

/-- A step of Context A: none while it is not enabled (41_sequencer.md R125); an ill-formed word is refused (30_encoding.md R97). -/
def contextA (s : State) : Host.Outcome State Fault Refusal :=
  if videoLive s then
    match fetch s with
    | some i => exec i s
    | none => .refused .illFormedDescriptor
  else .next s

/-- The builders may run: they have not, and the block is not halted (40_table_builders.md R110, 60_exceptions.md R303). -/
def buildDue (s : State) : Bool := !s.tblRdy && !s.halted

/-- The table build, once (40_table_builders.md R110). -/
def build (s : State) : State := if buildDue s then buildTables s else s

/-- The configuration is accepted: the tables have been built from it, or it meets every constraint of 00_scope.md R9. No step
changes the configuration, so the check is made until the tables are built and a run from reset never outlives it (log 14). -/
def cfgAccepted (s : State) : Bool := s.tblRdy || cfgWf s.cfg

/-- What an event does. -/
def serve (e : Event) (s : State) : Host.Outcome State Fault Refusal :=
  match e with
  | .contextA => contextA s
  | .build => .next (build s)
  | .rowRequest w => exec (decodeRowPort w) s
  | .rowOpen w => .next (rowOpen w s)
  | .rowWord => .next (rowWord s)
  | .audioRequest w => exec (decodeAudioPort w) s
  | .audioOpen w => .next (audioOpen w s)
  | .audioSample => .next (audioSample s)
  | .hostRead off bytes => .next (hostRead off bytes s)
  | .hostWrite off bytes v => .next (hostWrite off bytes v s)
  | .reset => .next (resetBlock s)

/-- With no event listed the block goes on by itself: the builders first, then Context A (70_reset_and_hazards.md R342). A
block with no enabled agent stays as it is (log 2). -/
def runAlone (s : State) : Host.Outcome State Fault Refusal := if buildDue s then .next (build s) else contextA s

/-- The first listed event is taken off the list and served. A configuration that breaks a constraint is refused before any
event and before the build (00_scope.md R9, 93_implementation_defined.md U8). -/
def runStep (s : State) : Host.Outcome State Fault Refusal :=
  if cfgAccepted s then
    match s.events with
    | [] => runAlone s
    | e :: rest => serve e { s with events := rest }
  else .refused .illFormedCfg

/-- A descriptor word put where Context A runs it next: into the ROM at its own index, with that Effect current, the tables
built and the video enabled. A word that `tableSlot` reads as a `POLICY` row is placed at a frame boundary with a transition
due, any other at the first dispatch of a frame (log 3, log 4). -/
def placeDescr (w : BitVec 32) (s : State) : State :=
  let op := opField w
  let s1 := buildTables { s with
    cfg := { s.cfg with edr := s.cfg.edr.setIfInBounds op.toNat w }
    effect := op, vidEn := true, halted := false, col := 0#13, prologueDone := false
    events := .contextA :: s.events }
  if tableSlot w = .policy then
    { s1 with phase := .boundary, scan := BitVec.ofNat 13 s.cfg.H, countdown := 0#16 }
  else { s1 with phase := .gen, scan := 0#13 }

/-- A request word put at its port (log 3, log 4). -/
def placeRequest (w : BitVec 16) (s : State) : State :=
  match tablePort w with
  | .rowPort => { s with events := .rowRequest w :: s.events }
  | _ => { s with events := .audioRequest w :: s.events }

end Sys2Proof.Machine
end

