-- ==== Sys2Proof/Machine/Step.lean ====
section
/-! DEFINITION. One step of the machine, and the placing of an opcode-table word where the next step runs it. -/

namespace Sys2Proof.Machine

/-- One step: the first listed event, or the block going on by itself. -/
def step (s : State) : Host.Outcome State Fault Refusal := runStep s

/-- The state in which the very next step runs the opcode-table word `w` of `nbits` bits. -/
def State.withFetchWord (s : State) (nbits w : Nat) : State :=
  if nbits ≤ 16 then placeRequest (BitVec.ofNat 16 (w % 2 ^ nbits)) s
  else placeDescr (BitVec.ofNat 32 (w % 2 ^ nbits)) s

end Sys2Proof.Machine
end

