-- ==== Sys2Proof/Safety.lean ====
section
/-! DEFINITION. What counts as a good state, in the terms claims use: the state invariants of 10_state.md R55 and the ones
they rest on, the views of a state that isolation speaks of (60_exceptions.md R320), and what the rules speak of beside the
machine: the rows of the opcode table, the timeline, the orbit of a fractal point, the loop of a line, the drawn edges. -/

namespace Sys2Proof

open Machine

/-- The invariant of the block (10_state.md R55 and R22, R26, R27, R29, R31, R34, R36; 46_audio.md R263). -/
structure Inv (s : State) : Prop where
  /-- the configuration meets every constraint of 00_scope.md R9 -/
  cfg : cfgWf s.cfg = true
  effect : s.effect.toNat ≤ 8
  palact : s.palact.toNat ≤ 5
  scan : s.scan.toNat ≤ s.cfg.H
  col : s.col.toNat < s.cfg.W
  /-- phase BOUNDARY is where the scan position has wrapped (41_sequencer.md R134) -/
  boundary : s.phase = .boundary ↔ s.scan.toNat = s.cfg.H
  /-- at the boundary the frame advance is due -/
  due : s.phase = .boundary → s.prologueDone = false ∧ s.col = 0#13
  audPos : s.audPos.toNat ≤ audEnd s.cfg
  /-- the enables are set only after the tables are built (70_reset_and_hazards.md R345) -/
  enables : s.vidEn = true ∨ s.audEn = true → s.tblRdy = true
  /-- the block is halted exactly where a fatal code is recorded (60_exceptions.md R303) -/
  diag : s.halted = true ↔ s.diag ≠ 0#4
  bgWf : Memory.wf s.bg = true
  bgBelow : Memory.below (s.cfg.H * s.cfg.W) s.bg = true
  fgWf : Memory.wf s.fg = true
  fgBelow : Memory.below (s.cfg.H * s.cfg.W) s.fg = true
  compWf : Memory.wf s.comp = true
  compBelow : Memory.below (s.cfg.H * s.cfg.W) s.comp = true
  compWords : Memory.valuesBelow (2 ^ s.cfg.colorBits) s.comp = true
  palWf : Memory.wf s.pal = true
  palBelow : Memory.below palWords s.pal = true
  palValues : Memory.valuesBelow (2 ^ s.cfg.colorBits) s.pal = true
  geoWf : Memory.wf s.geo = true
  /-- index 0 of every built palette is colour 0 (40_table_builders.md R113) -/
  transparent : s.tblRdy = true → ∀ p < 6, Memory.read s.pal (p * 256) = 0#32
  /-- a row request in service has a word to read -/
  row : ∀ r, s.rowReq = some r → r.next < s.cfg.W
  /-- an audio request in service has a sample to deliver, and data only while the streamer is enabled -/
  audio : ∀ a, s.audReq = some a → 0 < a.left ∧ a.left < 2 ^ 16 ∧ (a.live = true → audioLive s = true)

/-- Context A takes a step of its own next: no event waits, the builders are done, the video is enabled. -/
def videoNext (s : State) : Bool := decide (s.events = []) && !buildDue s && videoLive s

/-- Context A stands at the first dispatch of a frame. -/
def frameStart (s : State) : Bool := decide (s.phase = .gen ∧ s.scan = 0#13 ∧ s.col = 0#13)

/-- The next event is a reset. -/
def resetNext (s : State) : Bool := s.events.head? == some .reset

/-- A state without what belongs to Context B and its port, and without what the host last read, which may be a register
of Context B: what Context A and the row port can depend on (20_memory.md R79, 60_exceptions.md R320). -/
def videoView (s : State) : State :=
  { s with audPos := 0#32, audStep := 0#32, audEn := false, audReq := none, audReply := [], hostData := 0#32 }

/-- What Context B and its port can depend on: the cursor, the step, the enables' gate, the halt, the request
(20_memory.md R79, 60_exceptions.md R320); everything else at its reset value. -/
def audioView (s : State) : State :=
  { State.resetWith s.cfg with
    audPos := s.audPos, audStep := s.audStep, audEn := s.audEn, tblRdy := s.tblRdy, halted := s.halted, diag := s.diag
    audReq := s.audReq, audReply := s.audReply, events := s.events }

/-! ### Instructions by their group (30_encoding.md R104) -/

/-- The Effect row of an Effect. -/
def effectInstr (e : Effect) (a : EffectArgs) : Instr :=
  match e with
  | .start => .start a
  | .water => .water a
  | .acid => .acid a
  | .wireframeA => .wireframeA a
  | .fireA => .fireA a
  | .fractal => .fractal a
  | .fireB => .fireB a
  | .fireC => .fireC a
  | .theEnd => .theEnd a

/-- The `BGSEL` row of a selector. -/
def bgInstr (b : BgSel) (a : BgArgs) : Instr :=
  match b with
  | .none => .bgNone a
  | .automaton => .bgAutomaton a
  | .fractal => .bgFractal a
  | .plasma => .bgPlasma a
  | .checker => .bgChecker a

/-- The `WIRESEL` row of a selector. -/
def wireInstr (w : WireSel) (a : WireArgs) : Instr :=
  match w with
  | .none => .wireNone a
  | .cube => .wireCube a
  | .gem => .wireGem a

/-- The `POLICY` row of a policy. -/
def policyInstr (p : Policy) (a : PolicyArgs) : Instr :=
  match p with
  | .clear => .clear a
  | .halve => .halve a
  | .quarter => .quarter a

/-- The mask and the match of an instruction's row of the opcode table (30_encoding.md R104). -/
def tableRow : Instr → BitVec 32 × BitVec 32
  | .start _ => (0xF0000000#32, 0x00000000#32)
  | .water _ => (0xF0000000#32, 0x10000000#32)
  | .acid _ => (0xF0000000#32, 0x20000000#32)
  | .wireframeA _ => (0xF0000000#32, 0x30000000#32)
  | .fireA _ => (0xF0000000#32, 0x40000000#32)
  | .fractal _ => (0xF0000000#32, 0x50000000#32)
  | .fireB _ => (0xF0000000#32, 0x60000000#32)
  | .fireC _ => (0xF0000000#32, 0x70000000#32)
  | .theEnd _ => (0xF0000000#32, 0x80000000#32)
  | .bgNone _ => (0x00E00000#32, 0x00000000#32)
  | .bgAutomaton _ => (0x00E00000#32, 0x00200000#32)
  | .bgFractal _ => (0x00E00000#32, 0x00400000#32)
  | .bgPlasma _ => (0x00E00000#32, 0x00600000#32)
  | .bgChecker _ => (0x00E00000#32, 0x00800000#32)
  | .wireNone _ => (0x03000000#32, 0x00000000#32)
  | .wireCube _ => (0x03000000#32, 0x01000000#32)
  | .wireGem _ => (0x03000000#32, 0x02000000#32)
  | .clear _ => (0x00180000#32, 0x00000000#32)
  | .halve _ => (0x00180000#32, 0x00080000#32)
  | .quarter _ => (0x00180000#32, 0x00100000#32)
  | .rowrd _ _ => (0x0000E000#32, 0x00000000#32)
  | .audrd _ => (0x00000000#32, 0x00000000#32)

/-- The masks and matches of a group's rows, in the table's order. -/
def groupRows : Slot → List (BitVec 32 × BitVec 32)
  | .effect => [(0xF0000000#32, 0x00000000#32), (0xF0000000#32, 0x10000000#32), (0xF0000000#32, 0x20000000#32),
      (0xF0000000#32, 0x30000000#32), (0xF0000000#32, 0x40000000#32), (0xF0000000#32, 0x50000000#32),
      (0xF0000000#32, 0x60000000#32), (0xF0000000#32, 0x70000000#32), (0xF0000000#32, 0x80000000#32)]
  | .background => [(0x00E00000#32, 0x00000000#32), (0x00E00000#32, 0x00200000#32), (0x00E00000#32, 0x00400000#32),
      (0x00E00000#32, 0x00600000#32), (0x00E00000#32, 0x00800000#32)]
  | .wire => [(0x03000000#32, 0x00000000#32), (0x03000000#32, 0x01000000#32), (0x03000000#32, 0x02000000#32)]
  | .policy => [(0x00180000#32, 0x00000000#32), (0x00180000#32, 0x00080000#32), (0x00180000#32, 0x00100000#32)]
  | .rowPort => [(0x0000E000#32, 0x00000000#32)]
  | .audioPort => [(0x00000000#32, 0x00000000#32)]

/-! ### What the rules speak of -/

/-- What a reset policy makes of a cell's number (41_sequencer.md R135, R136, R137). -/
def policyValue (p : Policy) (v : Nat) : Nat :=
  match p with
  | .clear => 0
  | .halve => v / 2
  | .quarter => v / 4

/-- `cum(k)`, the first frame of Effect `k` (41_sequencer.md R131). -/
def cum (c : Cfg) : Nat → Nat
  | 0 => 0
  | k + 1 => cum c k + max (durOf c k).toNat 1

/-- The block stands where the timeline puts it (41_sequencer.md R131): the palette is the Effect's; before END the frame
counter lies in the Effect's range and the countdown says how many of its frames are still to begin; at END every range has passed. -/
structure OnTimeline (s : State) : Prop where
  palette : s.palact = palselOf s.cfg s.effect.toNat
  within : s.effect.toNat < 8 →
    cum s.cfg s.effect.toNat ≤ s.frame.toNat ∧ s.frame.toNat + s.countdown.toNat + 1 = cum s.cfg (s.effect.toNat + 1)
  ended : s.effect.toNat = 8 → cum s.cfg 8 ≤ s.frame.toNat

/-- The steps of one frame: `W` dispatches and `W` merges for each of `H` rows, and the boundary (41_sequencer.md R125). -/
def frameSteps (c : Cfg) : Nat := 2 * c.W * c.H + 1

/-- The total energy of a layer (42_gen_automaton.md R154). -/
def energy (c : Cfg) (m : Memory 8) : Nat := ((List.range (c.H * c.W)).map (cell m)).sum

/-- One update `z <- z * z + c` of the escape-time recurrence (43_gen_fractal_plasma_checker.md R169). -/
def orbitNext (cr ci : F32) (z : F32 × F32) : F32 × F32 :=
  (f32Add (f32Sub (f32Mul z.1 z.1) (f32Mul z.2 z.2)) cr, f32Add (f32Mul (f32Mul 0x40000000#32 z.1) z.2) ci)

/-- The point after a number of updates. -/
def orbit (cr ci : F32) (z : F32 × F32) : Nat → F32 × F32
  | 0 => z
  | n + 1 => orbitNext cr ci (orbit cr ci z n)

/-- The test of the recurrence: magnitude-squared over the threshold (43_gen_fractal_plasma_checker.md R169). -/
def escaped (z : F32 × F32) : Bool := f32Gt (f32Add (f32Mul z.1 z.1) (f32Mul z.2 z.2)) 0x3FC00000#32

/-- `dx = abs(x1 - x0)` and `dy = -abs(y1 - y0)` of a line (44_gen_wireframe_text.md R203). -/
def lineDx (p q : Int × Int) : Int := |q.1 - p.1|
def lineDy (p q : Int × Int) : Int := -|q.2 - p.2|

/-- The loop of `LINE` without its stop: the point and the error term after a number of turns (44_gen_wireframe_text.md R203). -/
def lineLoop (p q : Int × Int) : Nat → (Int × Int) × Int
  | 0 => (p, lineDx p q + lineDy p q)
  | n + 1 =>
    let r := lineLoop p q n
    let e2 := 2 * r.2
    let sx : Int := if p.1 < q.1 then 1 else -1
    let sy : Int := if p.2 < q.2 then 1 else -1
    ((if lineDy p q ≤ e2 then r.1.1 + sx else r.1.1, if e2 ≤ lineDx p q then r.1.2 + sy else r.1.2),
      r.2 + (if lineDy p q ≤ e2 then lineDy p q else 0) + (if e2 ≤ lineDx p q then lineDx p q else 0))

/-- A screen point lies on an edge `P0-P1`, `P1-P2` or `P2-P0` of a triangle of the shape (44_gen_wireframe_text.md R190, R202). -/
def onEdge (s : State) (gem : Bool) (pt : Int × Int) : Prop :=
  ∃ tri, tri < shapeTriangles gem ∧ ∃ k, k < 3 ∧
    pt ∈ linePoints (project s.cfg (geoVertex s.geo gem tri k) s.frame.toNat)
      (project s.cfg (geoVertex s.geo gem tri ((k + 1) % 3)) s.frame.toNat)

/-- A pixel (`y`, `x`) belongs to a set cell of a glyph (44_gen_wireframe_text.md R224, R225). -/
def onGlyph (mask : BitVec 15) (x0 y0 : Int) (scale : Nat) (y x : Int) : Prop :=
  ∃ r c dy dx : Nat, r < 5 ∧ c < 3 ∧ dy < scale ∧ dx < scale ∧ mask.getLsbD (14 - (3 * r + c)) = true ∧
    y = y0 + ((r * scale + dy : Nat) : Int) ∧ x = x0 + ((c * scale + dx : Nat) : Int)

/-- The cursor after `k` samples of a live request: the exact sum, saturated at the end (46_audio.md R257, R264). -/
def cursorAfter (s : State) (k : Nat) : Nat := min (s.audPos.toNat + k * s.audStep.toNat) (audEnd s.cfg)

/-- The payload byte that a cursor value selects (46_audio.md R257). -/
def payloadAt (c : Cfg) (pos : Nat) : Byte := (c.payload[min (pos / 2 ^ c.audFrac) (c.payload.length - 1)]?).getD 0#8

/-- `P_k` of the gem's pentagon (40_table_builders.md R118). -/
def pentagon (c : Cfg) (k : Nat) : Vertex :=
  (f32Mul c.geoGemR (fCos c (f32Mul (f32OfNat k) 0x3FA0D97C#32)), 0#32,
    f32Mul c.geoGemR (fSin c (f32Mul (f32OfNat k) 0x3FA0D97C#32)))

end Sys2Proof
end

