-- ==== Sys2Proof/Certificates/Slice0/Obligations.lean ====
section
/-! DEFINITION. The statements for the provers. Each says what a numbered rule of the spec, or a section of it, says of the
machine; one that rests on the model's own choice names the log entry. -/

open Sys2Proof Sys2Proof.Machine

/-! ### Encoding -/

/-- A few words written out in 30_encoding.md R99 and 95_test_vectors.md V-ENC-1, V-ENC-2, V-ENC-4 are read and written as they are there. -/
def Obligations.SpecWordsAreRead : Prop :=
  decode .effect 0x102900D7#32 = .ok (.water ⟨.none, .automaton, .halve, 1#3, 215#16⟩) ∧
  decode .background 0x318B0001#32 = .ok (.bgChecker ⟨.wireframeA, .cube, .halve, 3#3, 1#16⟩) ∧
  decode .wire 0x62200001#32 = .ok (.wireGem ⟨.fireB, .automaton, .clear, 0#3, 1#16⟩) ∧
  decode .policy 0x20320083#32 = .ok (.quarter ⟨.acid, .none, .automaton, 2#3, 131#16⟩) ∧
  decode .effect 0x806A0002#32 = .ok (.theEnd ⟨.none, .plasma, .halve, 2#3, 2#16⟩) ∧
  decode .rowPort 0x000001DF#32 = .ok (.rowrd 0#3 479#13) ∧
  decode .rowPort 0x00002005#32 = .ok (.rowrd 1#3 5#13) ∧
  decode .audioPort 0x00000100#32 = .ok (.audrd 256#16) ∧
  encode (.water ⟨.none, .automaton, .halve, 1#3, 215#16⟩) = 0x102900D7#32

/-- Decoding an encoded instruction gives it back, with every field at every value its encoding admits (30_encoding.md sections 1 and 6). -/
def Obligations.DecodeOfEncodeIsTheInstruction : Prop :=
  ∀ i : Instr, (∀ d, i.descr = some d → d.palOk = true) → decode i.slot (encode i) = .ok i

/-- Every accepted word is the encoding of what it is read as (30_encoding.md sections 1 and 6). -/
def Obligations.EncodeOfDecodeIsTheWord : Prop :=
  ∀ (sl : Slot) (w : BitVec 32) (i : Instr), decode sl w = .ok i → i.slot = sl ∧ encode i = w

/-- 30_encoding.md R93: every field is the unsigned integer at its place, and `FR_T0` is the sum of the first five durations. -/
def Obligations.FieldsAreReadAsTheyStand : Prop :=
  (∀ (w : BitVec 32) (d : Descr), decodeDescr w = .ok d →
    d.op.code.toNat = w.toNat / 2 ^ 28 ∧ d.wire.code.toNat = w.toNat / 2 ^ 24 % 4 ∧
    d.bg.code.toNat = w.toNat / 2 ^ 21 % 8 ∧ d.policy.code.toNat = w.toNat / 2 ^ 19 % 4 ∧
    d.pal.toNat = w.toNat / 2 ^ 16 % 8 ∧ d.dur.toNat = w.toNat % 2 ^ 16) ∧
  (∀ (c : Cfg) (e : Nat), (durOf c e).toNat = (edrWord c e).toNat % 2 ^ 16 ∧
    (palselOf c e).toNat = (edrWord c e).toNat / 2 ^ 16 % 8) ∧
  (∀ c : Cfg, frT0 c = ((List.range 5).map fun e => (edrWord c e).toNat % 2 ^ 16).sum ∧ frT0 c < 2 ^ 20)

/-- The model's refusal of ill-formed words and configurations (log 14; 30_encoding.md R97 and 93_implementation_defined.md U8, U11
ask a model to refuse): a descriptor word is rejected exactly where one of the reserved encodings stands in it, Context A's
fetch refuses a word whose `OP` is not its index, and a configuration that breaks a constraint of 00_scope.md R9 is refused by
every step before `TBL_RDY`, so by the first step of any run from reset. -/
def Obligations.IllFormedWordsAreRefused : Prop :=
  (∀ (sl : Slot) (w : BitVec 32), sl ≠ .rowPort → sl ≠ .audioPort →
    ((∃ r, decode sl w = .rejected r) ↔
      8 < w.toNat / 2 ^ 28 ∨ w.toNat / 2 ^ 26 % 4 ≠ 0 ∨ w.toNat / 2 ^ 24 % 4 = 3 ∨ 4 < w.toNat / 2 ^ 21 % 8 ∨
      w.toNat / 2 ^ 19 % 4 = 3 ∨ 5 < w.toNat / 2 ^ 16 % 8)) ∧
  (∀ s : State, videoLive s = true → (edrWord s.cfg s.effect.toNat).toNat / 2 ^ 28 ≠ s.effect.toNat →
    contextA s = .refused .illFormedDescriptor) ∧
  (∀ s : State, cfgWf s.cfg = false → s.tblRdy = false → step s = .refused .illFormedCfg) ∧
  (∀ (c : Cfg) (es : List Event) (k : Nat), cfgWf c = false →
    Host.Core.run Sys2Proof.core (k + 1) { State.resetWith c with events := es } = .refused .illFormedCfg)

/-- 30_encoding.md section 8: each accepted descriptor word is read in each of the four groups, and matches the mask and match of
exactly one row of the group, that of the instruction read; the six groups have 9, 5, 3, 3, 1 and 1 rows. -/
def Obligations.OneRowOfEachGroupMatches : Prop :=
  (∀ (w : BitVec 32) (d : Descr), decodeDescr w = .ok d →
    ∀ sl ∈ [Slot.effect, Slot.background, Slot.wire, Slot.policy],
      ∃ i, decode sl w = .ok i ∧ i.slot = sl ∧ i.descr = some d ∧
        (groupRows sl).filter (fun r => w &&& r.1 == r.2) = [tableRow i]) ∧
  [Slot.effect, .background, .wire, .policy, .rowPort, .audioPort].map (fun sl => (groupRows sl).length) = [9, 5, 3, 3, 1, 1]

/-! ### The machine -/

/-- A step runs the decoded instruction: Context A's current descriptor word as its Effect row, with no event waiting or at its
event; a request word at its port. The event is taken off the list; beside that a step checks that the configuration is
accepted (log 14) and adds nothing around `exec` (log 2). -/
def Obligations.StepRunsTheDecodedInstruction : Prop :=
  (∀ (s : State) (i : Instr), s.events = [] → buildDue s = false → videoLive s = true →
    opField (edrWord s.cfg s.effect.toNat) = s.effect → decode .effect (edrWord s.cfg s.effect.toNat) = .ok i →
    step s = exec i s) ∧
  (∀ (s : State) (i : Instr) (rest : List Event), cfgAccepted s = true → s.events = .contextA :: rest → videoLive s = true →
    opField (edrWord s.cfg s.effect.toNat) = s.effect → decode .effect (edrWord s.cfg s.effect.toNat) = .ok i →
    step s = exec i { s with events := rest }) ∧
  (∀ (s : State) (i : Instr) (w : BitVec 16) (rest : List Event), cfgAccepted s = true → s.events = .rowRequest w :: rest →
    decode .rowPort (w.setWidth 32) = .ok i → step s = exec i { s with events := rest }) ∧
  (∀ (s : State) (i : Instr) (w : BitVec 16) (rest : List Event), cfgAccepted s = true → s.events = .audioRequest w :: rest →
    decode .audioPort (w.setWidth 32) = .ok i → step s = exec i { s with events := rest })

/-- 10_state.md R54: the reset value of every piece of state that the table gives one. -/
def Obligations.ResetGivesTheTabledValues : Prop :=
  ∀ c : Cfg, let s := State.resetWith c
    s.effect = 0#4 ∧ s.frame = 0#32 ∧ s.countdown.toNat = max ((durOf c 0).toNat - 1) 0 ∧ s.palact = palselOf c 0 ∧
    s.scan = 0#13 ∧ s.prologueDone = false ∧ s.phase = .gen ∧ s.col = 0#13 ∧ s.audPos = 0#32 ∧
    s.audStep = c.audStepReset ∧ s.vidEn = false ∧ s.audEn = false ∧ s.tblRdy = false ∧ s.halted = false ∧ s.diag = 0#4 ∧
    ∀ a, Memory.read s.bg a = 0#8 ∧ Memory.read s.fg a = 0#8 ∧ Memory.read s.comp a = 0#32

/-- The reset event gives the state of reset and leaves the configuration (70_reset_and_hazards.md section 1). That the waiting
events and the count of free values go on is the model's choice (log 2). -/
def Obligations.ResetEventRestoresReset : Prop :=
  ∀ (s : State) (rest : List Event), cfgAccepted s = true → s.events = .reset :: rest →
    step s = .next { State.resetWith s.cfg with events := rest, free := s.free }

/-- The invariant holds after reset, for every well-formed configuration and for the model's own (log 1). -/
def Obligations.InvariantHoldsAtReset : Prop :=
  (∀ c : Cfg, cfgWf c = true → Inv (State.resetWith c)) ∧ Inv State.reset

/-- Every step of the machine keeps the invariant (10_state.md section 8 and the rules it cites). -/
def Obligations.EveryStepKeepsTheInvariant : Prop :=
  ∀ s t : State, Inv s → step s = .next t → Inv t

/-- From a state of the invariant no step faults and none is refused, so a run of any length goes on (60_exceptions.md section 1). -/
def Obligations.RunsNeverStop : Prop :=
  ∀ (k : Nat) (s : State), Inv s → ∃ t : State, Host.Core.run Sys2Proof.core k s = .next t ∧ Inv t

/-- The ownership table (60_exceptions.md section 7): what each agent's step may write, everything else being as before. One
clause is the model's inference and no row of that table: a host write may move the cursor and the audio port's record, which
are Context B's, where a non-zero code written at 0x20 halts the block while an audio request is in service (DEDUCED,
log 11); at any other host write they are as before. -/
def Obligations.EachAgentWritesOnlyItsOwn : Prop :=
  ∀ s t : State, step s = .next t →
    (s.events = [] → buildDue s = true → t = { s with pal := t.pal, geo := t.geo, tblRdy := true }) ∧
    (s.events = [] → buildDue s = false →
      t = { s with
        effect := t.effect, frame := t.frame, countdown := t.countdown, palact := t.palact, scan := t.scan
        prologueDone := t.prologueDone, phase := t.phase, col := t.col, bg := t.bg, fg := t.fg, comp := t.comp }) ∧
    (∀ rest, s.events = .contextA :: rest →
      t = { s with
        effect := t.effect, frame := t.frame, countdown := t.countdown, palact := t.palact, scan := t.scan
        prologueDone := t.prologueDone, phase := t.phase, col := t.col, bg := t.bg, fg := t.fg, comp := t.comp
        events := rest }) ∧
    (∀ rest, s.events = .build :: rest →
      t = { s with pal := t.pal, geo := t.geo, tblRdy := t.tblRdy, events := rest } ∧
      (s.tblRdy = true → t = { s with events := rest })) ∧
    (∀ rest w, s.events = .rowRequest w :: rest ∨ s.events = .rowOpen w :: rest ∨ s.events = .rowWord :: rest →
      t = { s with rowReq := t.rowReq, rowReply := t.rowReply, free := t.free, events := rest }) ∧
    (∀ rest w, s.events = .audioRequest w :: rest ∨ s.events = .audioOpen w :: rest ∨ s.events = .audioSample :: rest →
      t = { s with audPos := t.audPos, audReq := t.audReq, audReply := t.audReply, events := rest }) ∧
    (∀ rest off bytes, s.events = .hostRead off bytes :: rest →
      t = { s with hostData := t.hostData, events := rest }) ∧
    (∀ rest off bytes v, s.events = .hostWrite off bytes v :: rest →
      t = { s with
        vidEn := t.vidEn, audEn := t.audEn, audStep := t.audStep, halted := t.halted, diag := t.diag
        audPos := t.audPos, audReq := t.audReq, audReply := t.audReply, events := rest } ∧
      (off ≠ 0x00#32 ∨ bytes ≠ 4 → t.vidEn = s.vidEn ∧ t.audEn = s.audEn) ∧
      (off ≠ 0x1C#32 ∨ bytes ≠ 4 → t.audStep = s.audStep) ∧
      (off ≠ 0x20#32 ∨ bytes ≠ 4 ∨ v.toNat % 16 = 0 ∨ s.halted = true → t.halted = s.halted ∧ t.diag = s.diag) ∧
      (off ≠ 0x20#32 ∨ bytes ≠ 4 ∨ v.toNat % 16 = 0 ∨ s.halted = true ∨ s.audReq = none →
        t.audPos = s.audPos ∧ t.audReq = s.audReq ∧ t.audReply = s.audReply))

/-- The sequencer's registers move by single steps and only at a frame boundary (41_sequencer.md section 6 and section 7):
`EFFECT` by 0 or 1 and never down, `FRAME` by 0 or 1; `EFFECT` and `PALACT` change only where `COUNTDOWN` is 0. -/
def Obligations.SequencerMovesOnlyAtTheBoundary : Prop :=
  ∀ s t : State, s.effect.toNat ≤ 8 → resetNext s = false → step s = .next t →
    (t.effect.toNat = s.effect.toNat ∨ t.effect.toNat = s.effect.toNat + 1) ∧ t.effect.toNat ≤ 8 ∧
    (t.frame = s.frame ∨ t.frame = s.frame + 1#32) ∧
    (t.frame ≠ s.frame → s.phase = .boundary ∧ s.scan.toNat = s.cfg.H ∧ s.prologueDone = false) ∧
    (t.effect ≠ s.effect ∨ t.palact ≠ s.palact → s.phase = .boundary ∧ s.countdown = 0#16) ∧
    (t.countdown ≠ s.countdown → s.phase = .boundary)

/-- Two states that differ only in what belongs to Context B (and in the value the host last read) run alike, for any number of
steps and any events, apart from that (20_memory.md section 6, 60_exceptions.md section 7). -/
def Obligations.VideoDoesNotDependOnAudio : Prop :=
  ∀ (k : Nat) (s s' t : State), videoView s = videoView s' → Host.Core.run Sys2Proof.core k s = .next t →
    ∃ t' : State, Host.Core.run Sys2Proof.core k s' = .next t' ∧ videoView t = videoView t'

/-- Two states that agree on what Context B works with agree on it after a step of each (20_memory.md section 6). -/
def Obligations.AudioDoesNotDependOnVideo : Prop :=
  ∀ s s' t t' : State, audioView s = audioView s' → step s = .next t → step s' = .next t' → audioView t = audioView t'

/-! ### Context A: the loop -/

/-- An Effect's step in phase GEN is one dispatch: the `BGSEL` row's meaning, then the `WIRESEL` row's, then the text unit, then
the next column or phase MERGE (45_compositor_handoff.md section 1). The automaton and the text unit take the executing row's
own code for `EFFECT`, which it equals for a fetched word: that is the model's choice (log 16). -/
def Obligations.DispatchRunsTheThreeUnits : Prop :=
  ∀ (e : Effect) (a : EffectArgs) (s : State), videoLive s = true → s.phase = .gen → positionOk s = true →
    ∃ s1 s2 : State,
      exec (bgInstr a.bg ⟨e, a.wire, a.policy, a.pal, a.dur⟩) s = .next s1 ∧
      exec (wireInstr a.wire ⟨e, a.bg, a.policy, a.pal, a.dur⟩) s1 = .next s2 ∧
      exec (effectInstr e a) s = .next { s with
        bg := s1.bg, fg := (textUnit e s2).fg
        col := if s.col.toNat + 1 = s.cfg.W then 0#13 else s.col + 1#13
        phase := if s.col.toNat + 1 = s.cfg.W then .merge else .gen }

/-- An Effect's step in phase MERGE writes the one colour word of its pixel and goes to the next column, or ends the row
(45_compositor_handoff.md R235, R236; 41_sequencer.md R134). -/
def Obligations.MergeWritesOneColour : Prop :=
  ∀ (e : Effect) (a : EffectArgs) (s : State), videoLive s = true → s.phase = .merge → positionOk s = true →
    s.palact.toNat ≤ 5 →
    ∃ t : State, exec (effectInstr e a) s = .next t ∧
      (let p := cellAddr s.cfg (genRow s) s.col.toNat
       Memory.read t.comp p =
         Memory.read s.pal (s.palact.toNat * 256 + min (Memory.read s.bg p).toNat 254) |||
         Memory.read s.pal (s.palact.toNat * 256 + min (Memory.read s.fg p).toNat 254) ∧
       ∀ b, b ≠ p → Memory.read t.comp b = Memory.read s.comp b) ∧
      (s.col.toNat + 1 ≠ s.cfg.W → t = { s with comp := t.comp, col := s.col + 1#13 }) ∧
      (s.col.toNat + 1 = s.cfg.W →
        t = { s with
          comp := t.comp, col := 0#13, prologueDone := false, scan := s.scan + 1#13
          phase := if s.scan.toNat + 1 = s.cfg.H then .boundary else .gen })

/-- An Effect's step in phase BOUNDARY with frames left counts the frame; where the scan position has not wrapped or the one-shot
flag is set, it only returns to phase GEN (41_sequencer.md R126). -/
def Obligations.BoundaryCountsTheFrame : Prop :=
  ∀ (e : Effect) (a : EffectArgs) (s : State), videoLive s = true → s.phase = .boundary →
    (s.scan.toNat = s.cfg.H → s.prologueDone = false → s.countdown ≠ 0#16 →
      exec (effectInstr e a) s = .next { s with
        frame := s.frame + 1#32, countdown := s.countdown - 1#16, scan := 0#13, prologueDone := true, phase := .gen }) ∧
    (s.scan.toNat ≠ s.cfg.H ∨ s.prologueDone = true → exec (effectInstr e a) s = .next { s with phase := .gen })

/-- An Effect's step in phase BOUNDARY with `COUNTDOWN` 0 makes the transition: the next Effect, its duration less the frame
begun, its palette; the outgoing policy over the Background, the Foreground cleared (41_sequencer.md sections 2 and 3). That the
outgoing policy is the executing row's own field, which is `POLICY[EFFECT]` for a fetched word, is the model's choice (log 16). -/
def Obligations.BoundaryMakesTheTransition : Prop :=
  ∀ (e : Effect) (a : EffectArgs) (s : State), videoLive s = true → s.phase = .boundary → s.scan.toNat = s.cfg.H →
    s.prologueDone = false → s.countdown = 0#16 →
    ∃ t : State, exec (effectInstr e a) s = .next t ∧
      (let n := min (s.effect.toNat + 1) 8
       t = { s with
         effect := BitVec.ofNat 4 n, frame := s.frame + 1#32, countdown := BitVec.ofNat 16 ((durOf s.cfg n).toNat - 1)
         palact := palselOf s.cfg n, scan := 0#13, prologueDone := true, phase := .gen, bg := t.bg, fg := t.fg }) ∧
      (∀ b, b < s.cfg.H * s.cfg.W →
        cell t.bg b = policyValue a.policy (cell s.bg b) ∧ Memory.read t.fg b = 0#8) ∧
      (∀ b, s.cfg.H * s.cfg.W ≤ b →
        Memory.read t.bg b = Memory.read s.bg b ∧ Memory.read t.fg b = Memory.read s.fg b)

/-- 41_sequencer.md R127: `FRAME_ADV` acts only where `SCAN = H` and the flag is clear; after it has acted both conditions
fail and another call does nothing; in the loop both hold wherever it is invoked. -/
def Obligations.FrameAdvanceIsOneShot : Prop :=
  (∀ (p : Policy) (s : State), s.scan.toNat ≠ s.cfg.H ∨ s.prologueDone = true → frameAdv p s = s) ∧
  (∀ (p : Policy) (s : State), s.scan.toNat = s.cfg.H → s.prologueDone = false →
    (frameAdv p s).scan = 0#13 ∧ (frameAdv p s).prologueDone = true ∧ (frameAdv p s).frame = s.frame + 1#32) ∧
  (∀ (p q : Policy) (s : State), frameAdv q (frameAdv p s) = frameAdv p s) ∧
  (∀ s : State, Inv s → s.phase = .boundary → s.scan.toNat = s.cfg.H ∧ s.prologueDone = false)

/-- The generated rows of a frame are `LEAD, ..., H-1, 0, ..., LEAD-1`, each once (41_sequencer.md section 4). -/
def Obligations.RowsAreGeneratedFromTheLead : Prop :=
  ∀ s : State, s.cfg.LEAD < s.cfg.H → s.cfg.H ≤ 2 ^ 13 →
    (List.range s.cfg.H).map (fun k => genRow { s with scan := BitVec.ofNat 13 k }) =
      (List.range (s.cfg.H - s.cfg.LEAD)).map (fun j => s.cfg.LEAD + j) ++ List.range s.cfg.LEAD ∧
    genRow s < s.cfg.H

/-- 41_sequencer.md R125: while either enable condition fails Context A has no step; and one frame of a running block is, for
each scan position in order, `W` dispatches of the row in column order, then `W` merges of it in column order, then one frame
boundary, which counts one frame; the Effect and the palette stay over the frame's rows. -/
def Obligations.OneFrameOfTheLoop : Prop :=
  (∀ (e : Effect) (a : EffectArgs) (s : State), videoLive s = false → exec (effectInstr e a) s = .next s) ∧
  (∀ s : State, Inv s → videoNext s = true → frameStart s = true →
    (∀ r j : Nat, r < s.cfg.H → j < 2 * s.cfg.W →
      ∃ u : State, Host.Core.run Sys2Proof.core (r * (2 * s.cfg.W) + j) s = .next u ∧
        u.scan.toNat = r ∧ u.col.toNat = j % s.cfg.W ∧ u.phase = (if j < s.cfg.W then .gen else .merge) ∧
        u.frame = s.frame ∧ u.effect = s.effect ∧ u.palact = s.palact ∧ u.cfg = s.cfg) ∧
    (∃ u : State, Host.Core.run Sys2Proof.core (s.cfg.H * (2 * s.cfg.W)) s = .next u ∧
      u.phase = .boundary ∧ u.scan.toNat = s.cfg.H ∧ u.frame = s.frame ∧ u.effect = s.effect) ∧
    (∃ t : State, Host.Core.run Sys2Proof.core (frameSteps s.cfg) s = .next t ∧
      Inv t ∧ videoNext t = true ∧ frameStart t = true ∧ t.frame = s.frame + 1#32 ∧ t.prologueDone = true ∧ t.cfg = s.cfg))

/-- 41_sequencer.md section 3. The reset state is on the timeline, and from every state of the invariant that is on it, while the
frame counter does not wrap, every step of any kind leads to a state that is on it. And from reset, with the builders run and
`VID_EN` set by the host, after any number of further steps the frame counter is the number of whole frames made, the Effect is the one whose cumulative range holds it, END from `cum(8)` on,
and the palette is that Effect's; with the source's durations the first three boundaries are 10, 225, 356. -/
def Obligations.TimelineFollowsTheDurations : Prop :=
  (∀ c : Cfg, OnTimeline (State.resetWith c)) ∧
  (∀ s t : State, Inv s → OnTimeline s → s.frame.toNat < 2 ^ 32 - 1 → step s = .next t → OnTimeline t) ∧
  ∀ (c : Cfg) (n : Nat), cfgWf c = true → n / frameSteps c < 2 ^ 32 →
    ∃ t : State,
      Host.Core.run Sys2Proof.core (2 + n)
        { State.resetWith c with events := [.build, .hostWrite 0#32 4 1#32] } = .next t ∧
      t.frame.toNat = n / frameSteps c ∧
      (∀ k, k < 8 → cum c k ≤ n / frameSteps c → n / frameSteps c < cum c (k + 1) → t.effect.toNat = k) ∧
      (cum c 8 ≤ n / frameSteps c → t.effect.toNat = 8) ∧
      t.palact = palselOf c t.effect.toNat ∧
      (isSourceTimeline c = true → cum c 1 = 10 ∧ cum c 2 = 225 ∧ cum c 3 = 356)

/-! ### Background rows -/

/-- `BG_NONE` and `WIRE_NONE` do nothing (45_compositor_handoff.md R232, 44_gen_wireframe_text.md R191). -/
def Obligations.EmptySelectorsChangeNothing : Prop :=
  (∀ (a : BgArgs) (s : State), exec (.bgNone a) s = .next s) ∧
  (∀ (a : WireArgs) (s : State), exec (.wireNone a) s = .next s)

/-- 43_gen_fractal_plasma_checker.md R184: `BG_CHECKER` writes `(k - 1) mod 256` to the dispatched cell and nothing else; only the
low 8 bits of `y + h` and `x + h` matter. `k - 1` modulo 256 is written `(k + 255) % 256`. -/
def Obligations.CheckerWritesOneCell : Prop :=
  ∀ (a : BgArgs) (s : State), positionOk s = true →
    ∃ t : State, exec (.bgChecker a) s = .next t ∧ t = { s with bg := t.bg } ∧
      (let y := genRow s
       let x := s.col.toNat
       let h := s.frame.toNat / 2
       cell t.bg (cellAddr s.cfg y x) = (((y + h) ^^^ (x + h)) + 255) % 256 ∧
       cell t.bg (cellAddr s.cfg y x) = ((((y + h) % 256) ^^^ ((x + h) % 256)) + 255) % 256 ∧
       ∀ b, b ≠ cellAddr s.cfg y x → Memory.read t.bg b = Memory.read s.bg b)

/-- 42_gen_automaton.md R147: the bounded transfer. -/
def Obligations.TransferIsBounded : Prop :=
  ∀ (m : Memory 8) (src dst req : Nat),
    let t := min req (min (cell m src) (255 - cell m dst))
    t ≤ req ∧ t ≤ cell m src ∧ cell m dst + t ≤ 255 ∧
    (src ≠ dst → cell (xfer m src dst req) src = cell m src - t ∧ cell (xfer m src dst req) dst = cell m dst + t ∧
      cell (xfer m src dst req) src + cell (xfer m src dst req) dst = cell m src + cell m dst) ∧
    (src = dst → cell (xfer m src dst req) src = cell m src) ∧
    (∀ b, b ≠ src → b ≠ dst → Memory.read (xfer m src dst req) b = Memory.read m b)

/-- 42_gen_automaton.md R148: phase (a), by the forcing class of the Effect (30_encoding.md R96). -/
def Obligations.ForcingFollowsTheClass : Prop :=
  ∀ (c : Cfg) (e : Effect) (f y x : Nat) (m : Memory 8),
    let p := cellAddr c y x
    (e = .water ∨ e = .acid →
      cell (forcing c e f y x m) p = if f % 2 = 0 then min (cell m p + c.ambientAmt) 255 else cell m p) ∧
    (e = .fireA ∨ e = .fireB ∨ e = .fireC →
      cell (forcing c e f y x m) p = if y = c.H - 1 then 255 else cell m p) ∧
    (e = .start ∨ e = .wireframeA ∨ e = .fractal ∨ e = .theEnd → forcing c e f y x m = m) ∧
    (∀ b, b ≠ p → Memory.read (forcing c e f y x m) b = Memory.read m b)

/-- 42_gen_automaton.md R149: phase (b). Where no neighbour is below the cell nothing changes; otherwise half of the cell,
bounded by the headroom, goes to the first neighbour, in `NBR` order, that holds the least value. -/
def Obligations.DiffusionGoesToTheFirstMinimum : Prop :=
  ∀ (c : Cfg) (y x : Nat) (m : Memory 8),
    let p := cellAddr c y x
    ((∀ b ∈ nbrAddrs c y x, cell m p ≤ cell m b) → diffuse c y x m = m) ∧
    (∀ i b : Nat, (nbrAddrs c y x)[i]? = some b → cell m b < cell m p →
      (∀ b' ∈ nbrAddrs c y x, cell m b ≤ cell m b') →
      (∀ j b' : Nat, j < i → (nbrAddrs c y x)[j]? = some b' → cell m b < cell m b') →
      b ≠ p ∧
      cell (diffuse c y x m) p = cell m p - min (cell m p / 2) (255 - cell m b) ∧
      cell (diffuse c y x m) b = cell m b + min (cell m p / 2) (255 - cell m b) ∧
      ∀ b', b' ≠ p → b' ≠ b → Memory.read (diffuse c y x m) b' = Memory.read m b')

/-- 42_gen_automaton.md R150: phase (c). The eight neighbours' average is the integer quotient of their sum, each clamped
neighbour counted as often as `NBR` names it. -/
def Obligations.CoolingFollowsTheAverage : Prop :=
  ∀ (c : Cfg) (y x : Nat) (m : Memory 8),
    let p := cellAddr c y x
    let sum := (nbr.map fun d => cell m (cellAddr c (clampTo c.H (y + d.1)) (clampTo c.W (x + d.2)))).sum
    sum ≤ 2040 ∧
    cell (cool c y x m) p = (if sum / 8 < cell m p then cell m p - 1 else cell m p) ∧
    (∀ b, b ≠ p → Memory.read (cool c y x m) b = Memory.read m b)

/-- 42_gen_automaton.md R151: phase (d), with `d` = +1 for ACID and -1 for every other Effect. Above 128 the result is given
where the four cells are distinct, where both targets are one cell (the second row), where the row below is the cell itself (the
last row), and where both targets are the cell itself (the first row). -/
def Obligations.ConvectionPushesNorth : Prop :=
  ∀ (c : Cfg) (e : Effect) (y x : Nat) (m : Memory 8),
    let d : Int := if e = .acid then 1 else -1
    let p := cellAddr c y x
    let n1 := clampAddr c (y + d) x
    let n2 := clampAddr c (y + 2 * d) x
    let s1 := clampAddr c (y - d) x
    let v := cell m p
    let m' := convect c e y x m
    let t1 := min (conv1 c v) (min v (255 - cell m n1))
    (v ≤ 32 → m' = m) ∧
    (32 < v → v ≤ 128 → n1 ≠ p →
      cell m' p = v - t1 ∧ cell m' n1 = cell m n1 + t1 ∧ ∀ b, b ≠ p → b ≠ n1 → Memory.read m' b = Memory.read m b) ∧
    (32 < v → v ≤ 128 → n1 = p → ∀ b, Memory.read m' b = Memory.read m b) ∧
    (128 < v → [p, n1, n2, s1].Nodup →
      let t2 := min (conv2 c v) (min (v - t1) (255 - cell m n2))
      let t3 := min (conv3 c (cell m s1)) (min (cell m s1) (255 - (cell m n2 + t2)))
      cell m' p = v - t1 - t2 ∧ cell m' n1 = cell m n1 + t1 ∧ cell m' n2 = cell m n2 + t2 + t3 ∧
      cell m' s1 = cell m s1 - t3 ∧ ∀ b, b ∉ [p, n1, n2, s1] → Memory.read m' b = Memory.read m b) ∧
    (128 < v → [p, n1, s1].Nodup → n2 = n1 →
      let t2 := min (conv2 c v) (min (v - t1) (255 - (cell m n1 + t1)))
      let t3 := min (conv3 c (cell m s1)) (min (cell m s1) (255 - (cell m n1 + t1 + t2)))
      cell m' p = v - t1 - t2 ∧ cell m' n1 = cell m n1 + t1 + t2 + t3 ∧ cell m' s1 = cell m s1 - t3 ∧
      ∀ b, b ∉ [p, n1, s1] → Memory.read m' b = Memory.read m b) ∧
    (128 < v → [p, n1, n2].Nodup → s1 = p →
      let t2 := min (conv2 c v) (min (v - t1) (255 - cell m n2))
      let u := v - t1 - t2
      let t3 := min (conv3 c u) (min u (255 - (cell m n2 + t2)))
      cell m' p = u - t3 ∧ cell m' n1 = cell m n1 + t1 ∧ cell m' n2 = cell m n2 + t2 + t3 ∧
      ∀ b, b ∉ [p, n1, n2] → Memory.read m' b = Memory.read m b) ∧
    (128 < v → n1 = p → n2 = p → s1 ≠ p →
      let t3 := min (conv3 c (cell m s1)) (min (cell m s1) (255 - v))
      cell m' p = v + t3 ∧ cell m' s1 = cell m s1 - t3 ∧ ∀ b, b ≠ p → b ≠ s1 → Memory.read m' b = Memory.read m b)

/-- The automaton's energy balance (42_gen_automaton.md section 3): diffusion and convection conserve the layer's total, forcing
never lowers it, one cooling lowers it by at most 1. -/
def Obligations.AutomatonConservesEnergy : Prop :=
  ∀ (c : Cfg) (e : Effect) (f y x : Nat) (m : Memory 8), y < c.H → x < c.W →
    energy c (diffuse c y x m) = energy c m ∧ energy c (convect c e y x m) = energy c m ∧
    energy c m ≤ energy c (forcing c e f y x m) ∧
    energy c (cool c y x m) ≤ energy c m ∧ energy c m ≤ energy c (cool c y x m) + 1

/-- 42_gen_automaton.md R145: `BG_AUTOMATON` runs the four phases in order at the dispatch coordinates, writes the Background
only, and of it only the cell, its clamped neighbours and the cell two rows in the convection direction. -/
def Obligations.AutomatonRunsItsFourPhases : Prop :=
  ∀ (a : BgArgs) (s : State), positionOk s = true →
    ∃ t : State, exec (.bgAutomaton a) s = .next t ∧
      (let y := genRow s
       let x := s.col.toNat
       let d : Int := if a.op = .acid then 1 else -1
       t = { s with
         bg := convect s.cfg a.op y x (cool s.cfg y x (diffuse s.cfg y x
           (forcing s.cfg a.op s.frame.toNat y x s.bg))) } ∧
       ∀ b, b ≠ cellAddr s.cfg y x → b ∉ nbrAddrs s.cfg y x → b ≠ clampAddr s.cfg (y + 2 * d) x →
         Memory.read t.bg b = Memory.read s.bg b)

/-- With the default ambient amount an all-zero Background is a fixed point of WATER and ACID (42_gen_automaton.md section 3). -/
def Obligations.StillWaterStaysStill : Prop :=
  ∀ (a : BgArgs) (s : State), a.op = .water ∨ a.op = .acid → s.cfg.ambientAmt = 1 → 4 ≤ s.cfg.W → 4 ≤ s.cfg.H →
    s.bg = [] → positionOk s = true → exec (.bgAutomaton a) s = .next s

/-- `BG_FRACTAL` (43_gen_fractal_plasma_checker.md R170 and section 1): at even coordinates the 2 by 2 block, clipped to the grid,
takes `(32 - n) * 2`; at any other dispatch nothing changes. -/
def Obligations.FractalFillsItsBlock : Prop :=
  ∀ (a : BgArgs) (s : State), positionOk s = true →
    ∃ t : State, exec (.bgFractal a) s = .next t ∧ t = { s with bg := t.bg } ∧
      (let y := genRow s
       let x := s.col.toNat
       let f := s.frame.toNat
       let n := frIter (frStart s.cfg f y x).1 (frStart s.cfg f y x).2 (frParam s.cfg f).1 (frParam s.cfg f).2
       n ≤ 32 ∧
       (y % 2 = 1 ∨ x % 2 = 1 → t = s) ∧
       (y % 2 = 0 → x % 2 = 0 →
         (∀ y' x' : Nat, y' < s.cfg.H → x' < s.cfg.W →
           cell t.bg (cellAddr s.cfg y' x') =
             if y ≤ y' ∧ y' ≤ y + 1 ∧ x ≤ x' ∧ x' ≤ x + 1 then (32 - n) * 2 else cell s.bg (cellAddr s.cfg y' x')) ∧
         ∀ b, s.cfg.H * s.cfg.W ≤ b → Memory.read t.bg b = Memory.read s.bg b))

/-- 43_gen_fractal_plasma_checker.md R169: the iteration count is the number of updates made before the first point over the
threshold, at most 32. -/
def Obligations.FractalCountsItsUpdates : Prop :=
  ∀ zr zi cr ci : F32,
    let n := frIter zr zi cr ci
    n ≤ 32 ∧ (∀ k, k < n → escaped (orbit cr ci (zr, zi) k) = false) ∧
    (n < 32 → escaped (orbit cr ci (zr, zi) n) = true)

/-- `BG_PLASMA` (43_gen_fractal_plasma_checker.md section 2): at multiples of 4 the 4 by 4 block, clipped to the grid, takes the
plasma value, which is at most 254; at any other dispatch nothing changes. -/
def Obligations.PlasmaFillsItsBlock : Prop :=
  ∀ (a : BgArgs) (s : State), positionOk s = true → (∀ o ∈ s.cfg.plasmaOv, o.2 ≤ 254) →
    ∃ t : State, exec (.bgPlasma a) s = .next t ∧ t = { s with bg := t.bg } ∧
      (let y := genRow s
       let x := s.col.toNat
       let v := plasmaVal s.cfg s.frame.toNat y x
       v ≤ 254 ∧
       (y % 4 ≠ 0 ∨ x % 4 ≠ 0 → t = s) ∧
       (y % 4 = 0 → x % 4 = 0 →
         (∀ y' x' : Nat, y' < s.cfg.H → x' < s.cfg.W →
           cell t.bg (cellAddr s.cfg y' x') =
             if y ≤ y' ∧ y' ≤ y + 3 ∧ x ≤ x' ∧ x' ≤ x + 3 then v else cell s.bg (cellAddr s.cfg y' x')) ∧
         ∀ b, s.cfg.H * s.cfg.W ≤ b → Memory.read t.bg b = Memory.read s.bg b))

/-- The model's choice (log 17): a position outside the grid, or a merge with `PALACT` above 5, addresses nothing and faults. No
run reaches either (20_memory.md section 3). -/
def Obligations.PositionOffTheGridFaults : Prop :=
  ∀ s : State,
    (positionOk s = false → ∀ a : BgArgs,
      exec (.bgAutomaton a) s = .fault .outsideAddressSpace ∧ exec (.bgFractal a) s = .fault .outsideAddressSpace ∧
      exec (.bgPlasma a) s = .fault .outsideAddressSpace ∧ exec (.bgChecker a) s = .fault .outsideAddressSpace) ∧
    (∀ (e : Effect) (a : EffectArgs), videoLive s = true →
      (positionOk s = false → s.phase ≠ .boundary → exec (effectInstr e a) s = .fault .outsideAddressSpace) ∧
      (5 < s.palact.toNat → s.phase = .merge → exec (effectInstr e a) s = .fault .outsideAddressSpace))

/-! ### Foreground -/

/-- 44_gen_wireframe_text.md R190: at the first dispatch of a frame `WIRE_CUBE` and `WIRE_GEM` halve every Foreground cell, then
write the wire intensity to every grid cell that lies on an edge of the shape; at any other dispatch they do nothing. -/
def Obligations.WireRowsFadeAndRedraw : Prop :=
  ∀ (w : WireSel) (a : WireArgs) (s : State), w ≠ .none →
    (firstDispatch s = false → exec (wireInstr w a) s = .next s) ∧
    (firstDispatch s = true →
      ∃ t : State, exec (wireInstr w a) s = .next t ∧ t = { s with fg := t.fg } ∧
        (∀ y x : Nat, y < s.cfg.H → x < s.cfg.W →
          (onEdge s (decide (w = .gem)) ((x : Int), (y : Int)) →
            Memory.read t.fg (cellAddr s.cfg y x) = s.cfg.wireInt) ∧
          (¬ onEdge s (decide (w = .gem)) ((x : Int), (y : Int)) →
            cell t.fg (cellAddr s.cfg y x) = cell s.fg (cellAddr s.cfg y x) / 2)) ∧
        ∀ b, s.cfg.H * s.cfg.W ≤ b → Memory.read t.fg b = Memory.read s.fg b)

/-- 44_gen_wireframe_text.md R203: `LINE` visits the points of the rule's loop until it stands on the end point, which is after
`max(abs(x1 - x0), abs(y1 - y0))` turns and not before; the first point is the start. -/
def Obligations.LineVisitsItsPoints : Prop :=
  ∀ p q : Int × Int,
    let n := max (q.1 - p.1).natAbs (q.2 - p.2).natAbs
    linePoints p q = (List.range (n + 1)).map (fun k => (lineLoop p q k).1) ∧
    (lineLoop p q 0).1 = p ∧ (lineLoop p q n).1 = q ∧ ∀ k, k < n → (lineLoop p q k).1 ≠ q

/-- A triangle with three equal vertices is drawn as the one point they project to (44_gen_wireframe_text.md, Rasterisation). -/
def Obligations.DegenerateTriangleIsAPoint : Prop :=
  ∀ (c : Cfg) (geo : Memory 32) (gem : Bool) (f tri : Nat) (m : Memory 8),
    geoVertex geo gem tri 1 = geoVertex geo gem tri 0 → geoVertex geo gem tri 2 = geoVertex geo gem tri 0 →
    ∀ b, Memory.read (drawTriangle c geo gem f tri m) b =
      Memory.read (clipWrite c m (project c (geoVertex geo gem tri 0) f).2 (project c (geoVertex geo gem tri 0) f).1 c.wireInt) b

/-- 44_gen_wireframe_text.md R201: `TOINT` of a NaN is 0; of any other word the truncation of the saturated value; always a signed
16-bit integer. The bounds are the words of 32767.0 and -32768.0. The truncation is toward zero (00_scope.md R13): the word's
sign over the integer quotient of its magnitude, which counts units of 2^-149, by 2^149. -/
def Obligations.ScreenCoordinateIsSixteenBit : Prop :=
  ∀ s : F32, -32768 ≤ toInt s ∧ toInt s ≤ 32767 ∧
    (f32IsNaN s = true → toInt s = 0) ∧
    (f32Gt s 0x46FFFE00#32 = true → toInt s = 32767) ∧
    (f32Gt 0xC7000000#32 s = true → toInt s = -32768) ∧
    (f32IsNaN s = false → f32Gt s 0x46FFFE00#32 = false → f32Gt 0xC7000000#32 s = false →
      f32IsFinite s = true ∧
      toInt s = if f32Neg s then -((f32Units s / 2 ^ 149 : Nat) : Int) else ((f32Units s / 2 ^ 149 : Nat) : Int)) ∧
    (f32IsFinite s = true → f32Trunc s = (f32Int s).tdiv (2 ^ 149))

/-- 44_gen_wireframe_text.md R224: a blit writes the intensity to the grid cells of the mask's set cells and leaves every other. -/
def Obligations.GlyphWritesItsSetCells : Prop :=
  ∀ (c : Cfg) (mask : BitVec 15) (x0 y0 : Int) (scale : Nat) (inten : Byte) (m : Memory 8),
    (∀ y x : Nat, y < c.H → x < c.W →
      (onGlyph mask x0 y0 scale y x → Memory.read (glyphBlit c mask x0 y0 scale inten m) (cellAddr c y x) = inten) ∧
      (¬ onGlyph mask x0 y0 scale y x →
        Memory.read (glyphBlit c mask x0 y0 scale inten m) (cellAddr c y x) = Memory.read m (cellAddr c y x))) ∧
    ∀ b, c.H * c.W ≤ b → Memory.read (glyphBlit c mask x0 y0 scale inten m) b = Memory.read m b

/-- 44_gen_wireframe_text.md R223 and section 2 (R220, R221, R226): a string without a newline is its glyphs from left to right, 4 cells apart; a newline
returns the pen to the event's column, 6 cells lower. At the first dispatch of a frame the text unit draws, in list order, the
strings of the events that are active: a `WINDOW` event from frame `f0` to before `f1`, a `TERMINAL` event under END. At any other dispatch, and with no active event, it changes nothing. The Effect is the
unit's operand `e`. -/
def Obligations.StringsAreDrawnByThePen : Prop :=
  (∀ (c : Cfg) (ev : TextEvent) (l : List Char) (x y : Int) (m : Memory 8), '\n' ∉ l →
    drawChars c ev l x y m =
      l.zipIdx.foldl (fun m p => glyphBlit c (fontMask c p.1) (x + 4 * ev.scale * p.2) y ev.scale ev.inten m) m) ∧
  (∀ (c : Cfg) (ev : TextEvent) (l l' : List Char) (x y : Int) (m : Memory 8), '\n' ∉ l →
    drawChars c ev (l ++ '\n' :: l') x y m =
      drawChars c ev l' ev.x (y + 6 * ev.scale) (drawChars c ev l x y m)) ∧
  (∀ (c : Cfg) (ev : TextEvent) (m : Memory 8), drawString c m ev = drawChars c ev ev.str ev.x ev.y m) ∧
  (∀ (e : Effect) (s : State),
    firstDispatch s = false ∨ (∀ ev ∈ s.cfg.textEvents, eventActive ev e s.frame.toNat = false) → textUnit e s = s) ∧
  (∀ (ev : TextEvent) (e : Effect) (f : Nat), eventActive ev e f = true ↔
    (∃ f0 f1, ev.kind = .window f0 f1 ∧ f0 ≤ f ∧ f < f1) ∨ (ev.kind = .terminal ∧ e = .theEnd)) ∧
  (∀ (e : Effect) (s : State), firstDispatch s = true →
    textUnit e s = { s with
      fg := s.cfg.textEvents.foldl
        (fun m ev => if eventActive ev e s.frame.toNat then drawString s.cfg m ev else m) s.fg })

/-! ### Policy rows -/

/-- 41_sequencer.md R130, R135, R136, R137: a `POLICY` row resets the whole Background by its policy and clears the whole
Foreground, and touches nothing else. -/
def Obligations.PolicyRowsResetTheLayers : Prop :=
  ∀ (p : Policy) (a : PolicyArgs) (s : State),
    ∃ t : State, exec (policyInstr p a) s = .next t ∧ t = { s with bg := t.bg, fg := t.fg } ∧
      (∀ b, b < s.cfg.H * s.cfg.W → cell t.bg b = policyValue p (cell s.bg b) ∧ Memory.read t.fg b = 0#8) ∧
      (∀ b, s.cfg.H * s.cfg.W ≤ b → Memory.read t.bg b = Memory.read s.bg b ∧ Memory.read t.fg b = Memory.read s.fg b)

/-! ### Ports -/

/-- 45_compositor_handoff.md R240: `ROWRD idx` answers the `W` colour words of row `idx`, in column order, in every state of the
block, and changes no state of the block. -/
def Obligations.RowRequestReturnsTheRow : Prop :=
  ∀ (idx : BitVec 13) (s : State), idx.toNat < s.cfg.H → 0 < s.cfg.W →
    exec (.rowrd 0#3 idx) s = .next { s with
      rowReq := none
      rowReply := (List.range s.cfg.W).map fun x => Memory.read s.comp (idx.toNat * s.cfg.W + x) }

/-- 45_compositor_handoff.md R242: a request that names no row is answered by `W` words of unspecified value and changes no state
of the block. The words are free values, cut to the colour's width (log 8, log 18). -/
def Obligations.RowRequestOutsideGivesFreeWords : Prop :=
  ∀ (zero : BitVec 3) (idx : BitVec 13) (s : State), zero ≠ 0#3 ∨ s.cfg.H ≤ idx.toNat → 0 < s.cfg.W →
    exec (.rowrd zero idx) s = .next { s with
      rowReq := none
      rowReply := (List.range s.cfg.W).map fun x => colorOf s.cfg (Config.freeWord (s.free + x))
      free := s.free + s.cfg.W }

/-- A row read is separate word reads (45_compositor_handoff.md section 3): each delivers the whole word that COMP holds when it is
taken, whatever Context A has done since the request; the last closes the request. -/
def Obligations.RowWordIsReadWhenTaken : Prop :=
  ∀ (s : State) (idx : BitVec 13) (x : Nat) (rest : List Event), cfgAccepted s = true → s.events = .rowWord :: rest →
    s.rowReq = some ⟨encodeRow 0#3 idx, x⟩ → idx.toNat < s.cfg.H →
    step s = .next { s with
      events := rest
      rowReply := s.rowReply ++ [Memory.read s.comp (idx.toNat * s.cfg.W + x)]
      rowReq := if x + 1 < s.cfg.W then some ⟨encodeRow 0#3 idx, x + 1⟩ else none }

/-- 46_audio.md R257, R258: an enabled, not halted streamer answers `AUDRD n` with the `n` samples that the cursor's positions
select, the cursor advancing by `AUD_STEP` a sample and saturating at the end; otherwise `n` zeros with the cursor unchanged.
With the default `WIDEN` a sample is `(s - 128) * 256` (46_audio.md R261). -/
def Obligations.AudioRequestReadsThePayload : Prop :=
  (∀ (n : BitVec 16) (s : State), audioLive s = true → s.audReq = none → s.audPos.toNat ≤ audEnd s.cfg →
    audEnd s.cfg < 2 ^ 32 →
    exec (.audrd n) s = .next { s with
      audPos := BitVec.ofNat 32 (cursorAfter s n.toNat)
      audReply := (List.range n.toNat).map fun k => widen s.cfg (payloadAt s.cfg (cursorAfter s k)) }) ∧
  (∀ (n : BitVec 16) (s : State), audioLive s = false → s.audReq = none →
    exec (.audrd n) s = .next { s with audReply := List.replicate n.toNat 0#16 }) ∧
  (∀ (c : Cfg) (b : Byte), c.widenOv = [] → (widen c b).toInt = ((b.toNat : Int) - 128) * 256)

/-- A request in service is served to completion before the next is taken, and before a fatal event halts the block (46_audio.md
section 1, 60_exceptions.md section 1; DEDUCED, log 11 and log 12). -/
def Obligations.AudioRequestIsServedToCompletion : Prop :=
  ∀ (s : State) (a : AudioService), s.audReq = some a → 0 < a.left → s.audPos.toNat ≤ audEnd s.cfg → audEnd s.cfg < 2 ^ 32 →
    ∃ u : State,
      u = { s with
        audReq := none
        audPos := if a.live then BitVec.ofNat 32 (cursorAfter s a.left) else s.audPos
        audReply := s.audReply ++ (List.range a.left).map fun k =>
          if a.live then widen s.cfg (payloadAt s.cfg (cursorAfter s k)) else 0#16 } ∧
      (∀ n, exec (.audrd n) s = exec (.audrd n) u) ∧
      (∀ code, s.halted = false → raiseFatal code s = { u with diag := code, halted := true })

/-- The audio cursor stays within the payload, never falls back and stays at the end once there, but for a reset (46_audio.md
section 1). -/
def Obligations.AudioCursorNeverFallsBack : Prop :=
  ∀ s t : State, s.audPos.toNat ≤ audEnd s.cfg → audEnd s.cfg < 2 ^ 32 → resetNext s = false → step s = .next t →
    s.audPos.toNat ≤ t.audPos.toNat ∧ t.audPos.toNat ≤ audEnd s.cfg ∧
    (s.audPos.toNat = audEnd s.cfg → t.audPos = s.audPos)

/-! ### The host -/

/-- The host register block (10_state.md section 5): what each readable register reads as, in every state and after reset, and that
a write changes `AUD_STEP` at its own offset, for the next live sample to add, and nothing at a read-only one. The writes of
`CTRL_R` and `FAIL_R` are other statements'. That `SCAN_R` shows the generated row `LEAD` after reset, as R43 has it, where
the table of R37 has 0, is the model's choice (log 20). -/
def Obligations.HostRegistersShowTheState : Prop :=
  (∀ (s : State) (off : BitVec 32) (rest : List Event), cfgAccepted s = true → s.events = .hostRead off 4 :: rest →
    off.toNat % 4 = 0 →
    step s = .next { s with events := rest, hostData := regRead s off }) ∧
  (∀ s : State,
    ((regRead s 0x00#32).getLsbD 0 = s.vidEn ∧ (regRead s 0x00#32).getLsbD 1 = s.audEn ∧
      (regRead s 0x00#32).extractLsb' 2 30 = 0#30) ∧
    ((regRead s 0x04#32).getLsbD 0 = s.tblRdy ∧ (regRead s 0x04#32).getLsbD 1 = s.prologueDone ∧
      (regRead s 0x04#32).getLsbD 2 = decide (s.effect = 8#4) ∧ (regRead s 0x04#32).getLsbD 3 = s.halted ∧
      (regRead s 0x04#32).extractLsb' 4 4 = s.diag ∧ (regRead s 0x04#32).extractLsb' 8 24 = 0#24) ∧
    regRead s 0x08#32 = s.frame ∧
    ((regRead s 0x0C#32).extractLsb' 0 4 = s.effect ∧ (regRead s 0x0C#32).extractLsb' 4 3 = s.palact ∧
      (regRead s 0x0C#32).extractLsb' 7 25 = 0#25) ∧
    regRead s 0x10#32 = s.countdown.setWidth 32 ∧
    ((regRead s 0x14#32).extractLsb' 0 13 = s.scan ∧ (regRead s 0x14#32).extractLsb' 13 3 = 0#3 ∧
      (regRead s 0x14#32).extractLsb' 29 3 = 0#3 ∧
      (s.cfg.H ≤ 2 ^ 13 → s.scan.toNat < s.cfg.H →
        ((regRead s 0x14#32).extractLsb' 16 13).toNat = (s.scan.toNat + s.cfg.LEAD) % s.cfg.H) ∧
      (s.scan.toNat = s.cfg.H → (regRead s 0x14#32).extractLsb' 16 13 = 0#13)) ∧
    regRead s 0x18#32 = s.audPos ∧ regRead s 0x1C#32 = s.audStep ∧
    ((regRead s 0x24#32).extractLsb' 0 16 = BitVec.ofNat 16 s.cfg.W ∧
      (regRead s 0x24#32).extractLsb' 16 16 = BitVec.ofNat 16 s.cfg.H)) ∧
  (∀ c : Cfg, c.LEAD < c.H → c.H ≤ 2 ^ 13 → let s := State.resetWith c
    regRead s 0x00#32 = 0#32 ∧ regRead s 0x04#32 = 0#32 ∧ regRead s 0x08#32 = 0#32 ∧
    (regRead s 0x0C#32).toNat = (palselOf c 0).toNat * 2 ^ 4 ∧
    (regRead s 0x10#32).toNat = max ((durOf c 0).toNat - 1) 0 ∧ (regRead s 0x14#32).toNat = c.LEAD * 2 ^ 16 ∧
    regRead s 0x18#32 = 0#32 ∧ regRead s 0x1C#32 = c.audStepReset ∧ regRead s 0x20#32 = 0#32) ∧
  (∀ (s : State) (v : BitVec 32) (rest : List Event), cfgAccepted s = true → s.events = .hostWrite 0x1C#32 4 v :: rest →
    step s = .next { s with events := rest, audStep := v }) ∧
  (∀ (s : State) (v : BitVec 32) (a : AudioService), s.audReq = some a → a.live = true →
    (audioSample { s with audStep := v }).audPos = BitVec.ofNat 32 (min (s.audPos.toNat + v.toNat) (audEnd s.cfg))) ∧
  (∀ (s : State) (off v : BitVec 32) (rest : List Event), cfgAccepted s = true → s.events = .hostWrite off 4 v :: rest →
    off ∈ [0x04#32, 0x08#32, 0x0C#32, 0x10#32, 0x14#32, 0x18#32, 0x24#32] → step s = .next { s with events := rest })

/-- An access of another width or at an offset that is no multiple of 4, and any access at an unmapped offset: a read gives 0, a
write changes nothing (20_memory.md R73; for malformed accesses the model gives the block's own answer, log 13). -/
def Obligations.OtherHostAccessesDoNothing : Prop :=
  ∀ (s : State) (off : BitVec 32) (bytes : Nat) (rest : List Event),
    cfgAccepted s = true → bytes ≠ 4 ∨ off.toNat % 4 ≠ 0 ∨ 0x28 ≤ off.toNat →
    (s.events = .hostRead off bytes :: rest → step s = .next { s with events := rest, hostData := 0#32 }) ∧
    (∀ v, s.events = .hostWrite off bytes v :: rest → step s = .next { s with events := rest })

/-- 10_state.md R38 and 70_reset_and_hazards.md R345: `CTRL_R` reads the two enables; a write sets each enable whose bit is 1,
provided `TBL_RDY = 1` and `HALTED = 0`, and clears none; an enable once set stays set until reset. -/
def Obligations.EnablesAreGatedAndSticky : Prop :=
  (∀ s : State, (regRead s 0#32).getLsbD 0 = s.vidEn ∧ (regRead s 0#32).getLsbD 1 = s.audEn ∧
    (regRead s 0#32).extractLsb' 2 30 = 0#30) ∧
  (∀ (s : State) (v : BitVec 32) (rest : List Event), cfgAccepted s = true → s.events = .hostWrite 0#32 4 v :: rest →
    step s = .next { s with
      events := rest
      vidEn := if s.tblRdy = true ∧ s.halted = false then s.vidEn || v.getLsbD 0 else s.vidEn
      audEn := if s.tblRdy = true ∧ s.halted = false then s.audEn || v.getLsbD 1 else s.audEn }) ∧
  (∀ s t : State, resetNext s = false → step s = .next t →
    (s.vidEn = true → t.vidEn = true) ∧ (s.audEn = true → t.audEn = true))

/-- 10_state.md R46 and 60_exceptions.md R304: a write to `FAIL_R` of a non-zero code halts the block and records the code;
nothing happens where the code is 0 or the block is halted already; `FAIL_R` reads 0. (An audio request in service at the write
is another statement's, log 11.) -/
def Obligations.FatalWriteHaltsTheBlock : Prop :=
  (∀ s : State, regRead s 0x20#32 = 0#32) ∧
  (∀ (s : State) (v : BitVec 32) (rest : List Event), cfgAccepted s = true → s.events = .hostWrite 0x20#32 4 v :: rest →
    (v.toNat % 16 ≠ 0 → s.halted = false → s.audReq = none →
      step s = .next { s with events := rest, diag := BitVec.ofNat 4 (v.toNat % 16), halted := true }) ∧
    (v.toNat % 16 = 0 ∨ s.halted = true → step s = .next { s with events := rest }))

/-- A halted block keeps every register and memory but `AUD_STEP`, which the host may still write; its ports still answer
(60_exceptions.md section 2). -/
def Obligations.HaltedBlockIsFrozen : Prop :=
  ∀ s t : State, Inv s → s.halted = true → resetNext s = false → step s = .next t →
    t = { s with
      events := t.events, audStep := t.audStep, rowReq := t.rowReq, rowReply := t.rowReply, free := t.free
      audReq := t.audReq, audReply := t.audReply, hostData := t.hostData }

/-! ### Tables -/

/-- 40_table_builders.md R111, R113: the build step writes every entry of every palette by its segment's ramps and sets `TBL_RDY`;
entry 0 of each palette is colour 0, entry 255 is not written. -/
def Obligations.BuildFillsThePalettes : Prop :=
  ∀ s : State, s.events = [] → buildDue s = true → cfgWf s.cfg = true →
    ∃ t : State, step s = .next t ∧ t = { s with pal := t.pal, geo := t.geo, tblRdy := true } ∧
      ∀ p, p < 6 →
        (∀ sg ∈ (s.cfg.palSeed[p]?).getD [], ∀ i, sg.i0 ≤ i → i ≤ sg.i1 →
          Memory.read t.pal (p * 256 + i) =
            pack s.cfg (ramp sg.r0 sg.r1 sg.i0 sg.i1 i) (ramp sg.g0 sg.g1 sg.i0 sg.i1 i) (ramp sg.b0 sg.b1 sg.i0 sg.i1 i)) ∧
        Memory.read t.pal (p * 256) = 0#32 ∧
        Memory.read t.pal (p * 256 + 255) = Memory.read s.pal (p * 256 + 255)

/-- 40_table_builders.md R114: the ramp interpolates, in integers rounded down, from `c0` at `i0` to `c1` at `i1`, within them and
never falling; a one-index ramp is `c0`. -/
def Obligations.RampRisesBetweenItsEnds : Prop :=
  ∀ c0 c1 i0 i1 : Nat, c0 ≤ c1 → i0 ≤ i1 →
    (i1 = i0 → ∀ i, ramp c0 c1 i0 i1 i = c0) ∧
    (i0 < i1 → ∀ i, i0 ≤ i → i ≤ i1 →
      ramp c0 c1 i0 i1 i = c0 + ((c1 - c0) * (i - i0)) / (i1 - i0) ∧
      c0 ≤ ramp c0 c1 i0 i1 i ∧ ramp c0 c1 i0 i1 i ≤ c1) ∧
    ramp c0 c1 i0 i1 i0 = c0 ∧ (i0 < i1 → ramp c0 c1 i0 i1 i1 = c1) ∧
    (∀ i j, i0 ≤ i → i ≤ j → j ≤ i1 → ramp c0 c1 i0 i1 i ≤ ramp c0 c1 i0 i1 j)

/-- 40_table_builders.md R117, R118: the build step writes the cube's 12 triangles and the gem's 10. The cube's table names each
vertex by three signs, read here as a number: 4 for `+x`, 2 for `+y`, 1 for `+z`. -/
def Obligations.BuildFillsTheGeometry : Prop :=
  ∀ s : State, s.events = [] → buildDue s = true → cfgWf s.cfg = true →
    ∃ t : State, step s = .next t ∧
      (let S := s.cfg.geoCubeS
       let coord := fun (b : Bool) => if b then S else f32Negate S
       let table : List (List Nat) :=
         [[0, 2, 6], [0, 6, 4], [4, 6, 7], [4, 7, 5], [5, 7, 3], [5, 3, 1], [1, 3, 2], [1, 2, 0], [2, 3, 7], [2, 7, 6],
          [5, 1, 0], [5, 0, 4]]
       ∀ tri j n, ((table[tri]?).getD [])[j]? = some n →
         geoVertex t.geo false tri j = (coord (n.testBit 2), coord (n.testBit 1), coord (n.testBit 0))) ∧
      (let T : Vertex := (0#32, s.cfg.geoGemA, 0#32)
       let U : Vertex := (0#32, f32Sub 0#32 s.cfg.geoGemA, 0#32)
       ∀ k, k < 5 →
         geoVertex t.geo true k 0 = T ∧ geoVertex t.geo true k 1 = pentagon s.cfg k ∧
         geoVertex t.geo true k 2 = pentagon s.cfg ((k + 1) % 5) ∧
         geoVertex t.geo true (5 + k) 0 = U ∧ geoVertex t.geo true (5 + k) 1 = pentagon s.cfg ((k + 1) % 5) ∧
         geoVertex t.geo true (5 + k) 2 = pentagon s.cfg k)

/-! ### Arithmetic -/

/-- The model's rounding is IEEE's round to nearest, ties to even (00_scope.md section 5): for a non-negative fraction `n / d` in
units of 2^-149, the answer is infinity exactly from the overflow threshold on; otherwise no magnitude is nearer, and of two
equally near the answer is the even one. A magnitude that is representable is its own rounding. -/
def Obligations.RoundingIsToNearestEven : Prop :=
  (∀ n d : Nat, 0 < d →
    let r := roundMag n d
    (r = infMag ↔ (2 ^ 25 - 1) * 2 ^ 252 * d ≤ n) ∧
    (r < infMag → ∀ y, y < infMag →
      |(n : Int) - d * f32Units (f32Of false r)| ≤ |(n : Int) - d * f32Units (f32Of false y)| ∧
      (|(n : Int) - d * f32Units (f32Of false r)| = |(n : Int) - d * f32Units (f32Of false y)| → y ≠ r → r % 2 = 0))) ∧
  (∀ x : F32, f32IsFinite x = true → roundMag (f32Units x) 1 = f32Mag x)
end

