-- ==== Sys2Proof/Laws/Encode.lean ====
section
/-! SUPPORT. The bits of an assembled descriptor word, field by field (30_encoding.md R92). -/

namespace Sys2Proof

/-- Each bit of a descriptor word is a bit of one field. -/
theorem encodeDescr_getLsbD (d : Descr) (i : Nat) :
    (encodeDescr d).getLsbD i =
      if i < 16 then d.dur.getLsbD i
      else if i < 19 then d.pal.getLsbD (i - 16)
      else if i < 21 then d.policy.code.getLsbD (i - 19)
      else if i < 24 then d.bg.code.getLsbD (i - 21)
      else if i < 26 then d.wire.code.getLsbD (i - 24)
      else if i < 28 then false
      else d.op.code.getLsbD (i - 28) := by
  have h {m n : Nat} (x : BitVec m) (y : BitVec n) (i : Nat) :
      (x ++ y).getLsbD i = if i < n then y.getLsbD i else x.getLsbD (i - n) := by
    rw [BitVec.getLsbD_append]
  refine (h _ d.dur i).trans ?_
  by_cases h0 : i < 16
  · simp only [h0, if_true]
  rw [if_neg h0, if_neg h0]
  refine (h _ d.pal _).trans ?_
  by_cases h1 : i < 19
  · rw [if_pos h1, if_pos (by omega)]
  rw [if_neg h1, if_neg (by omega)]
  refine (h _ d.policy.code _).trans ?_
  by_cases h2 : i < 21
  · rw [if_pos h2, if_pos (by omega), show i - 16 - 3 = i - 19 by omega]
  rw [if_neg h2, if_neg (by omega)]
  refine (h _ d.bg.code _).trans ?_
  by_cases h3 : i < 24
  · rw [if_pos h3, if_pos (by omega), show i - 16 - 3 - 2 = i - 21 by omega]
  rw [if_neg h3, if_neg (by omega)]
  refine (h _ d.wire.code _).trans ?_
  by_cases h4 : i < 26
  · rw [if_pos h4, if_pos (by omega), show i - 16 - 3 - 2 - 3 = i - 24 by omega]
  rw [if_neg h4, if_neg (by omega)]
  refine (h d.op.code (0#2) _).trans ?_
  by_cases h5 : i < 28
  · rw [if_pos h5, if_pos (by omega)]; simp
  · rw [if_neg h5, if_neg (by omega), show i - 16 - 3 - 2 - 3 - 2 - 2 = i - 28 by omega]

end Sys2Proof
end

