-- ==== Sys2Proof/Laws/Memory.lean ====
section
/-! SUPPORT. The laws of memories: read after write, the canonical form, sweeps, clipped writes. -/

namespace Sys2Proof.Machine

variable {w : Nat}

@[simp] theorem Memory.read_nil (a : Nat) : Memory.read ([] : Memory w) a = 0#w := rfl

theorem Memory.read_cons (k : Nat) (v : BitVec w) (t : Memory w) (a : Nat) :
    Memory.read ((k, v) :: t) a = if k = a then v else Memory.read t a := rfl

theorem Memory.read_put (m : Memory w) (a b : Nat) (v : BitVec w) :
    Memory.read (Memory.put m a v) b = if b = a then v else Memory.read m b := by
  induction m with
  | nil => simp [Memory.put, Memory.read_cons, eq_comm]
  | cons p t ih =>
    obtain ⟨k, u⟩ := p
    simp only [Memory.put]
    split
    · simp [Memory.read_cons, eq_comm]
    · split
      · subst_vars
        simp only [Memory.read_cons, eq_comm]
        split <;> simp_all
      · simp only [Memory.read_cons, ih]
        by_cases hk : k = b
        · rw [if_pos hk, if_pos hk, if_neg (by omega)]
        · rw [if_neg hk, if_neg hk]

theorem Memory.read_filter (m : Memory w) (a b : Nat) :
    Memory.read (m.filter fun p => decide (p.1 ≠ a)) b = if b = a then 0#w else Memory.read m b := by
  induction m with
  | nil => simp
  | cons p t ih =>
    obtain ⟨k, u⟩ := p
    by_cases hk : k = a
    · subst hk
      simp only [ne_eq, not_true_eq_false, decide_false, Bool.false_eq_true, not_false_eq_true, List.filter_cons_of_neg,
        Memory.read_cons] at ih ⊢
      rw [ih]
      by_cases hb : b = k
      · simp [hb]
      · simp [hb, Ne.symm hb]
    · simp only [ne_eq, hk, not_false_eq_true, decide_true, List.filter_cons_of_pos, Memory.read_cons] at ih ⊢
      rw [ih]
      by_cases hb : b = a
      · subst hb
        simp [hk]
      · simp [hb]

/-- A read after a write gives the value written at its address and what was there at every other. -/
theorem Memory.read_write (m : Memory w) (a b : Nat) (v : BitVec w) :
    Memory.read (Memory.write m a v) b = if b = a then v else Memory.read m b := by
  unfold Memory.write
  split
  · rename_i hv
    rw [Memory.read_filter, hv]
  · exact Memory.read_put m a b v

@[simp] theorem Memory.read_write_same (m : Memory w) (a : Nat) (v : BitVec w) :
    Memory.read (Memory.write m a v) a = v := by
  simp [Memory.read_write]

theorem Memory.read_write_other (m : Memory w) {a b : Nat} (h : b ≠ a) (v : BitVec w) :
    Memory.read (Memory.write m a v) b = Memory.read m b := by
  simp [Memory.read_write, h]

/-! ### The canonical form -/

theorem Memory.wfFrom_mono {lo lo' : Nat} (h : lo' ≤ lo) {m : Memory w} (hm : Memory.wfFrom lo m = true) :
    Memory.wfFrom lo' m = true := by
  cases m with
  | nil => rfl
  | cons p t =>
    simp only [Memory.wfFrom, Bool.and_eq_true, decide_eq_true_eq] at hm ⊢
    exact ⟨⟨le_trans h hm.1.1, hm.1.2⟩, hm.2⟩

theorem Memory.wfFrom_put {v : BitVec w} (hv : v ≠ 0#w) (a : Nat) :
    ∀ (m : Memory w) (lo : Nat), lo ≤ a → Memory.wfFrom lo m = true → Memory.wfFrom lo (Memory.put m a v) = true := by
  intro m
  induction m with
  | nil => intro lo h _; simp [Memory.put, Memory.wfFrom, h, hv]
  | cons p t ih =>
    obtain ⟨k, u⟩ := p
    intro lo h hm
    simp only [Memory.wfFrom, Bool.and_eq_true, decide_eq_true_eq] at hm
    simp only [Memory.put]
    split
    · rename_i hak
      simp only [Memory.wfFrom, Bool.and_eq_true, decide_eq_true_eq]
      exact ⟨⟨h, hv⟩, ⟨hak, hm.1.2⟩, hm.2⟩
    · split
      · subst_vars
        simp only [Memory.wfFrom, Bool.and_eq_true, decide_eq_true_eq]
        exact ⟨⟨h, hv⟩, hm.2⟩
      · simp only [Memory.wfFrom, Bool.and_eq_true, decide_eq_true_eq]
        exact ⟨⟨hm.1.1, hm.1.2⟩, ih (k + 1) (by omega) hm.2⟩

theorem Memory.wfFrom_filter (q : Nat × BitVec w → Bool) :
    ∀ (m : Memory w) (lo : Nat), Memory.wfFrom lo m = true → Memory.wfFrom lo (m.filter q) = true := by
  intro m
  induction m with
  | nil => intro lo _; rfl
  | cons p t ih =>
    obtain ⟨k, u⟩ := p
    intro lo hm
    simp only [Memory.wfFrom, Bool.and_eq_true, decide_eq_true_eq] at hm
    by_cases hq : q (k, u) = true
    · rw [List.filter_cons_of_pos hq]
      simp only [Memory.wfFrom, Bool.and_eq_true, decide_eq_true_eq]
      exact ⟨hm.1, ih _ hm.2⟩
    · rw [List.filter_cons_of_neg hq]
      exact Memory.wfFrom_mono (by omega) (ih _ hm.2)

/-- A write keeps the canonical form. -/
theorem Memory.wf_write {m : Memory w} (hm : Memory.wf m = true) (a : Nat) (v : BitVec w) :
    Memory.wf (Memory.write m a v) = true := by
  unfold Memory.write
  split
  · exact Memory.wfFrom_filter _ m 0 hm
  · rename_i hv
    exact Memory.wfFrom_put hv a m 0 (Nat.zero_le _) hm

theorem Memory.below_put {n a : Nat} (ha : a < n) {m : Memory w} (hm : Memory.below n m = true) (v : BitVec w) :
    Memory.below n (Memory.put m a v) = true := by
  induction m with
  | nil => simpa [Memory.put, Memory.below] using ha
  | cons p t ih =>
    obtain ⟨k, u⟩ := p
    simp only [Memory.below, List.all_cons, Bool.and_eq_true, decide_eq_true_eq] at hm ih ⊢
    simp only [Memory.put]
    split
    · simpa [ha, hm.1] using hm.2
    · split
      · simpa [ha] using hm.2
      · simp only [List.all_cons, Bool.and_eq_true, decide_eq_true_eq]
        exact ⟨hm.1, ih hm.2⟩

/-- A write inside a size keeps every listed address inside it. -/
theorem Memory.below_write {n a : Nat} (ha : a < n) {m : Memory w} (hm : Memory.below n m = true) (v : BitVec w) :
    Memory.below n (Memory.write m a v) = true := by
  unfold Memory.write
  split
  · simp only [Memory.below, List.all_eq_true, List.mem_filter] at hm ⊢
    exact fun p hp => hm p hp.1
  · exact Memory.below_put ha hm v

theorem Memory.valuesBelow_put {n a : Nat} {v : BitVec w} (hv : v.toNat < n) {m : Memory w}
    (hm : Memory.valuesBelow n m = true) : Memory.valuesBelow n (Memory.put m a v) = true := by
  induction m with
  | nil => simpa [Memory.put, Memory.valuesBelow] using hv
  | cons p t ih =>
    obtain ⟨k, u⟩ := p
    simp only [Memory.valuesBelow, List.all_cons, Bool.and_eq_true, decide_eq_true_eq] at hm ih ⊢
    simp only [Memory.put]
    split
    · simpa [hv, hm.1] using hm.2
    · split
      · simpa [hv] using hm.2
      · simp only [List.all_cons, Bool.and_eq_true, decide_eq_true_eq]
        exact ⟨hm.1, ih hm.2⟩

/-- A write of a bounded word keeps every listed word bounded. -/
theorem Memory.valuesBelow_write {n a : Nat} {v : BitVec w} (hv : v.toNat < n) {m : Memory w}
    (hm : Memory.valuesBelow n m = true) : Memory.valuesBelow n (Memory.write m a v) = true := by
  unfold Memory.write
  split
  · simp only [Memory.valuesBelow, List.all_eq_true, List.mem_filter] at hm ⊢
    exact fun p hp => hm p hp.1
  · exact Memory.valuesBelow_put hv hm

/-- What a memory of bounded words reads is bounded, an unlisted address's 0 too. -/
theorem Memory.read_lt {n : Nat} (hn : 0 < n) {m : Memory w} (hm : Memory.valuesBelow n m = true) (a : Nat) :
    (Memory.read m a).toNat < n := by
  induction m with
  | nil => simpa using hn
  | cons p t ih =>
    obtain ⟨k, u⟩ := p
    simp only [Memory.valuesBelow, List.all_cons, Bool.and_eq_true, decide_eq_true_eq] at hm ih
    rw [Memory.read_cons]
    split
    · exact hm.1
    · exact ih hm.2

/-- An address outside a size that bounds the memory reads 0. -/
theorem Memory.read_of_below {n a : Nat} {m : Memory w} (hm : Memory.below n m = true) (ha : n ≤ a) :
    Memory.read m a = 0#w := by
  induction m with
  | nil => rfl
  | cons p t ih =>
    obtain ⟨k, u⟩ := p
    simp only [Memory.below, List.all_cons, Bool.and_eq_true, decide_eq_true_eq] at hm ih
    rw [Memory.read_cons, if_neg (by omega)]
    exact ih hm.2

/-! ### Sweeps -/

/-- A sweep leaves the word at its size and above. -/
theorem Memory.read_sweep_above (f : BitVec w → BitVec w) (m : Memory w) {k n : Nat} (hk : k ≤ n) :
    Memory.read (Memory.sweep f k m) n = Memory.read m n := by
  induction k with
  | zero => rfl
  | succ k ih =>
    simp only [Memory.sweep]
    rw [Memory.read_write_other _ (by omega), ih (by omega)]

/-- A sweep replaces the words below its size and no other. -/
theorem Memory.read_sweep (f : BitVec w → BitVec w) (n : Nat) (m : Memory w) (a : Nat) :
    Memory.read (Memory.sweep f n m) a = if a < n then f (Memory.read m a) else Memory.read m a := by
  induction n with
  | zero => simp [Memory.sweep]
  | succ n ih =>
    simp only [Memory.sweep, Memory.read_write]
    split
    · subst_vars
      rw [Memory.read_sweep_above f m le_rfl, if_pos (Nat.lt_succ_self _)]
    · rw [ih]
      by_cases h : a < n
      · simp [h, Nat.lt_succ_of_lt h]
      · rw [if_neg h, if_neg (by omega)]

theorem Memory.wf_sweep (f : BitVec w → BitVec w) (n : Nat) {m : Memory w} (hm : Memory.wf m = true) :
    Memory.wf (Memory.sweep f n m) = true := by
  induction n with
  | zero => exact hm
  | succ n ih => exact Memory.wf_write ih _ _

theorem Memory.below_sweep (f : BitVec w → BitVec w) {n k : Nat} (h : k ≤ n) {m : Memory w}
    (hm : Memory.below n m = true) : Memory.below n (Memory.sweep f k m) = true := by
  induction k with
  | zero => exact hm
  | succ k ih => exact Memory.below_write (by omega) (ih (by omega)) _

/-! ### Clipped writes -/

theorem cellAddr_inj {c : Cfg} {y x y' x' : Nat} (hx : x < c.W) (hx' : x' < c.W) :
    cellAddr c y x = cellAddr c y' x' ↔ y = y' ∧ x = x' := by
  unfold cellAddr
  constructor
  · intro h
    have hw : 0 < c.W := by omega
    have h1 : (y * c.W + x) / c.W = y := by
      rw [Nat.add_comm, Nat.add_mul_div_right _ _ hw, Nat.div_eq_of_lt hx, Nat.zero_add]
    have h2 : (y' * c.W + x') / c.W = y' := by
      rw [Nat.add_comm, Nat.add_mul_div_right _ _ hw, Nat.div_eq_of_lt hx', Nat.zero_add]
    have hy : y = y' := by rw [← h1, ← h2, h]
    subst hy
    exact ⟨rfl, by omega⟩
  · rintro ⟨rfl, rfl⟩; rfl

theorem cellAddr_lt {c : Cfg} {y x : Nat} (hy : y < c.H) (hx : x < c.W) : cellAddr c y x < c.H * c.W := by
  unfold cellAddr
  calc y * c.W + x < y * c.W + c.W := by omega
    _ = (y + 1) * c.W := by ring
    _ ≤ c.H * c.W := Nat.mul_le_mul_right _ hy

/-- A clipped write changes a cell of the grid exactly where its target is that cell. -/
theorem read_clipWrite (c : Cfg) (m : Memory 8) (y x : Int) (v : Byte) {y' x' : Nat} (hy : y' < c.H) (hx : x' < c.W) :
    Memory.read (clipWrite c m y x v) (cellAddr c y' x') =
      if y = (y' : Int) ∧ x = (x' : Int) then v else Memory.read m (cellAddr c y' x') := by
  unfold clipWrite
  by_cases hg : onGrid c y x = true
  · rw [if_pos hg, Memory.read_write]
    simp only [onGrid, decide_eq_true_eq] at hg
    have := cellAddr_inj (c := c) (y := y') (x := x') (y' := y.toNat) (x' := x.toNat) hx (by omega)
    simp only [this]
    by_cases h : y = (y' : Int) ∧ x = (x' : Int)
    · rw [if_pos h, if_pos (by omega)]
    · rw [if_neg h, if_neg (by omega)]
  · rw [if_neg hg, if_neg]
    rintro ⟨rfl, rfl⟩
    simp only [onGrid, decide_eq_true_eq] at hg
    omega

/-- No clipped write reaches an address outside the grid. -/
theorem read_clipWrite_outside (c : Cfg) (m : Memory 8) (y x : Int) (v : Byte) {a : Nat} (ha : c.H * c.W ≤ a) :
    Memory.read (clipWrite c m y x v) a = Memory.read m a := by
  unfold clipWrite
  by_cases hg : onGrid c y x = true
  · rw [if_pos hg]
    simp only [onGrid, decide_eq_true_eq] at hg
    have := cellAddr_lt (c := c) (y := y.toNat) (x := x.toNat) (by omega) (by omega)
    exact Memory.read_write_other _ (by omega) _
  · rw [if_neg hg]

theorem wf_clipWrite (c : Cfg) {m : Memory 8} (hm : Memory.wf m = true) (y x : Int) (v : Byte) :
    Memory.wf (clipWrite c m y x v) = true := by
  unfold clipWrite
  split
  · exact Memory.wf_write hm _ _
  · exact hm

theorem below_clipWrite (c : Cfg) {m : Memory 8} (hm : Memory.below (c.H * c.W) m = true) (y x : Int) (v : Byte) :
    Memory.below (c.H * c.W) (clipWrite c m y x v) = true := by
  unfold clipWrite
  split
  · rename_i hg
    simp only [onGrid, decide_eq_true_eq] at hg
    exact Memory.below_write (cellAddr_lt (by omega) (by omega)) hm _
  · exact hm

/-- A list of clipped writes of one value changes exactly the cells of the grid that it names. -/
theorem read_clipWrites (c : Cfg) (v : Byte) (pts : List (Int × Int)) (m : Memory 8) {y x : Nat} (hy : y < c.H)
    (hx : x < c.W) :
    Memory.read (clipWrites c v pts m) (cellAddr c y x) =
      if ((y : Int), (x : Int)) ∈ pts then v else Memory.read m (cellAddr c y x) := by
  unfold clipWrites
  induction pts generalizing m with
  | nil => simp
  | cons p t ih =>
    rw [List.foldl_cons, ih]
    by_cases ht : ((y : Int), (x : Int)) ∈ t
    · simp [ht]
    · rw [if_neg ht, read_clipWrite c m _ _ v hy hx]
      by_cases hp : p = ((y : Int), (x : Int))
      · subst hp; simp
      · rw [if_neg (by rintro ⟨h1, h2⟩; exact hp (Prod.ext h1 h2)), if_neg]
        simp only [List.mem_cons, not_or]
        exact ⟨fun h => hp h.symm, ht⟩

theorem read_clipWrites_outside (c : Cfg) (v : Byte) (pts : List (Int × Int)) (m : Memory 8) {a : Nat}
    (ha : c.H * c.W ≤ a) : Memory.read (clipWrites c v pts m) a = Memory.read m a := by
  unfold clipWrites
  induction pts generalizing m with
  | nil => rfl
  | cons p t ih => rw [List.foldl_cons, ih, read_clipWrite_outside c m _ _ v ha]

theorem wf_clipWrites (c : Cfg) (v : Byte) (pts : List (Int × Int)) {m : Memory 8} (hm : Memory.wf m = true) :
    Memory.wf (clipWrites c v pts m) = true := by
  unfold clipWrites
  induction pts generalizing m with
  | nil => exact hm
  | cons p t ih => exact ih (wf_clipWrite c hm _ _ _)

theorem below_clipWrites (c : Cfg) (v : Byte) (pts : List (Int × Int)) {m : Memory 8}
    (hm : Memory.below (c.H * c.W) m = true) : Memory.below (c.H * c.W) (clipWrites c v pts m) = true := by
  unfold clipWrites
  induction pts generalizing m with
  | nil => exact hm
  | cons p t ih => exact ih (below_clipWrite c hm _ _ _)

/-- A clamped address lies on a grid that has a cell. -/
theorem clampAddr_lt {c : Cfg} (hH : 0 < c.H) (hW : 0 < c.W) (y x : Int) : clampAddr c y x < c.H * c.W := by
  apply cellAddr_lt <;> unfold clampTo <;> omega

end Sys2Proof.Machine
end

