-- ==== Sys2Proof/Laws/State.lean ====
section
/-! SUPPORT. For each named update of the state, what every field is after it: the changed fields first, then the others, which
are as before. Each is true by rfl, and simp reads each conjunct as a lemma of its own. -/

namespace Sys2Proof.Machine

@[simp] theorem setPrologue_changed (s : State) :
    (setPrologue s).prologueDone = true :=
  rfl

@[simp] theorem setPrologue_kept (s : State) :
    (setPrologue s).cfg = s.cfg ∧ (setPrologue s).effect = s.effect ∧ (setPrologue s).frame = s.frame ∧
    (setPrologue s).countdown = s.countdown ∧ (setPrologue s).palact = s.palact ∧ (setPrologue s).scan = s.scan ∧
    (setPrologue s).phase = s.phase ∧ (setPrologue s).col = s.col ∧ (setPrologue s).audPos = s.audPos ∧
    (setPrologue s).audStep = s.audStep ∧ (setPrologue s).vidEn = s.vidEn ∧ (setPrologue s).audEn = s.audEn ∧
    (setPrologue s).tblRdy = s.tblRdy ∧ (setPrologue s).halted = s.halted ∧ (setPrologue s).diag = s.diag ∧
    (setPrologue s).bg = s.bg ∧ (setPrologue s).fg = s.fg ∧ (setPrologue s).comp = s.comp ∧
    (setPrologue s).pal = s.pal ∧ (setPrologue s).geo = s.geo ∧ (setPrologue s).rowReq = s.rowReq ∧
    (setPrologue s).rowReply = s.rowReply ∧ (setPrologue s).audReq = s.audReq ∧
    (setPrologue s).audReply = s.audReply ∧ (setPrologue s).hostData = s.hostData ∧
    (setPrologue s).events = s.events ∧ (setPrologue s).free = s.free :=
  ⟨rfl, rfl, rfl, rfl, rfl, rfl, rfl, rfl, rfl, rfl, rfl, rfl, rfl, rfl, rfl, rfl, rfl, rfl, rfl, rfl, rfl, rfl, rfl, rfl, rfl, rfl, rfl⟩

@[simp] theorem clearPrologue_changed (s : State) :
    (clearPrologue s).prologueDone = false :=
  rfl

@[simp] theorem clearPrologue_kept (s : State) :
    (clearPrologue s).cfg = s.cfg ∧ (clearPrologue s).effect = s.effect ∧ (clearPrologue s).frame = s.frame ∧
    (clearPrologue s).countdown = s.countdown ∧ (clearPrologue s).palact = s.palact ∧
    (clearPrologue s).scan = s.scan ∧ (clearPrologue s).phase = s.phase ∧ (clearPrologue s).col = s.col ∧
    (clearPrologue s).audPos = s.audPos ∧ (clearPrologue s).audStep = s.audStep ∧ (clearPrologue s).vidEn = s.vidEn ∧
    (clearPrologue s).audEn = s.audEn ∧ (clearPrologue s).tblRdy = s.tblRdy ∧ (clearPrologue s).halted = s.halted ∧
    (clearPrologue s).diag = s.diag ∧ (clearPrologue s).bg = s.bg ∧ (clearPrologue s).fg = s.fg ∧
    (clearPrologue s).comp = s.comp ∧ (clearPrologue s).pal = s.pal ∧ (clearPrologue s).geo = s.geo ∧
    (clearPrologue s).rowReq = s.rowReq ∧ (clearPrologue s).rowReply = s.rowReply ∧
    (clearPrologue s).audReq = s.audReq ∧ (clearPrologue s).audReply = s.audReply ∧
    (clearPrologue s).hostData = s.hostData ∧ (clearPrologue s).events = s.events ∧ (clearPrologue s).free = s.free :=
  ⟨rfl, rfl, rfl, rfl, rfl, rfl, rfl, rfl, rfl, rfl, rfl, rfl, rfl, rfl, rfl, rfl, rfl, rfl, rfl, rfl, rfl, rfl, rfl, rfl, rfl, rfl, rfl⟩

@[simp] theorem onBackground_changed (f : Cfg → Nat → Nat → Memory 8 → Memory 8) (s : State) :
    (onBackground f s).bg = f s.cfg (genRow s) s.col.toNat s.bg :=
  rfl

@[simp] theorem onBackground_kept (f : Cfg → Nat → Nat → Memory 8 → Memory 8) (s : State) :
    (onBackground f s).cfg = s.cfg ∧ (onBackground f s).effect = s.effect ∧ (onBackground f s).frame = s.frame ∧
    (onBackground f s).countdown = s.countdown ∧ (onBackground f s).palact = s.palact ∧
    (onBackground f s).scan = s.scan ∧ (onBackground f s).prologueDone = s.prologueDone ∧
    (onBackground f s).phase = s.phase ∧ (onBackground f s).col = s.col ∧ (onBackground f s).audPos = s.audPos ∧
    (onBackground f s).audStep = s.audStep ∧ (onBackground f s).vidEn = s.vidEn ∧ (onBackground f s).audEn = s.audEn ∧
    (onBackground f s).tblRdy = s.tblRdy ∧ (onBackground f s).halted = s.halted ∧ (onBackground f s).diag = s.diag ∧
    (onBackground f s).fg = s.fg ∧ (onBackground f s).comp = s.comp ∧ (onBackground f s).pal = s.pal ∧
    (onBackground f s).geo = s.geo ∧ (onBackground f s).rowReq = s.rowReq ∧ (onBackground f s).rowReply = s.rowReply ∧
    (onBackground f s).audReq = s.audReq ∧ (onBackground f s).audReply = s.audReply ∧
    (onBackground f s).hostData = s.hostData ∧ (onBackground f s).events = s.events ∧
    (onBackground f s).free = s.free :=
  ⟨rfl, rfl, rfl, rfl, rfl, rfl, rfl, rfl, rfl, rfl, rfl, rfl, rfl, rfl, rfl, rfl, rfl, rfl, rfl, rfl, rfl, rfl, rfl, rfl, rfl, rfl, rfl⟩

@[simp] theorem layerReset_changed (p : Policy) (s : State) :
    (layerReset p s).bg = Memory.sweep (policyCell p) (s.cfg.H * s.cfg.W) s.bg ∧
    (layerReset p s).fg = Memory.sweep (fun _ => 0#8) (s.cfg.H * s.cfg.W) s.fg :=
  ⟨rfl, rfl⟩

@[simp] theorem layerReset_kept (p : Policy) (s : State) :
    (layerReset p s).cfg = s.cfg ∧ (layerReset p s).effect = s.effect ∧ (layerReset p s).frame = s.frame ∧
    (layerReset p s).countdown = s.countdown ∧ (layerReset p s).palact = s.palact ∧ (layerReset p s).scan = s.scan ∧
    (layerReset p s).prologueDone = s.prologueDone ∧ (layerReset p s).phase = s.phase ∧ (layerReset p s).col = s.col ∧
    (layerReset p s).audPos = s.audPos ∧ (layerReset p s).audStep = s.audStep ∧ (layerReset p s).vidEn = s.vidEn ∧
    (layerReset p s).audEn = s.audEn ∧ (layerReset p s).tblRdy = s.tblRdy ∧ (layerReset p s).halted = s.halted ∧
    (layerReset p s).diag = s.diag ∧ (layerReset p s).comp = s.comp ∧ (layerReset p s).pal = s.pal ∧
    (layerReset p s).geo = s.geo ∧ (layerReset p s).rowReq = s.rowReq ∧ (layerReset p s).rowReply = s.rowReply ∧
    (layerReset p s).audReq = s.audReq ∧ (layerReset p s).audReply = s.audReply ∧
    (layerReset p s).hostData = s.hostData ∧ (layerReset p s).events = s.events ∧ (layerReset p s).free = s.free :=
  ⟨rfl, rfl, rfl, rfl, rfl, rfl, rfl, rfl, rfl, rfl, rfl, rfl, rfl, rfl, rfl, rfl, rfl, rfl, rfl, rfl, rfl, rfl, rfl, rfl, rfl, rfl⟩

@[simp] theorem transition_changed (p : Policy) (s : State) :
    (transition p s).effect = BitVec.ofNat 4 (nextEffect s.effect) ∧
    (transition p s).countdown = durOf s.cfg (nextEffect s.effect) ∧
    (transition p s).palact = palselOf s.cfg (nextEffect s.effect) ∧
    (transition p s).bg = Memory.sweep (policyCell p) (s.cfg.H * s.cfg.W) s.bg ∧
    (transition p s).fg = Memory.sweep (fun _ => 0#8) (s.cfg.H * s.cfg.W) s.fg :=
  ⟨rfl, rfl, rfl, rfl, rfl⟩

@[simp] theorem transition_kept (p : Policy) (s : State) :
    (transition p s).cfg = s.cfg ∧ (transition p s).frame = s.frame ∧ (transition p s).scan = s.scan ∧
    (transition p s).prologueDone = s.prologueDone ∧ (transition p s).phase = s.phase ∧ (transition p s).col = s.col ∧
    (transition p s).audPos = s.audPos ∧ (transition p s).audStep = s.audStep ∧ (transition p s).vidEn = s.vidEn ∧
    (transition p s).audEn = s.audEn ∧ (transition p s).tblRdy = s.tblRdy ∧ (transition p s).halted = s.halted ∧
    (transition p s).diag = s.diag ∧ (transition p s).comp = s.comp ∧ (transition p s).pal = s.pal ∧
    (transition p s).geo = s.geo ∧ (transition p s).rowReq = s.rowReq ∧ (transition p s).rowReply = s.rowReply ∧
    (transition p s).audReq = s.audReq ∧ (transition p s).audReply = s.audReply ∧
    (transition p s).hostData = s.hostData ∧ (transition p s).events = s.events ∧ (transition p s).free = s.free :=
  ⟨rfl, rfl, rfl, rfl, rfl, rfl, rfl, rfl, rfl, rfl, rfl, rfl, rfl, rfl, rfl, rfl, rfl, rfl, rfl, rfl, rfl, rfl, rfl⟩

@[simp] theorem countFrame_changed (s : State) :
    (countFrame s).frame = s.frame + 1#32 ∧
    (countFrame s).countdown = BitVec.ofNat 16 (s.countdown.toNat - 1) ∧
    (countFrame s).scan = 0#13 ∧
    (countFrame s).prologueDone = true :=
  ⟨rfl, rfl, rfl, rfl⟩

@[simp] theorem countFrame_kept (s : State) :
    (countFrame s).cfg = s.cfg ∧ (countFrame s).effect = s.effect ∧ (countFrame s).palact = s.palact ∧
    (countFrame s).phase = s.phase ∧ (countFrame s).col = s.col ∧ (countFrame s).audPos = s.audPos ∧
    (countFrame s).audStep = s.audStep ∧ (countFrame s).vidEn = s.vidEn ∧ (countFrame s).audEn = s.audEn ∧
    (countFrame s).tblRdy = s.tblRdy ∧ (countFrame s).halted = s.halted ∧ (countFrame s).diag = s.diag ∧
    (countFrame s).bg = s.bg ∧ (countFrame s).fg = s.fg ∧ (countFrame s).comp = s.comp ∧ (countFrame s).pal = s.pal ∧
    (countFrame s).geo = s.geo ∧ (countFrame s).rowReq = s.rowReq ∧ (countFrame s).rowReply = s.rowReply ∧
    (countFrame s).audReq = s.audReq ∧ (countFrame s).audReply = s.audReply ∧ (countFrame s).hostData = s.hostData ∧
    (countFrame s).events = s.events ∧ (countFrame s).free = s.free :=
  ⟨rfl, rfl, rfl, rfl, rfl, rfl, rfl, rfl, rfl, rfl, rfl, rfl, rfl, rfl, rfl, rfl, rfl, rfl, rfl, rfl, rfl, rfl, rfl, rfl⟩

@[simp] theorem rowDone_changed (s : State) :
    (rowDone s).scan = BitVec.ofNat 13 (s.scan.toNat + 1) ∧
    (rowDone s).prologueDone = false ∧
    (rowDone s).phase = (if s.scan.toNat + 1 = s.cfg.H then .boundary else .gen) :=
  ⟨rfl, rfl, rfl⟩

@[simp] theorem rowDone_kept (s : State) :
    (rowDone s).cfg = s.cfg ∧ (rowDone s).effect = s.effect ∧ (rowDone s).frame = s.frame ∧
    (rowDone s).countdown = s.countdown ∧ (rowDone s).palact = s.palact ∧ (rowDone s).col = s.col ∧
    (rowDone s).audPos = s.audPos ∧ (rowDone s).audStep = s.audStep ∧ (rowDone s).vidEn = s.vidEn ∧
    (rowDone s).audEn = s.audEn ∧ (rowDone s).tblRdy = s.tblRdy ∧ (rowDone s).halted = s.halted ∧
    (rowDone s).diag = s.diag ∧ (rowDone s).bg = s.bg ∧ (rowDone s).fg = s.fg ∧ (rowDone s).comp = s.comp ∧
    (rowDone s).pal = s.pal ∧ (rowDone s).geo = s.geo ∧ (rowDone s).rowReq = s.rowReq ∧
    (rowDone s).rowReply = s.rowReply ∧ (rowDone s).audReq = s.audReq ∧ (rowDone s).audReply = s.audReply ∧
    (rowDone s).hostData = s.hostData ∧ (rowDone s).events = s.events ∧ (rowDone s).free = s.free :=
  ⟨rfl, rfl, rfl, rfl, rfl, rfl, rfl, rfl, rfl, rfl, rfl, rfl, rfl, rfl, rfl, rfl, rfl, rfl, rfl, rfl, rfl, rfl, rfl, rfl, rfl⟩

@[simp] theorem pixMerge_changed (s : State) :
    (pixMerge s).comp = Memory.write s.comp (cellAddr s.cfg (genRow s) s.col.toNat)
      (mergeColor s (Memory.read s.bg (cellAddr s.cfg (genRow s) s.col.toNat))
        (Memory.read s.fg (cellAddr s.cfg (genRow s) s.col.toNat))) :=
  rfl

@[simp] theorem pixMerge_kept (s : State) :
    (pixMerge s).cfg = s.cfg ∧ (pixMerge s).effect = s.effect ∧ (pixMerge s).frame = s.frame ∧
    (pixMerge s).countdown = s.countdown ∧ (pixMerge s).palact = s.palact ∧ (pixMerge s).scan = s.scan ∧
    (pixMerge s).prologueDone = s.prologueDone ∧ (pixMerge s).phase = s.phase ∧ (pixMerge s).col = s.col ∧
    (pixMerge s).audPos = s.audPos ∧ (pixMerge s).audStep = s.audStep ∧ (pixMerge s).vidEn = s.vidEn ∧
    (pixMerge s).audEn = s.audEn ∧ (pixMerge s).tblRdy = s.tblRdy ∧ (pixMerge s).halted = s.halted ∧
    (pixMerge s).diag = s.diag ∧ (pixMerge s).bg = s.bg ∧ (pixMerge s).fg = s.fg ∧ (pixMerge s).pal = s.pal ∧
    (pixMerge s).geo = s.geo ∧ (pixMerge s).rowReq = s.rowReq ∧ (pixMerge s).rowReply = s.rowReply ∧
    (pixMerge s).audReq = s.audReq ∧ (pixMerge s).audReply = s.audReply ∧ (pixMerge s).hostData = s.hostData ∧
    (pixMerge s).events = s.events ∧ (pixMerge s).free = s.free :=
  ⟨rfl, rfl, rfl, rfl, rfl, rfl, rfl, rfl, rfl, rfl, rfl, rfl, rfl, rfl, rfl, rfl, rfl, rfl, rfl, rfl, rfl, rfl, rfl, rfl, rfl, rfl, rfl⟩

@[simp] theorem rowOpen_changed (w : BitVec 16) (s : State) :
    (rowOpen w s).rowReq = some ⟨w, 0⟩ ∧
    (rowOpen w s).rowReply = [] :=
  ⟨rfl, rfl⟩

@[simp] theorem rowOpen_kept (w : BitVec 16) (s : State) :
    (rowOpen w s).cfg = s.cfg ∧ (rowOpen w s).effect = s.effect ∧ (rowOpen w s).frame = s.frame ∧
    (rowOpen w s).countdown = s.countdown ∧ (rowOpen w s).palact = s.palact ∧ (rowOpen w s).scan = s.scan ∧
    (rowOpen w s).prologueDone = s.prologueDone ∧ (rowOpen w s).phase = s.phase ∧ (rowOpen w s).col = s.col ∧
    (rowOpen w s).audPos = s.audPos ∧ (rowOpen w s).audStep = s.audStep ∧ (rowOpen w s).vidEn = s.vidEn ∧
    (rowOpen w s).audEn = s.audEn ∧ (rowOpen w s).tblRdy = s.tblRdy ∧ (rowOpen w s).halted = s.halted ∧
    (rowOpen w s).diag = s.diag ∧ (rowOpen w s).bg = s.bg ∧ (rowOpen w s).fg = s.fg ∧ (rowOpen w s).comp = s.comp ∧
    (rowOpen w s).pal = s.pal ∧ (rowOpen w s).geo = s.geo ∧ (rowOpen w s).audReq = s.audReq ∧
    (rowOpen w s).audReply = s.audReply ∧ (rowOpen w s).hostData = s.hostData ∧ (rowOpen w s).events = s.events ∧
    (rowOpen w s).free = s.free :=
  ⟨rfl, rfl, rfl, rfl, rfl, rfl, rfl, rfl, rfl, rfl, rfl, rfl, rfl, rfl, rfl, rfl, rfl, rfl, rfl, rfl, rfl, rfl, rfl, rfl, rfl, rfl⟩

@[simp] theorem hostRead_changed (off : BitVec 32) (bytes : Nat) (s : State) :
    (hostRead off bytes s).hostData = (if regAligned off bytes then regRead s off else 0#32) :=
  rfl

@[simp] theorem hostRead_kept (off : BitVec 32) (bytes : Nat) (s : State) :
    (hostRead off bytes s).cfg = s.cfg ∧ (hostRead off bytes s).effect = s.effect ∧
    (hostRead off bytes s).frame = s.frame ∧ (hostRead off bytes s).countdown = s.countdown ∧
    (hostRead off bytes s).palact = s.palact ∧ (hostRead off bytes s).scan = s.scan ∧
    (hostRead off bytes s).prologueDone = s.prologueDone ∧ (hostRead off bytes s).phase = s.phase ∧
    (hostRead off bytes s).col = s.col ∧ (hostRead off bytes s).audPos = s.audPos ∧
    (hostRead off bytes s).audStep = s.audStep ∧ (hostRead off bytes s).vidEn = s.vidEn ∧
    (hostRead off bytes s).audEn = s.audEn ∧ (hostRead off bytes s).tblRdy = s.tblRdy ∧
    (hostRead off bytes s).halted = s.halted ∧ (hostRead off bytes s).diag = s.diag ∧
    (hostRead off bytes s).bg = s.bg ∧ (hostRead off bytes s).fg = s.fg ∧ (hostRead off bytes s).comp = s.comp ∧
    (hostRead off bytes s).pal = s.pal ∧ (hostRead off bytes s).geo = s.geo ∧
    (hostRead off bytes s).rowReq = s.rowReq ∧ (hostRead off bytes s).rowReply = s.rowReply ∧
    (hostRead off bytes s).audReq = s.audReq ∧ (hostRead off bytes s).audReply = s.audReply ∧
    (hostRead off bytes s).events = s.events ∧ (hostRead off bytes s).free = s.free :=
  ⟨rfl, rfl, rfl, rfl, rfl, rfl, rfl, rfl, rfl, rfl, rfl, rfl, rfl, rfl, rfl, rfl, rfl, rfl, rfl, rfl, rfl, rfl, rfl, rfl, rfl, rfl, rfl⟩

@[simp] theorem buildTables_changed (s : State) :
    (buildTables s).tblRdy = true ∧
    (buildTables s).pal = palBuild s.cfg s.pal ∧
    (buildTables s).geo = geoBuild s.cfg s.geo :=
  ⟨rfl, rfl, rfl⟩

@[simp] theorem buildTables_kept (s : State) :
    (buildTables s).cfg = s.cfg ∧ (buildTables s).effect = s.effect ∧ (buildTables s).frame = s.frame ∧
    (buildTables s).countdown = s.countdown ∧ (buildTables s).palact = s.palact ∧ (buildTables s).scan = s.scan ∧
    (buildTables s).prologueDone = s.prologueDone ∧ (buildTables s).phase = s.phase ∧ (buildTables s).col = s.col ∧
    (buildTables s).audPos = s.audPos ∧ (buildTables s).audStep = s.audStep ∧ (buildTables s).vidEn = s.vidEn ∧
    (buildTables s).audEn = s.audEn ∧ (buildTables s).halted = s.halted ∧ (buildTables s).diag = s.diag ∧
    (buildTables s).bg = s.bg ∧ (buildTables s).fg = s.fg ∧ (buildTables s).comp = s.comp ∧
    (buildTables s).rowReq = s.rowReq ∧ (buildTables s).rowReply = s.rowReply ∧ (buildTables s).audReq = s.audReq ∧
    (buildTables s).audReply = s.audReply ∧ (buildTables s).hostData = s.hostData ∧
    (buildTables s).events = s.events ∧ (buildTables s).free = s.free :=
  ⟨rfl, rfl, rfl, rfl, rfl, rfl, rfl, rfl, rfl, rfl, rfl, rfl, rfl, rfl, rfl, rfl, rfl, rfl, rfl, rfl, rfl, rfl, rfl, rfl, rfl⟩

end Sys2Proof.Machine
end

