-- ==== Sys2Proof/Laws/Ops.lean ====
section
/-! SUPPORT. For each shared operation, once, what it can do: which fields it may change, what its memory operations keep,
what one cell reads after it. Later proofs cite these and do not unfold the operations. -/

namespace Sys2Proof.Machine

/-! ### Cells -/

theorem cell_le (m : Memory 8) (a : Nat) : cell m a ≤ 255 := by
  unfold cell; have := (Memory.read m a).isLt; omega

theorem cell_setCell (m : Memory 8) (a b v : Nat) (hv : v ≤ 255) :
    cell (setCell m a v) b = if b = a then v else cell m b := by
  unfold cell setCell
  rw [Memory.read_write]
  by_cases h : b = a
  · subst h; simp [BitVec.toNat_ofNat]; omega
  · simp [h]

theorem wf_setCell {m : Memory 8} (hm : Memory.wf m = true) (a v : Nat) : Memory.wf (setCell m a v) = true :=
  Memory.wf_write hm a _

theorem below_setCell {n a : Nat} (ha : a < n) {m : Memory 8} (hm : Memory.below n m = true) (v : Nat) :
    Memory.below n (setCell m a v) = true :=
  Memory.below_write ha hm _

/-! ### The background units keep the form of the layer -/

theorem wf_xfer {m : Memory 8} (hm : Memory.wf m = true) (a b q : Nat) : Memory.wf (xfer m a b q) = true :=
  wf_setCell (wf_setCell hm _ _) _ _

theorem below_xfer {n a b : Nat} (ha : a < n) (hb : b < n) {m : Memory 8} (hm : Memory.below n m = true) (q : Nat) :
    Memory.below n (xfer m a b q) = true :=
  below_setCell hb (below_setCell ha hm _) _

theorem firstMin_mem (m : Memory 8) : ∀ (l : List Nat) (best : Nat × Option Nat) (b : Nat),
    (firstMin m best l).2 = some b → best.2 = some b ∨ b ∈ l
  | [], best, b, h => Or.inl h
  | a :: t, best, b, h => by
    rcases firstMin_mem m t _ b h with h | h
    · split at h
      · right; simp at h; simp [h]
      · left; exact h
    · right; simp [h]

theorem nbrAddrs_lt {c : Cfg} (hH : 0 < c.H) (hW : 0 < c.W) {y x b : Nat} (h : b ∈ nbrAddrs c y x) : b < c.H * c.W := by
  unfold nbrAddrs at h
  simp only [List.mem_map] at h
  obtain ⟨d, -, rfl⟩ := h
  exact clampAddr_lt hH hW _ _

theorem forcing_keeps {P : Memory 8 → Prop} (e : Effect) (f : Nat) (c : Cfg) (y x : Nat)
    (hset : ∀ m v, P m → P (setCell m (cellAddr c y x) v)) {m : Memory 8} (hm : P m) : P (forcing c e f y x m) := by
  unfold forcing
  cases forcingClass e with
  | ambient => dsimp only; split; exacts [hset _ _ hm, hm]
  | seed => dsimp only; split; exacts [hset _ _ hm, hm]
  | noforce => exact hm

theorem diffuse_keeps {P : Memory 8 → Prop} (c : Cfg) (y x : Nat)
    (hset : ∀ m a v, a = cellAddr c y x ∨ a ∈ nbrAddrs c y x → P m → P (setCell m a v)) {m : Memory 8} (hm : P m) :
    P (diffuse c y x m) := by
  unfold diffuse
  generalize hfm : firstMin m (256, none) (nbrAddrs c y x) = r
  obtain ⟨least, tgt⟩ := r
  cases tgt with
  | none => exact hm
  | some tgt =>
    dsimp only
    split
    · refine hset _ _ _ (.inr ?_) (hset _ _ _ (.inl rfl) hm)
      rcases firstMin_mem m _ _ tgt (by rw [hfm]) with h | h
      · exact absurd h (by simp)
      · exact h
    · exact hm

theorem cool_keeps {P : Memory 8 → Prop} (c : Cfg) (y x : Nat)
    (hset : ∀ m v, P m → P (setCell m (cellAddr c y x) v)) {m : Memory 8} (hm : P m) : P (cool c y x m) := by
  unfold cool; dsimp only; split
  · exact hset _ _ hm
  · exact hm

theorem convect_keeps {P : Memory 8 → Prop} (e : Effect) (c : Cfg) (y x : Nat)
    (hxf : ∀ m a b q, (a = cellAddr c y x ∨ ∃ y' x', a = clampAddr c y' x') →
      (∃ y' x', b = clampAddr c y' x') → P m → P (xfer m a b q)) {m : Memory 8} (hm : P m) : P (convect c e y x m) := by
  have h1 : ∀ v, P (if thConv1 < v then xfer m (cellAddr c y x) (clampAddr c (y + direction e) x) (conv1 c v) else m) := by
    intro v
    by_cases h : thConv1 < v
    · rw [if_pos h]; exact hxf _ _ _ _ (.inl rfl) ⟨_, _, rfl⟩ hm
    · rw [if_neg h]; exact hm
  simp only [convect]
  by_cases h2 : thConv2 < cell m (cellAddr c y x)
  · rw [if_pos h2]
    exact hxf _ _ _ _ (.inr ⟨_, _, rfl⟩) ⟨_, _, rfl⟩ (hxf _ _ _ _ (.inl rfl) ⟨_, _, rfl⟩ (h1 _))
  · rw [if_neg h2]
    exact h1 _

theorem wf_automaton (e : Effect) (f : Nat) (c : Cfg) (y x : Nat) {m : Memory 8} (hm : Memory.wf m = true) :
    Memory.wf (automaton e f c y x m) = true :=
  convect_keeps (P := fun m => Memory.wf m = true) e c y x (fun _ _ _ _ _ _ h => wf_xfer h _ _ _)
    (cool_keeps (P := fun m => Memory.wf m = true) c y x (fun _ _ h => wf_setCell h _ _)
      (diffuse_keeps (P := fun m => Memory.wf m = true) c y x (fun _ _ _ _ h => wf_setCell h _ _)
        (forcing_keeps (P := fun m => Memory.wf m = true) e f c y x (fun _ _ h => wf_setCell h _ _) hm)))

theorem below_automaton (e : Effect) (f : Nat) {c : Cfg} {y x : Nat} (hy : y < c.H) (hx : x < c.W) {m : Memory 8}
    (hm : Memory.below (c.H * c.W) m = true) : Memory.below (c.H * c.W) (automaton e f c y x m) = true := by
  have hH : 0 < c.H := by omega
  have hW : 0 < c.W := by omega
  have ha := cellAddr_lt hy hx
  refine convect_keeps (P := fun m => Memory.below (c.H * c.W) m = true) e c y x ?_
    (cool_keeps (P := fun m => Memory.below (c.H * c.W) m = true) c y x (fun _ _ h => below_setCell ha h _)
      (diffuse_keeps (P := fun m => Memory.below (c.H * c.W) m = true) c y x ?_
        (forcing_keeps (P := fun m => Memory.below (c.H * c.W) m = true) e f c y x (fun _ _ h => below_setCell ha h _) hm)))
  · rintro m a b q ha' ⟨y', x', rfl⟩ h
    refine below_xfer ?_ (clampAddr_lt hH hW _ _) h q
    rcases ha' with rfl | ⟨y'', x'', rfl⟩
    · exact ha
    · exact clampAddr_lt hH hW _ _
  · rintro m a v (rfl | hb) h
    · exact below_setCell ha h v
    · exact below_setCell (nbrAddrs_lt hH hW hb) h v

theorem wf_fractalUnit (f : Nat) (c : Cfg) (y x : Nat) {m : Memory 8} (hm : Memory.wf m = true) :
    Memory.wf (fractalUnit f c y x m) = true := by
  unfold fractalUnit; split
  · exact wf_clipWrites c _ _ hm
  · exact hm

theorem below_fractalUnit (f : Nat) (c : Cfg) (y x : Nat) {m : Memory 8} (hm : Memory.below (c.H * c.W) m = true) :
    Memory.below (c.H * c.W) (fractalUnit f c y x m) = true := by
  unfold fractalUnit; split
  · exact below_clipWrites c _ _ hm
  · exact hm

theorem wf_plasmaUnit (f : Nat) (c : Cfg) (y x : Nat) {m : Memory 8} (hm : Memory.wf m = true) :
    Memory.wf (plasmaUnit f c y x m) = true := by
  unfold plasmaUnit; split
  · exact wf_clipWrites c _ _ hm
  · exact hm

theorem below_plasmaUnit (f : Nat) (c : Cfg) (y x : Nat) {m : Memory 8} (hm : Memory.below (c.H * c.W) m = true) :
    Memory.below (c.H * c.W) (plasmaUnit f c y x m) = true := by
  unfold plasmaUnit; split
  · exact below_clipWrites c _ _ hm
  · exact hm

/-! ### The foreground units keep the form of the layer -/

theorem wf_drawTriangle (c : Cfg) (geo : Memory 32) (gem : Bool) (f tri : Nat) {m : Memory 8} (hm : Memory.wf m = true) :
    Memory.wf (drawTriangle c geo gem f tri m) = true :=
  wf_clipWrites c _ _ (wf_clipWrites c _ _ (wf_clipWrites c _ _ hm))

theorem below_drawTriangle (c : Cfg) (geo : Memory 32) (gem : Bool) (f tri : Nat) {m : Memory 8}
    (hm : Memory.below (c.H * c.W) m = true) : Memory.below (c.H * c.W) (drawTriangle c geo gem f tri m) = true :=
  below_clipWrites c _ _ (below_clipWrites c _ _ (below_clipWrites c _ _ hm))

theorem foldl_keeps {α β : Type} {P : β → Prop} (g : β → α → β) (hg : ∀ b a, P b → P (g b a)) :
    ∀ (l : List α) (b : β), P b → P (l.foldl g b)
  | [], _, h => h
  | a :: t, _, h => foldl_keeps g hg t _ (hg _ a h)

theorem wf_drawShape (c : Cfg) (geo : Memory 32) (gem : Bool) (f : Nat) {m : Memory 8} (hm : Memory.wf m = true) :
    Memory.wf (drawShape c geo gem f m) = true :=
  foldl_keeps (P := fun m => Memory.wf m = true) _ (fun _ tri h => wf_drawTriangle c geo gem f tri h) _ _ hm

theorem below_drawShape (c : Cfg) (geo : Memory 32) (gem : Bool) (f : Nat) {m : Memory 8}
    (hm : Memory.below (c.H * c.W) m = true) : Memory.below (c.H * c.W) (drawShape c geo gem f m) = true :=
  foldl_keeps (P := fun m => Memory.below (c.H * c.W) m = true) _
    (fun _ tri h => below_drawTriangle c geo gem f tri h) _ _ hm

theorem drawChars_keeps {P : Memory 8 → Prop} (c : Cfg) (ev : TextEvent)
    (hg : ∀ mask x y m, P m → P (glyphBlit c mask x y ev.scale ev.inten m)) :
    ∀ (l : List Char) (x y : Int) (m : Memory 8), P m → P (drawChars c ev l x y m)
  | [], _, _, _, h => h
  | ch :: t, x, y, m, h => by
    unfold drawChars; split
    · exact drawChars_keeps c ev hg t _ _ _ h
    · exact drawChars_keeps c ev hg t _ _ _ (hg _ _ _ _ h)

theorem drawEvents_keeps {P : Memory 8 → Prop} (c : Cfg) (e : Effect) (f : Nat)
    (hg : ∀ mask x y k v m, P m → P (glyphBlit c mask x y k v m)) {m : Memory 8} (hm : P m) : P (drawEvents c e f m) := by
  unfold drawEvents
  exact foldl_keeps (drawString c) (fun _ ev h => drawChars_keeps c ev (fun _ _ _ _ h => hg _ _ _ _ _ _ h) _ _ _ _ h) _ _ hm

theorem wf_drawEvents (c : Cfg) (e : Effect) (f : Nat) {m : Memory 8} (hm : Memory.wf m = true) :
    Memory.wf (drawEvents c e f m) = true :=
  drawEvents_keeps (P := fun m => Memory.wf m = true) c e f (fun _ _ _ _ _ _ h => wf_clipWrites c _ _ h) hm

theorem below_drawEvents (c : Cfg) (e : Effect) (f : Nat) {m : Memory 8} (hm : Memory.below (c.H * c.W) m = true) :
    Memory.below (c.H * c.W) (drawEvents c e f m) = true :=
  drawEvents_keeps (P := fun m => Memory.below (c.H * c.W) m = true) c e f (fun _ _ _ _ _ _ h => below_clipWrites c _ _ h) hm

/-! ### Which fields each unit of a dispatch may change -/

theorem bgUnit_only (sel : BgSel) (e : Effect) (s : State) :
    bgUnit sel e s = { s with bg := (bgUnit sel e s).bg } := by
  cases sel <;> simp only [bgUnit, onBackground]

theorem wireRedraw_only (gem : Bool) (s : State) :
    wireRedraw gem s = { s with fg := (wireRedraw gem s).fg } := by
  unfold wireRedraw
  by_cases h : firstDispatch s = true
  · rw [if_pos h]
  · rw [if_neg h]

theorem wireUnit_only (sel : WireSel) (s : State) :
    wireUnit sel s = { s with fg := (wireUnit sel s).fg } := by
  cases sel
  · rfl
  · exact wireRedraw_only false s
  · exact wireRedraw_only true s

theorem textUnit_only (e : Effect) (s : State) :
    textUnit e s = { s with fg := (textUnit e s).fg } := by
  unfold textUnit
  by_cases h : firstDispatch s = true
  · rw [if_pos h]
  · rw [if_neg h]

theorem pixDispatch_only (e : Effect) (a : EffectArgs) (s : State) :
    pixDispatch e a s = { s with bg := (bgUnit a.bg e s).bg, fg := (pixDispatch e a s).fg } := by
  unfold pixDispatch
  rw [textUnit_only, wireUnit_only, bgUnit_only]

theorem afterDispatch_only (s : State) :
    afterDispatch s = { s with col := (afterDispatch s).col, phase := (afterDispatch s).phase } := by
  unfold afterDispatch; split <;> rfl

theorem afterMerge_only (s : State) :
    afterMerge s = { s with
      col := (afterMerge s).col, phase := (afterMerge s).phase, scan := (afterMerge s).scan,
      prologueDone := (afterMerge s).prologueDone } := by
  unfold afterMerge; split <;> rfl

theorem frameAdv_only (p : Policy) (s : State) :
    frameAdv p s = { s with
      effect := (frameAdv p s).effect, frame := (frameAdv p s).frame, countdown := (frameAdv p s).countdown
      palact := (frameAdv p s).palact, scan := (frameAdv p s).scan, prologueDone := (frameAdv p s).prologueDone
      bg := (frameAdv p s).bg, fg := (frameAdv p s).fg } := by
  unfold frameAdv; split
  · split <;> rfl
  · rfl

/-- Everything a step of Context A can do. -/
theorem contextStep_cases {e : Effect} {a : EffectArgs} {s t : State} (h : contextStep e a s = .next t) :
    (videoLive s = false ∧ t = s) ∨
    (videoLive s = true ∧ s.phase = .gen ∧ positionOk s = true ∧ t = afterDispatch (pixDispatch e a s)) ∨
    (videoLive s = true ∧ s.phase = .merge ∧ mergeOk s = true ∧ positionOk s = true ∧ t = afterMerge (pixMerge s)) ∨
    (videoLive s = true ∧ s.phase = .boundary ∧ t = { frameAdv a.policy s with phase := .gen }) := by
  unfold contextStep at h
  split at h
  · next hl =>
    split at h
    · next hp =>
      unfold atPosition at h
      split at h
      · next hok => cases h; exact .inr (.inl ⟨hl, hp, hok, rfl⟩)
      · cases h
    · next hp =>
      split at h
      · next hm =>
        unfold atPosition at h
        split at h
        · next hok => cases h; exact .inr (.inr (.inl ⟨hl, hp, hm, hok, rfl⟩))
        · cases h
      · cases h
    · next hp => cases h; exact .inr (.inr (.inr ⟨hl, hp, rfl⟩))
  · next hl => cases h; exact .inl ⟨by simpa using hl, rfl⟩

/-- The row of a descriptor's Effect is a step of Context A with the descriptor's fields. -/
theorem exec_effectRow (d : Descr) (s : State) :
    exec (effectRow d) s = contextStep d.op ⟨d.wire, d.bg, d.policy, d.pal, d.dur⟩ s := by
  obtain ⟨op, wire, bg, policy, pal, dur⟩ := d
  cases op <;> rfl

/-! ### Ports -/

theorem rowWord_only (s : State) :
    rowWord s = { s with rowReq := (rowWord s).rowReq, rowReply := (rowWord s).rowReply, free := (rowWord s).free } := by
  unfold rowWord; split
  · rfl
  · split <;> rfl

theorem rowWords_only : ∀ (n : Nat) (s : State),
    rowWords n s = { s with rowReq := (rowWords n s).rowReq, rowReply := (rowWords n s).rowReply, free := (rowWords n s).free }
  | 0, _ => rfl
  | n + 1, s => by
    unfold rowWords
    rw [rowWords_only n (rowWord s), rowWord_only s]

theorem audioSample_only (s : State) :
    audioSample s = { s with
      audPos := (audioSample s).audPos, audReply := (audioSample s).audReply, audReq := (audioSample s).audReq } := by
  unfold audioSample; split
  · rfl
  · dsimp only; split <;> rfl

theorem audioSamples_only : ∀ (n : Nat) (s : State),
    audioSamples n s = { s with
      audPos := (audioSamples n s).audPos, audReply := (audioSamples n s).audReply
      audReq := (audioSamples n s).audReq }
  | 0, _ => rfl
  | n + 1, s => by
    unfold audioSamples
    rw [audioSamples_only n (audioSample s), audioSample_only s]

theorem audioFinish_only (s : State) :
    audioFinish s = { s with
      audPos := (audioFinish s).audPos, audReply := (audioFinish s).audReply, audReq := (audioFinish s).audReq } :=
  audioSamples_only _ s

theorem audioOpen_only (n : BitVec 16) (s : State) :
    audioOpen n s = { s with
      audPos := (audioOpen n s).audPos, audReply := (audioOpen n s).audReply, audReq := (audioOpen n s).audReq } := by
  unfold audioOpen; dsimp only; rw [audioFinish_only]

/-- The cursor stays within the payload. -/
theorem audAdvance_le (c : Cfg) (pos step : BitVec 32) : (audAdvance c pos step).toNat ≤ audEnd c := by
  unfold audAdvance
  rw [BitVec.toNat_ofNat]
  exact le_trans (Nat.mod_le _ _) (Nat.min_le_right _ _)

/-! ### The host -/

theorem raiseFatal_only (code : BitVec 4) (s : State) :
    raiseFatal code s = { s with
      audPos := (raiseFatal code s).audPos, audReply := (raiseFatal code s).audReply
      audReq := (raiseFatal code s).audReq, diag := (raiseFatal code s).diag, halted := (raiseFatal code s).halted } := by
  unfold raiseFatal; split
  · rfl
  · rw [audioFinish_only]

theorem hostWrite_only (off : BitVec 32) (bytes : Nat) (v : BitVec 32) (s : State) :
    hostWrite off bytes v s = { s with
      vidEn := (hostWrite off bytes v s).vidEn, audEn := (hostWrite off bytes v s).audEn
      audStep := (hostWrite off bytes v s).audStep, audPos := (hostWrite off bytes v s).audPos
      audReply := (hostWrite off bytes v s).audReply, audReq := (hostWrite off bytes v s).audReq
      diag := (hostWrite off bytes v s).diag, halted := (hostWrite off bytes v s).halted } := by
  unfold hostWrite; split
  · unfold regWrite
    split
    · unfold writeCtrl; split <;> rfl
    · rfl
    · unfold writeFail; dsimp only; split
      · rfl
      · rw [raiseFatal_only]
    · rfl
  · rfl

/-! ### Tables -/

theorem wf_writeAll {w : Nat} (es : List (Nat × BitVec w)) {m : Memory w} (hm : Memory.wf m = true) :
    Memory.wf (writeAll es m) = true :=
  foldl_keeps (P := fun m => Memory.wf m = true) _ (fun _ e h => Memory.wf_write h e.1 e.2) _ _ hm

theorem read_writeAll_other {w : Nat} : ∀ (es : List (Nat × BitVec w)) (m : Memory w) (a : Nat),
    (∀ e ∈ es, e.1 ≠ a) → Memory.read (writeAll es m) a = Memory.read m a
  | [], _, _, _ => rfl
  | e :: t, m, a, h => by
    have ht := read_writeAll_other t (Memory.write m e.1 e.2) a (fun e' he' => h e' (by simp [he']))
    have hne : e.1 ≠ a := h e (by simp)
    have : writeAll (e :: t) m = writeAll t (Memory.write m e.1 e.2) := rfl
    rw [this, ht, Memory.read_write_other m (Ne.symm hne)]

end Sys2Proof.Machine
end

