-- ==== Sys2Proof/Laws/PerInstr.lean ====
section
/-! SUPPORT. Statements for all instructions, one lemma per constructor: an instruction's encoded word lies in its own row of
the opcode table (30_encoding.md R104). -/

namespace Sys2Proof.Laws.EncodeInRow

/-- A well-formed instruction's word matches the mask and match of its row. -/
def Statement (i : Instr) : Prop := i.wf = true → encode i &&& (tableRow i).1 = (tableRow i).2

/-- The four fields of a descriptor word that rows are told apart by, under their masks. -/
theorem descr_masks (d : Descr) :
    encodeDescr d &&& 0xF0000000#32 = d.op.code.setWidth 32 <<< 28 ∧
    encodeDescr d &&& 0x03000000#32 = d.wire.code.setWidth 32 <<< 24 ∧
    encodeDescr d &&& 0x00E00000#32 = d.bg.code.setWidth 32 <<< 21 ∧
    encodeDescr d &&& 0x00180000#32 = d.policy.code.setWidth 32 <<< 19 := by
  refine ⟨?_, ?_, ?_, ?_⟩ <;> (apply BitVec.eq_of_getLsbD_eq; intro i hi; rw [BitVec.getLsbD_and, encodeDescr_getLsbD]) <;>
    interval_cases i <;> simp [-BitVec.getLsbD_eq_getElem, BitVec.getLsbD_shiftLeft]

theorem start (a : EffectArgs) : Statement (.start a) := by
  intro _
  show encodeDescr ⟨.start, a.wire, a.bg, a.policy, a.pal, a.dur⟩ &&& 0xF0000000#32 = 0x00000000#32
  exact (descr_masks _).1.trans (by dsimp only; decide)

theorem water (a : EffectArgs) : Statement (.water a) := by
  intro _
  show encodeDescr ⟨.water, a.wire, a.bg, a.policy, a.pal, a.dur⟩ &&& 0xF0000000#32 = 0x10000000#32
  exact (descr_masks _).1.trans (by dsimp only; decide)

theorem acid (a : EffectArgs) : Statement (.acid a) := by
  intro _
  show encodeDescr ⟨.acid, a.wire, a.bg, a.policy, a.pal, a.dur⟩ &&& 0xF0000000#32 = 0x20000000#32
  exact (descr_masks _).1.trans (by dsimp only; decide)

theorem wireframeA (a : EffectArgs) : Statement (.wireframeA a) := by
  intro _
  show encodeDescr ⟨.wireframeA, a.wire, a.bg, a.policy, a.pal, a.dur⟩ &&& 0xF0000000#32 = 0x30000000#32
  exact (descr_masks _).1.trans (by dsimp only; decide)

theorem fireA (a : EffectArgs) : Statement (.fireA a) := by
  intro _
  show encodeDescr ⟨.fireA, a.wire, a.bg, a.policy, a.pal, a.dur⟩ &&& 0xF0000000#32 = 0x40000000#32
  exact (descr_masks _).1.trans (by dsimp only; decide)

theorem fractal (a : EffectArgs) : Statement (.fractal a) := by
  intro _
  show encodeDescr ⟨.fractal, a.wire, a.bg, a.policy, a.pal, a.dur⟩ &&& 0xF0000000#32 = 0x50000000#32
  exact (descr_masks _).1.trans (by dsimp only; decide)

theorem fireB (a : EffectArgs) : Statement (.fireB a) := by
  intro _
  show encodeDescr ⟨.fireB, a.wire, a.bg, a.policy, a.pal, a.dur⟩ &&& 0xF0000000#32 = 0x60000000#32
  exact (descr_masks _).1.trans (by dsimp only; decide)

theorem fireC (a : EffectArgs) : Statement (.fireC a) := by
  intro _
  show encodeDescr ⟨.fireC, a.wire, a.bg, a.policy, a.pal, a.dur⟩ &&& 0xF0000000#32 = 0x70000000#32
  exact (descr_masks _).1.trans (by dsimp only; decide)

theorem theEnd (a : EffectArgs) : Statement (.theEnd a) := by
  intro _
  show encodeDescr ⟨.theEnd, a.wire, a.bg, a.policy, a.pal, a.dur⟩ &&& 0xF0000000#32 = 0x80000000#32
  exact (descr_masks _).1.trans (by dsimp only; decide)

theorem bgNone (a : BgArgs) : Statement (.bgNone a) := by
  intro _
  show encodeDescr ⟨a.op, a.wire, .none, a.policy, a.pal, a.dur⟩ &&& 0x00E00000#32 = 0x00000000#32
  exact (descr_masks _).2.2.1.trans (by dsimp only; decide)

theorem bgAutomaton (a : BgArgs) : Statement (.bgAutomaton a) := by
  intro _
  show encodeDescr ⟨a.op, a.wire, .automaton, a.policy, a.pal, a.dur⟩ &&& 0x00E00000#32 = 0x00200000#32
  exact (descr_masks _).2.2.1.trans (by dsimp only; decide)

theorem bgFractal (a : BgArgs) : Statement (.bgFractal a) := by
  intro _
  show encodeDescr ⟨a.op, a.wire, .fractal, a.policy, a.pal, a.dur⟩ &&& 0x00E00000#32 = 0x00400000#32
  exact (descr_masks _).2.2.1.trans (by dsimp only; decide)

theorem bgPlasma (a : BgArgs) : Statement (.bgPlasma a) := by
  intro _
  show encodeDescr ⟨a.op, a.wire, .plasma, a.policy, a.pal, a.dur⟩ &&& 0x00E00000#32 = 0x00600000#32
  exact (descr_masks _).2.2.1.trans (by dsimp only; decide)

theorem bgChecker (a : BgArgs) : Statement (.bgChecker a) := by
  intro _
  show encodeDescr ⟨a.op, a.wire, .checker, a.policy, a.pal, a.dur⟩ &&& 0x00E00000#32 = 0x00800000#32
  exact (descr_masks _).2.2.1.trans (by dsimp only; decide)

theorem wireNone (a : WireArgs) : Statement (.wireNone a) := by
  intro _
  show encodeDescr ⟨a.op, .none, a.bg, a.policy, a.pal, a.dur⟩ &&& 0x03000000#32 = 0x00000000#32
  exact (descr_masks _).2.1.trans (by dsimp only; decide)

theorem wireCube (a : WireArgs) : Statement (.wireCube a) := by
  intro _
  show encodeDescr ⟨a.op, .cube, a.bg, a.policy, a.pal, a.dur⟩ &&& 0x03000000#32 = 0x01000000#32
  exact (descr_masks _).2.1.trans (by dsimp only; decide)

theorem wireGem (a : WireArgs) : Statement (.wireGem a) := by
  intro _
  show encodeDescr ⟨a.op, .gem, a.bg, a.policy, a.pal, a.dur⟩ &&& 0x03000000#32 = 0x02000000#32
  exact (descr_masks _).2.1.trans (by dsimp only; decide)

theorem clear (a : PolicyArgs) : Statement (.clear a) := by
  intro _
  show encodeDescr ⟨a.op, a.wire, a.bg, .clear, a.pal, a.dur⟩ &&& 0x00180000#32 = 0x00000000#32
  exact (descr_masks _).2.2.2.trans (by dsimp only; decide)

theorem halve (a : PolicyArgs) : Statement (.halve a) := by
  intro _
  show encodeDescr ⟨a.op, a.wire, a.bg, .halve, a.pal, a.dur⟩ &&& 0x00180000#32 = 0x00080000#32
  exact (descr_masks _).2.2.2.trans (by dsimp only; decide)

theorem quarter (a : PolicyArgs) : Statement (.quarter a) := by
  intro _
  show encodeDescr ⟨a.op, a.wire, a.bg, .quarter, a.pal, a.dur⟩ &&& 0x00180000#32 = 0x00100000#32
  exact (descr_masks _).2.2.2.trans (by dsimp only; decide)

theorem rowrd (zero : BitVec 3) (idx : BitVec 13) : Statement (.rowrd zero idx) := by
  intro h
  simp only [Instr.wf, decide_eq_true_eq] at h
  subst h
  simp only [encode, encodeRow, tableRow]
  apply BitVec.eq_of_getLsbD_eq
  intro i hi
  rw [BitVec.getLsbD_and, BitVec.getLsbD_setWidth, BitVec.getLsbD_append]
  interval_cases i <;> simp [-BitVec.getLsbD_eq_getElem]

theorem audrd (n : BitVec 16) : Statement (.audrd n) := fun _ => by simp [tableRow]

end Sys2Proof.Laws.EncodeInRow
end

