-- ==== Sys2Proof/Laws/Step.lean ====
section
/-! SUPPORT. What a step is, once: only an accepted configuration steps; with no event the block goes on by itself, with one
it serves it. Later proofs cite these and do not unfold `runStep`. -/

namespace Sys2Proof.Machine

/-- Built tables mean an accepted configuration. -/
@[simp] theorem cfgAccepted_of_tblRdy {s : State} (h : s.tblRdy = true) : cfgAccepted s = true := by
  simp [cfgAccepted, h]

theorem cfgAccepted_of_cfgWf {s : State} (h : cfgWf s.cfg = true) : cfgAccepted s = true := by
  simp [cfgAccepted, h]

/-- Only an accepted configuration takes a step. -/
theorem accepted_of_step {s t : State} (h : step s = .next t) : cfgAccepted s = true := by
  unfold step runStep at h
  split at h
  · assumption
  · cases h

theorem step_nil {s : State} (ha : cfgAccepted s = true) (he : s.events = []) : step s = runAlone s := by
  simp [step, runStep, ha, he]

theorem step_cons {s : State} {e : Event} {rest : List Event} (ha : cfgAccepted s = true) (he : s.events = e :: rest) :
    step s = serve e { s with events := rest } := by
  simp [step, runStep, ha, he]

/-- Everything a step can be. -/
theorem step_cases {s t : State} (h : step s = .next t) :
    cfgAccepted s = true ∧
    ((s.events = [] ∧ runAlone s = .next t) ∨ ∃ e rest, s.events = e :: rest ∧ serve e { s with events := rest } = .next t) := by
  have ha := accepted_of_step h
  refine ⟨ha, ?_⟩
  cases he : s.events with
  | nil => exact .inl ⟨rfl, by rw [← step_nil ha he]; exact h⟩
  | cons e rest => exact .inr ⟨e, rest, rfl, by rw [← step_cons ha he]; exact h⟩

/-- A run's first step. -/
theorem core_run_succ (k : Nat) (s : State) :
    Host.Core.run Sys2Proof.core (k + 1) s =
      match step s with
      | .next t => Host.Core.run Sys2Proof.core k t
      | .fault r => .fault r
      | .refused r => .refused r := by
  refine (Host.Core.run.eq_2 Sys2Proof.core s k).trans ?_
  rw [show Sys2Proof.core.step s = step s from rfl]
  cases step s <;> rfl

/-- The build touches the tables and `TBL_RDY` alone. -/
theorem build_only (s : State) : build s = { s with pal := (build s).pal, geo := (build s).geo, tblRdy := (build s).tblRdy } := by
  unfold build buildTables; split <;> rfl

end Sys2Proof.Machine
end

