-- ==== Sys2Proof/Tests/Slice0.lean ====
section
/-! SUPPORT. Small tests. Every expected value comes from the spec: the vectors V-... of 95_test_vectors.md, the worked examples
of a rule, or a hand calculation from a rule, as the comment says. Then, for each statement with hypotheses, a witness that
states and operands meet them. -/

-- The tests are elaborated one after another, which keeps the compiler's threads few.
set_option Elab.async false

namespace Sys2Proof.Tests

open Machine

/-! ### Helpers -/

/-- The step went on. -/
def goesOn (o : Host.Outcome State Fault Refusal) : Bool :=
  match o with
  | .next _ => true
  | _ => false

/-- A fact of the next state. -/
def after (o : Host.Outcome State Fault Refusal) (p : State → Bool) : Bool :=
  match o with
  | .next t => p t
  | _ => false

/-- The step was refused for the configuration. -/
def refusesCfg (o : Host.Outcome State Fault Refusal) : Bool :=
  match o with
  | .refused r => decide (r = .illFormedCfg)
  | _ => false

theorem exists_of_goesOn {o : Host.Outcome State Fault Refusal} (h : goesOn o = true) : ∃ t, o = .next t := by
  unfold goesOn at h
  split at h
  · exact ⟨_, rfl⟩
  · cases h

/-- P1 running: tables taken as built (all black), both contexts enabled. -/
def running : State := { State.resetWith Cfg.p1 with tblRdy := true, vidEn := true, audEn := true }

/-- A 4 by 4 grid without lead. -/
def cfg4 : Cfg := { Cfg.p1 with W := 4, H := 4, LEAD := 0 }

/-- A 16 by 16 grid with the sine and cosine of 0. -/
def cfg16 : Cfg := { Cfg.p1 with W := 16, H := 16, LEAD := 0, sinOv := [(0#32, 0#32)], cosOv := [(0#32, 0x3F800000#32)] }

def small : State := { running with cfg := cfg4 }

/-- Cells from a list, row 0 first. -/
def layer (l : List Nat) : Memory 8 := l.zipIdx.foldl (fun m p => setCell m p.2 p.1) []

/-- Grid G of V-AUT-1. -/
def gridG : Memory 8 := layer [10, 20, 30, 40, 50, 100, 60, 70, 80, 90, 5, 110, 120, 130, 140, 150]

/-- At pixel (`y`, `x`) of the 4 by 4 grid in a frame, with a Background. -/
def atPixel (y x f : Nat) (m : Memory 8) : State :=
  { small with scan := BitVec.ofNat 13 y, col := BitVec.ofNat 13 x, frame := BitVec.ofNat 32 f, bg := m }

/-- P1 at a frame boundary. -/
def atBoundary (e : BitVec 4) (f : BitVec 32) (n : BitVec 16) : State :=
  { running with effect := e, frame := f, countdown := n, scan := 8#13, phase := .boundary }

def effArgs : EffectArgs := ⟨.none, .automaton, .halve, 1#3, 215#16⟩
def bgArgs (e : Effect) : BgArgs := ⟨e, .none, .clear, 0#3, 1#16⟩
def wireArgs : WireArgs := ⟨.wireframeA, .checker, .halve, 3#3, 1#16⟩
def policyArgs : PolicyArgs := ⟨.water, .none, .automaton, 1#3, 215#16⟩

/-! ### Well-formedness: an ill-formed term for each check (30_encoding.md R95, R97, R101, R103) -/

theorem test_wf_refuses_palsel_6 : (Instr.water ⟨.none, .automaton, .halve, 6#3, 215#16⟩).wf = false := by decide
theorem test_wf_refuses_water_without_automaton : (Instr.water ⟨.none, .plasma, .halve, 1#3, 215#16⟩).wf = false := by decide
theorem test_wf_refuses_acid_without_automaton : (Instr.bgNone ⟨.acid, .none, .clear, 0#3, 1#16⟩).wf = false := by decide
theorem test_wf_refuses_fire_without_automaton : (Instr.fireB ⟨.gem, .checker, .clear, 0#3, 1#16⟩).wf = false := by decide
theorem test_wf_refuses_fractal_without_fractal : (Instr.fractal ⟨.none, .none, .clear, 0#3, 1#16⟩).wf = false := by decide
theorem test_wf_refuses_wireframe_without_wire : (Instr.wireNone ⟨.wireframeA, .checker, .clear, 0#3, 1#16⟩).wf = false := by
  decide
theorem test_wf_refuses_wide_row_request : (Instr.rowrd 1#3 5#13).wf = false := by decide
theorem test_wf_accepts_water : (Instr.water ⟨.none, .automaton, .halve, 1#3, 215#16⟩).wf = true := by decide
theorem test_cfgWf_accepts_p1 : cfgWf Cfg.p1 = true := by decide +kernel
theorem test_cfgWf_refuses_lead_h : cfgWf { Cfg.p1 with LEAD := 8 } = false := by decide +kernel
theorem test_cfgWf_refuses_seed_with_gap :
    seedWf [⟨0, 127, 0, 0, 0, 255, 0, 0⟩, ⟨129, 254, 255, 0, 0, 255, 255, 0⟩] = false := by decide
/-- U8: under LEAD = H no event is served, and a fatal code stored before the build does not hide it. -/
theorem test_bad_cfg_is_refused_first :
    refusesCfg (step { State.resetWith { Cfg.p1 with LEAD := 8 } with events := [.hostWrite 0x20#32 4 1#32] }) = true ∧
    refusesCfg (step { State.resetWith { Cfg.p1 with LEAD := 8 } with halted := true, diag := 1#4 }) = true := by decide +kernel
theorem test_cfgWf_refuses_plasma_255 : cfgWf { Cfg.p1 with plasmaOv := [((0, 0, 0), 255)] } = false := by decide +kernel

/-! ### Decoding: words written out from the encoding (V-ENC-1, V-ENC-2, V-ENC-4 and the programs' words) -/

-- 0000 00 00 000 00 000 0000000000001010
theorem test_decode_start : decode .effect 0x0000000A#32 = .ok (.start ⟨.none, .none, .clear, 0#3, 10#16⟩) := by decide
-- 0001 00 00 001 01 001 0000000011010111
theorem test_decode_water : decode .effect 0x102900D7#32 = .ok (.water ⟨.none, .automaton, .halve, 1#3, 215#16⟩) := by decide
-- 0010 00 00 001 10 010 0000000010000011
theorem test_decode_acid : decode .effect 0x20320083#32 = .ok (.acid ⟨.none, .automaton, .quarter, 2#3, 131#16⟩) := by decide
-- 0011 00 01 100 01 011 0000000000000001
theorem test_decode_wireframeA : decode .effect 0x318B0001#32 = .ok (.wireframeA ⟨.cube, .checker, .halve, 3#3, 1#16⟩) := by
  decide
-- 0100 00 00 001 00 100 0000000000000001
theorem test_decode_fireA : decode .effect 0x40240001#32 = .ok (.fireA ⟨.none, .automaton, .clear, 4#3, 1#16⟩) := by decide
-- 0101 00 00 010 00 101 0000000000000001
theorem test_decode_fractal : decode .effect 0x50450001#32 = .ok (.fractal ⟨.none, .fractal, .clear, 5#3, 1#16⟩) := by decide
-- 0110 00 10 001 00 000 0000000000000001
theorem test_decode_fireB : decode .effect 0x62200001#32 = .ok (.fireB ⟨.gem, .automaton, .clear, 0#3, 1#16⟩) := by decide
-- 0111 00 00 001 00 001 0000000000000001
theorem test_decode_fireC : decode .effect 0x70210001#32 = .ok (.fireC ⟨.none, .automaton, .clear, 1#3, 1#16⟩) := by decide
-- 1000 00 00 011 01 010 0000000000000010
theorem test_decode_end : decode .effect 0x806A0002#32 = .ok (.theEnd ⟨.none, .plasma, .halve, 2#3, 2#16⟩) := by decide
theorem test_decode_bgNone : decode .background 0x0000000A#32 = .ok (.bgNone ⟨.start, .none, .clear, 0#3, 10#16⟩) := by decide
theorem test_decode_bgAutomaton : decode .background 0x102900D7#32 = .ok (.bgAutomaton ⟨.water, .none, .halve, 1#3, 215#16⟩) := by
  decide
theorem test_decode_bgFractal : decode .background 0x50450001#32 = .ok (.bgFractal ⟨.fractal, .none, .clear, 5#3, 1#16⟩) := by
  decide
theorem test_decode_bgPlasma : decode .background 0x806A0002#32 = .ok (.bgPlasma ⟨.theEnd, .none, .halve, 2#3, 2#16⟩) := by decide
theorem test_decode_bgChecker : decode .background 0x318B0001#32 = .ok (.bgChecker ⟨.wireframeA, .cube, .halve, 3#3, 1#16⟩) := by
  decide
theorem test_decode_wireNone : decode .wire 0x0000000A#32 = .ok (.wireNone ⟨.start, .none, .clear, 0#3, 10#16⟩) := by decide
theorem test_decode_wireCube : decode .wire 0x318B0001#32 = .ok (.wireCube ⟨.wireframeA, .checker, .halve, 3#3, 1#16⟩) := by decide
theorem test_decode_wireGem : decode .wire 0x62200001#32 = .ok (.wireGem ⟨.fireB, .automaton, .clear, 0#3, 1#16⟩) := by decide
theorem test_decode_clear : decode .policy 0x62200001#32 = .ok (.clear ⟨.fireB, .gem, .automaton, 0#3, 1#16⟩) := by decide
theorem test_decode_halve : decode .policy 0x102900D7#32 = .ok (.halve ⟨.water, .none, .automaton, 1#3, 215#16⟩) := by decide
theorem test_decode_quarter : decode .policy 0x20320083#32 = .ok (.quarter ⟨.acid, .none, .automaton, 2#3, 131#16⟩) := by decide
theorem test_decode_rowrd : decode .rowPort 0x01DF#32 = .ok (.rowrd 0#3 479#13) := by decide
theorem test_decode_audrd : decode .audioPort 0x0100#32 = .ok (.audrd 256#16) := by decide

/-! ### Ill-formed words are rejected by name (V-ENC-3; 30_encoding.md R97) -/

theorem test_reject_bgsel_7 : decodeDescr 0x10E00001#32 = .rejected .reservedBg := by decide
theorem test_reject_wiresel_3 : decodeDescr 0x13200001#32 = .rejected .reservedWire := by decide
theorem test_reject_bit_26 : decodeDescr 0x14200001#32 = .rejected .reservedBits := by decide
theorem test_reject_policy_3 : decodeDescr 0x10380001#32 = .rejected .reservedPolicy := by decide
theorem test_reject_palsel_7 : decodeDescr 0x10270001#32 = .rejected .reservedPal := by decide
theorem test_reject_op_9 : decodeDescr 0x90000000#32 = .rejected .reservedOp := by decide
theorem test_reject_wide_request : decode .rowPort 0x10005#32 = .rejected .tooWide := by decide
/-- A word with `OP` 2 at index 1 (V-ENC-3). -/
theorem test_reject_op_not_its_index :
    contextA { running with effect := 1#4, cfg := { Cfg.p1 with edr := Cfg.p1.edr.set 1 0x20200001#32 } } =
      .refused .illFormedDescriptor := by rfl

/-! ### Effects -/

/-- The example of 41_sequencer.md R126. -/
theorem test_start_transition :
    after (exec (.start ⟨.none, .none, .clear, 0#3, 10#16⟩) (atBoundary 0#4 9#32 0#16)) (fun t =>
      decide (t.effect = 1#4 ∧ t.countdown = 214#16 ∧ t.palact = 1#3 ∧ t.frame = 10#32 ∧ t.scan = 0#13 ∧
        t.prologueDone = true)) = true := by decide +kernel
/-- V-AUT-1 through a dispatch. -/
theorem test_water_dispatch :
    after (exec (.water effArgs) (atPixel 1 1 4 gridG)) (fun t =>
      decide (cell t.bg 1 = 32 ∧ cell t.bg 5 = 38 ∧ cell t.bg 10 = 55 ∧ t.col = 2#13 ∧ t.phase = .gen)) = true := by
  decide +kernel
/-- V-AUT-4. -/
theorem test_acid_dispatch :
    after (exec (.acid effArgs) (atPixel 1 1 4 gridG)) (fun t =>
      decide (cell t.bg 1 = 20 ∧ cell t.bg 5 = 38 ∧ cell t.bg 9 = 102 ∧ cell t.bg 10 = 55)) = true := by decide +kernel
/-- 43_gen_fractal_plasma_checker.md R184, `f = 0`, (1, 2), in the last column. -/
theorem test_wireframeA_dispatch :
    after (exec (.wireframeA ⟨.cube, .checker, .halve, 3#3, 1#16⟩) (atPixel 1 3 0 [])) (fun t =>
      decide (cell t.bg 7 = 1 ∧ t.fg = [] ∧ t.col = 0#13 ∧ t.phase = .merge)) = true := by decide +kernel
/-- V-AUT-2. -/
theorem test_fireA_dispatch :
    after (exec (.fireA effArgs) (atPixel 3 1 0 (setCell [] 9 200))) (fun t =>
      decide (cell t.bg 8 = 127 ∧ cell t.bg 9 = 231 ∧ cell t.bg 13 = 96)) = true := by decide +kernel
/-- V-SEQ-1, k = 359. -/
theorem test_fractal_transition :
    after (exec (.fractal ⟨.none, .fractal, .clear, 5#3, 1#16⟩) (atBoundary 5#4 358#32 0#16)) (fun t =>
      decide (t.effect = 6#4 ∧ t.countdown = 0#16 ∧ t.palact = 0#3 ∧ t.frame = 359#32)) = true := by decide +kernel
/-- V-AUT-2, not the bottom row. -/
theorem test_fireB_dispatch :
    after (exec (.fireB ⟨.gem, .automaton, .clear, 0#3, 1#16⟩) (atPixel 2 1 0 (setCell [] 9 200))) (fun t =>
      decide (cell t.bg 4 = 100 ∧ cell t.bg 5 = 24 ∧ cell t.bg 9 = 75)) = true := by decide +kernel
/-- V-SEQ-1, k = 361: END begins, with one more frame to count. -/
theorem test_fireC_transition :
    after (exec (.fireC effArgs) (atBoundary 7#4 360#32 0#16)) (fun t =>
      decide (t.effect = 8#4 ∧ t.countdown = 1#16 ∧ t.palact = 2#3)) = true := by decide +kernel
/-- V-SEQ-1, k = 363: the transition 8 to 8 (41_sequencer.md R140). -/
theorem test_end_transition :
    after (exec (.theEnd ⟨.none, .plasma, .clear, 2#3, 2#16⟩) (atBoundary 8#4 362#32 0#16)) (fun t =>
      decide (t.effect = 8#4 ∧ t.countdown = 1#16 ∧ t.palact = 2#3 ∧ t.frame = 363#32)) = true := by decide +kernel
/-- V-MRG-1, palette 0: (127, 128) gives `0x7BEF OR 0x8410`. -/
theorem test_start_merge :
    after (exec (.start effArgs) { atPixel 0 3 0 (setCell [] 3 127) with
        phase := .merge, fg := setCell [] 3 128, pal := [(127, 0x7BEF#32), (128, 0x8410#32)] }) (fun t =>
      decide (Memory.read t.comp 3 = 0xFFFF#32 ∧ t.scan = 1#13 ∧ t.col = 0#13 ∧ t.phase = .gen)) = true := by decide +kernel

/-! ### Background rows -/

theorem test_bgNone_keeps_cell : after (exec (.bgNone (bgArgs .start)) (atPixel 1 1 0 gridG)) (fun t => t.bg == gridG) = true := by
  decide +kernel
/-- V-AUT-3. -/
theorem test_bgAutomaton_corner :
    after (exec (.bgAutomaton (bgArgs .water)) (atPixel 0 0 1 (layer [200, 10, 0, 0, 40, 10]))) (fun t =>
      decide (cell t.bg 0 = 99 ∧ cell t.bg 1 = 110 ∧ cell t.bg 4 = 40)) = true := by decide +kernel
/-- V-AUT-3 with ACID. -/
theorem test_bgAutomaton_corner_acid :
    after (exec (.bgAutomaton (bgArgs .acid)) (atPixel 0 0 1 (layer [200, 10, 0, 0, 40, 10]))) (fun t =>
      decide (cell t.bg 0 = 75 ∧ cell t.bg 1 = 110 ∧ cell t.bg 4 = 64)) = true := by decide +kernel
/-- V-FRA-5, pixel (0, 2) of the 8 by 8 grid. -/
theorem test_bgFractal_block :
    after (exec (.bgFractal (bgArgs .fractal)) { running with cfg := { Cfg.p1 with LEAD := 0 }, col := 2#13 }) (fun t =>
      decide (cell t.bg 2 = 62 ∧ cell t.bg 3 = 62 ∧ cell t.bg 10 = 62 ∧ cell t.bg 11 = 62 ∧ cell t.bg 4 = 0)) = true := by
  decide +kernel
/-- V-FRA-3, and the start point already outside (V-FRA-2). -/
theorem test_frIter_vectors :
    frIter 0x3F800000#32 0x3F000000#32 0#32 0#32 = 1 ∧ frIter 0x3FA00000#32 0#32 0#32 0#32 = 0 := by decide +kernel
/-- V-PLA-1 by its value 127 as an override; the block of (4, 4) on 6 columns is clipped. -/
theorem test_bgPlasma_clipped :
    after (exec (.bgPlasma (bgArgs .theEnd)) { running with
        cfg := { Cfg.p1 with W := 6, LEAD := 4, plasmaOv := [((0, 4, 4), 127)] }, col := 4#13 }) (fun t =>
      decide (cell t.bg 28 = 127 ∧ cell t.bg 29 = 127 ∧ cell t.bg 30 = 0 ∧ cell t.bg 47 = 127)) = true := by decide +kernel
/-- 43_gen_fractal_plasma_checker.md R184: `f = 6`, (1, 2) stores 0, over what was there. -/
theorem test_bgChecker_example :
    after (exec (.bgChecker (bgArgs .wireframeA)) (atPixel 1 2 6 gridG)) (fun t => decide (cell t.bg 6 = 0)) = true := by
  decide +kernel
/-- The diagonal stores 255. -/
theorem test_bgChecker_diagonal :
    after (exec (.bgChecker (bgArgs .wireframeA)) (atPixel 2 2 0 gridG)) (fun t => decide (cell t.bg 10 = 255)) = true := by
  decide +kernel
/-- V-AUT-5. -/
theorem test_xfer_vectors :
    cell (xfer (layer [200, 250]) 0 1 50) 0 = 195 ∧ cell (xfer (layer [200, 250]) 0 1 50) 1 = 255 ∧
    cell (xfer (layer [30, 10]) 0 1 50) 1 = 40 ∧ cell (xfer (layer [77]) 0 0 50) 0 = 77 := by decide +kernel

/-! ### Wire rows and text -/

theorem test_wireNone_keeps_cell :
    after (exec (.wireNone wireArgs) { running with fg := layer [200] }) (fun t => decide (cell t.fg 0 = 200)) = true := by
  decide +kernel
/-- V-WIR-2: the corner (-1, -1, -1) on the 64 by 64 screen. -/
theorem test_project_corner :
    project { cfg16 with W := 64, H := 64, proj := defaultProj 64 64 }
      (0xBF800000#32, 0xBF800000#32, 0xBF800000#32) 0 = (21, 25) := by decide +kernel
theorem test_wireCube_not_first : exec (.wireCube wireArgs) { running with col := 1#13, fg := layer [200] } =
    .next { running with col := 1#13, fg := layer [200] } := by rfl
/-- 44_gen_wireframe_text.md R193, R207: a gem of size 0 is the point (8, 12); the rest of the layer halves. -/
theorem test_wireGem_degenerate :
    after (exec (.wireGem wireArgs) { running with cfg := cfg16, fg := layer [200] }) (fun t =>
      decide (cell t.fg 0 = 100 ∧ cell t.fg (12 * 16 + 8) = 254 ∧ t.fg.length = 2)) = true := by decide +kernel
/-- V-LIN-1. -/
theorem test_line_vectors :
    linePoints (0, 0) (4, 2) = [(0, 0), (1, 1), (2, 1), (3, 2), (4, 2)] ∧
    linePoints (4, 2) (0, 0) = [(4, 2), (3, 1), (2, 1), (1, 0), (0, 0)] ∧ linePoints (2, 2) (2, 2) = [(2, 2)] := by
  decide +kernel
/-- V-LIN-2. -/
theorem test_toInt_vectors :
    toInt 0xBF400000#32 = 0 ∧ toInt 0xBFC00000#32 = -1 ∧ toInt 0x4E6E6B28#32 = 32767 ∧ toInt 0xCE6E6B28#32 = -32768 ∧
    toInt 0x7F800000#32 = 32767 ∧ toInt 0x7FC00000#32 = 0 := by decide +kernel
/-- V-TXT-1, left. -/
theorem test_glyph_vector :
    after (exec (.start ⟨.none, .none, .clear, 0#3, 10#16⟩) { running with
        cfg := { Cfg.p1 with W := 5, H := 5, LEAD := 0, textEvents := [⟨.window 0 10, 1, 0, 1, 200#8, ['T']⟩] } }) (fun t =>
      t.fg == layer [0, 200, 200, 200, 0, 0, 0, 200, 0, 0, 0, 0, 200, 0, 0, 0, 0, 200, 0, 0, 0, 0, 200, 0, 0]) = true := by
  decide +kernel

/-! ### Policy rows (V-SEQ-4) -/

theorem test_clear_vector :
    after (exec (.clear policyArgs) { small with bg := layer [255, 200, 3, 1], fg := layer [9] }) (fun t =>
      decide (t.bg = [] ∧ t.fg = [])) = true := by decide +kernel
theorem test_halve_vector :
    after (exec (.halve policyArgs) { small with bg := layer [255, 200, 3, 1], fg := layer [9] }) (fun t =>
      decide (t.bg = layer [127, 100, 1] ∧ t.fg = [])) = true := by decide +kernel
theorem test_quarter_vector :
    after (exec (.quarter policyArgs) { small with bg := layer [255, 200, 3, 1], fg := layer [9] }) (fun t =>
      decide (t.bg = layer [63, 50] ∧ t.fg = [])) = true := by decide +kernel

/-! ### Ports -/

/-- 45_compositor_handoff.md R240. -/
theorem test_rowrd_row :
    after (exec (.rowrd 0#3 1#13) { small with comp := [(3, 5#32), (4, 7#32), (6, 9#32)] }) (fun t =>
      decide (t.rowReply = [7#32, 0#32, 9#32, 0#32] ∧ t.rowReq = none)) = true := by decide +kernel
/-- 45_compositor_handoff.md R242: `W` words, nothing else. -/
theorem test_rowrd_outside :
    after (exec (.rowrd 1#3 5#13) small) (fun t => decide (t.rowReply.length = 4 ∧ t.comp = [])) = true := by decide +kernel
/-- V-AUD-1. -/
theorem test_audrd_vector :
    after (exec (.audrd 4#16) { running with audStep := 0x180#32 }) (fun t =>
      decide (t.audReply.map BitVec.toInt = [0, 32512, -16384, -16384] ∧ t.audPos = 0x300#32)) = true := by decide +kernel
/-- 46_audio.md R270, last row. -/
theorem test_audrd_disabled :
    after (exec (.audrd 3#16) { running with audEn := false }) (fun t =>
      decide (t.audReply = [0#16, 0#16, 0#16] ∧ t.audPos = 0#32)) = true := by decide +kernel

/-! ### The host, the tables, the run from reset -/

/-- R43 after reset: the generated row 2 of P1's LEAD = 2, over scan position 0 (log 20). -/
theorem test_scan_after_reset : regRead State.reset 0x14#32 = 0x00020000#32 := by decide
/-- V-FAT-1. -/
theorem test_fatal_status :
    after (Sys2Proof.core.run 2 { running with events := [.hostWrite 0x20#32 4 1#32, .hostRead 4#32 4] }) (fun t =>
      decide (t.hostData = 0x19#32)) = true := by decide +kernel
/-- V-RST-1: an enable written before the tables are ready is ignored. -/
theorem test_enable_before_ready :
    after (step { State.reset with events := [.hostWrite 0#32 4 3#32] }) (fun t => decide (t.vidEn = false)) = true := by
  decide +kernel
/-- V-PAL-1: `PAL[1][96]` and `PAL[1][191]`. -/
theorem test_palette_vectors :
    segColor Cfg.p1 ⟨0, 127, 0, 0, 0, 255, 0, 0⟩ 96 = 0xC000#32 ∧
    segColor Cfg.p1 ⟨128, 254, 255, 0, 0, 255, 255, 0⟩ 191 = 0xFBE0#32 := by decide +kernel
/-- The first step from reset builds the tables (70_reset_and_hazards.md R342). -/
theorem test_reset_builds : after (step State.reset) (fun t => t.tblRdy && !t.vidEn) = true := by decide +kernel
/-- A word placed by `withFetchWord` runs at once. -/
theorem test_withFetchWord_runs :
    after (step (State.reset.withFetchWord 32 0x102900D7)) (fun t => decide (t.col = 1#13)) = true := by decide +kernel
theorem test_decodeTableWord :
    decodeTableWord 32 0x00800000 = some (.bgChecker ⟨.start, .none, .clear, 0#3, 0#16⟩) ∧
    decodeTableWord 16 0x0005 = some (.rowrd 0#3 5#13) := by decide

/-! ### Witnesses: the hypotheses of each statement are met -/

theorem running_inv : Inv running where
  cfg := test_cfgWf_accepts_p1
  effect := by decide
  palact := by decide
  scan := by decide
  col := by decide
  boundary := by decide
  due := by decide
  audPos := by decide
  enables := by decide
  diag := by decide
  bgWf := rfl
  bgBelow := rfl
  fgWf := rfl
  fgBelow := rfl
  compWf := rfl
  compBelow := rfl
  compWords := rfl
  palWf := rfl
  palBelow := rfl
  palValues := rfl
  geoWf := rfl
  transparent := fun _ _ _ => rfl
  row := by intro r h; cases h
  audio := by intro a h; cases h

theorem witness_DecodeOfEncodeIsTheInstruction :
    (∀ d, (Instr.water ⟨.gem, .plasma, .quarter, 5#3, 65535#16⟩).descr = some d → d.palOk = true) ∧
    (∀ d, (Instr.rowrd 7#3 8191#13).descr = some d → d.palOk = true) := by
  constructor
  · intro d h; cases h; decide
  · intro d h; cases h

theorem witness_EncodeOfDecodeIsTheWord : decode .wire 0x62200001#32 = .ok (.wireGem ⟨.fireB, .automaton, .clear, 0#3, 1#16⟩) ∧
    decode .audioPort 0xFFFF#32 = .ok (.audrd 65535#16) := by decide

theorem witness_FieldsAreReadAsTheyStand : decodeDescr 0x82950FFF#32 = .ok ⟨.theEnd, .gem, .checker, .quarter, 5#3, 4095#16⟩ := by
  decide

theorem witness_IllFormedWordsAreRefused :
    Slot.effect ≠ .rowPort ∧ Slot.effect ≠ .audioPort ∧
    videoLive { running with effect := 9#4 } = true ∧ (edrWord Cfg.p1 9).toNat / 2 ^ 28 ≠ (9#4 : BitVec 4).toNat ∧
    cfgWf { Cfg.p1 with LEAD := 8 } = false ∧ (State.resetWith { Cfg.p1 with LEAD := 8 }).tblRdy = false := by decide

theorem witness_OneRowOfEachGroupMatches :
    decodeDescr 0x82950FFF#32 = .ok ⟨.theEnd, .gem, .checker, .quarter, 5#3, 4095#16⟩ ∧
    Slot.policy ∈ [Slot.effect, Slot.background, Slot.wire, Slot.policy] := by decide

theorem witness_StepRunsTheDecodedInstruction : cfgAccepted running = true ∧
    running.events = [] ∧ buildDue running = false ∧ videoLive running = true ∧
    opField (edrWord running.cfg running.effect.toNat) = running.effect ∧
    decode .effect (edrWord running.cfg running.effect.toNat) = .ok (.start ⟨.none, .none, .clear, 0#3, 10#16⟩) ∧
    decode .rowPort ((7#16).setWidth 32) = .ok (.rowrd 0#3 7#13) ∧
    decode .audioPort ((7#16).setWidth 32) = .ok (.audrd 7#16) := by decide

/-- Accepted with the tables built and without. -/
theorem witness_ResetEventRestoresReset :
    let s := { running with events := [.reset, .contextA] }
    cfgAccepted s = true ∧ cfgAccepted { s with tblRdy := false } = true ∧ s.events = .reset :: [.contextA] := by decide +kernel

theorem witness_InvariantHoldsAtReset : cfgWf Cfg.p1 = true := test_cfgWf_accepts_p1

theorem witness_EveryStepKeepsTheInvariant : Inv running ∧ ∃ t, step running = .next t :=
  ⟨running_inv, exists_of_goesOn (by decide +kernel)⟩

theorem witness_RunsNeverStop : Inv running := running_inv

/-- One state for each kind of event, each of whose steps goes on. -/
theorem witness_EachAgentWritesOnlyItsOwn :
    (∃ t, step State.reset = .next t) ∧ (∃ t, step running = .next t) ∧
    ∀ e ∈ [Event.contextA, .build, .rowRequest 1#16, .rowOpen 9#16, .rowWord, .audioRequest 2#16, .audioOpen 3#16, .audioSample,
        .hostRead 4#32 4, .hostWrite 0x1C#32 4 5#32, .hostWrite 0x20#32 4 5#32],
      ∃ t, step { running with events := [e] } = .next t := by
  refine ⟨exists_of_goesOn (by decide +kernel), exists_of_goesOn (by decide +kernel), fun e he => exists_of_goesOn ?_⟩
  revert e
  decide +kernel

theorem witness_SequencerMovesOnlyAtTheBoundary :
    (atBoundary 8#4 362#32 0#16).effect.toNat ≤ 8 ∧ resetNext (atBoundary 8#4 362#32 0#16) = false ∧
    ∃ t, step (atBoundary 8#4 362#32 0#16) = .next t :=
  ⟨by decide, by decide, exists_of_goesOn (by decide +kernel)⟩

theorem witness_VideoDoesNotDependOnAudio :
    videoView running = videoView { running with audPos := 0x100#32, audEn := false } ∧
    ∃ t, Sys2Proof.core.run 1 running = .next t :=
  ⟨rfl, exists_of_goesOn (by decide +kernel)⟩

theorem witness_AudioDoesNotDependOnVideo :
    let s := { running with events := [.audioRequest 2#16] }
    audioView s = audioView { s with frame := 7#32, bg := [(0, 1#8)] } ∧ (∃ t, step s = .next t) ∧
    ∃ t, step { s with frame := 7#32, bg := [(0, 1#8)] } = .next t :=
  ⟨rfl, exists_of_goesOn (by decide +kernel), exists_of_goesOn (by decide +kernel)⟩

/-- The first pixel and the last. -/
theorem witness_DispatchRunsTheThreeUnits :
    (videoLive running = true ∧ running.phase = .gen ∧ positionOk running = true) ∧
    positionOk { running with scan := 7#13, col := 7#13 } = true := by decide

theorem witness_MergeWritesOneColour :
    let s := { running with phase := .merge, palact := 5#3 }
    videoLive s = true ∧ s.phase = .merge ∧ positionOk s = true ∧ s.palact.toNat ≤ 5 ∧ s.col.toNat + 1 ≠ s.cfg.W ∧
    positionOk { s with col := 7#13 } = true ∧ ({ s with col := 7#13 } : State).col.toNat + 1 = s.cfg.W := by decide

theorem witness_BoundaryCountsTheFrame :
    let s := atBoundary 0#4 9#32 1#16
    videoLive s = true ∧ s.phase = .boundary ∧ s.scan.toNat = s.cfg.H ∧ s.prologueDone = false ∧ s.countdown ≠ 0#16 ∧
    ({ s with scan := 7#13 } : State).scan.toNat ≠ s.cfg.H ∧ ({ s with prologueDone := true } : State).prologueDone = true := by
  decide

theorem witness_BoundaryMakesTheTransition :
    let s := atBoundary 8#4 9#32 0#16
    videoLive s = true ∧ s.phase = .boundary ∧ s.scan.toNat = s.cfg.H ∧ s.prologueDone = false ∧ s.countdown = 0#16 ∧
    0 < s.cfg.H * s.cfg.W := by decide

theorem witness_FrameAdvanceIsOneShot :
    running.scan.toNat ≠ running.cfg.H ∧
    ((atBoundary 0#4 9#32 1#16).scan.toNat = running.cfg.H ∧ (atBoundary 0#4 9#32 1#16).prologueDone = false) ∧
    Inv (atBoundary 0#4 9#32 1#16) ∧ (atBoundary 0#4 9#32 1#16).phase = .boundary :=
  ⟨by decide, by decide, { running_inv with
    scan := by decide, boundary := by decide, due := by decide, row := fun r h => (by cases h), audio := fun a h => (by cases h) }, rfl⟩

theorem witness_RowsAreGeneratedFromTheLead : running.cfg.LEAD < running.cfg.H ∧ running.cfg.H ≤ 2 ^ 13 := by decide

theorem witness_OneFrameOfTheLoop :
    videoLive State.reset = false ∧ Inv running ∧ videoNext running = true ∧ frameStart running = true ∧
    7 < running.cfg.H ∧ 15 < 2 * running.cfg.W :=
  ⟨by decide, running_inv, by decide, by decide, by decide, by decide⟩

theorem atBoundary_inv : Inv (atBoundary 0#4 9#32 0#16) :=
  { running_inv with
    scan := by decide, boundary := by decide, due := by decide
    row := fun r h => (by cases h), audio := fun a h => (by cases h) }

/-- The boundary that ends START (R131, frame 9), whose step makes the transition; and END at the last counter value. -/
theorem witness_TimelineInvariant :
    (Inv (atBoundary 0#4 9#32 0#16) ∧ OnTimeline (atBoundary 0#4 9#32 0#16) ∧
      (atBoundary 0#4 9#32 0#16).frame.toNat < 2 ^ 32 - 1 ∧ ∃ t, step (atBoundary 0#4 9#32 0#16) = .next t) ∧
    OnTimeline { running with effect := 8#4, frame := 0xFFFFFFFE#32, palact := 2#3 } :=
  ⟨⟨atBoundary_inv, ⟨by decide +kernel, by decide +kernel, by decide +kernel⟩, by decide, exists_of_goesOn (by decide +kernel)⟩,
    ⟨by decide +kernel, by decide +kernel, by decide +kernel⟩⟩

/-- The first step, the last step before END, the first of END. -/
theorem witness_TimelineFollowsTheDurations :
    cfgWf Cfg.p1 = true ∧ isSourceTimeline Cfg.p1 = true ∧
    (0 / frameSteps Cfg.p1 < 2 ^ 32 ∧ cum Cfg.p1 0 ≤ 0 / frameSteps Cfg.p1 ∧ 0 / frameSteps Cfg.p1 < cum Cfg.p1 1) ∧
    (46568 / frameSteps Cfg.p1 < 2 ^ 32 ∧ cum Cfg.p1 7 ≤ 46568 / frameSteps Cfg.p1 ∧
      46568 / frameSteps Cfg.p1 < cum Cfg.p1 8) ∧
    cum Cfg.p1 8 ≤ 46569 / frameSteps Cfg.p1 :=
  ⟨test_cfgWf_accepts_p1, by decide +kernel⟩

theorem witness_positions :
    positionOk running = true ∧ positionOk { running with scan := 7#13, col := 7#13 } = true ∧
    positionOk { running with scan := 8#13 } = false ∧ positionOk { running with col := 8#13 } = false := by decide

/-- `CheckerWritesOneCell`, `AutomatonRunsItsFourPhases`: the first pixel and the last. -/
theorem witness_CheckerWritesOneCell : positionOk running = true := by decide
theorem witness_AutomatonRunsItsFourPhases : positionOk { running with scan := 7#13, col := 7#13 } = true := by decide

theorem witness_TransferIsBounded : (0 : Nat) ≠ 1 ∧ (3 : Nat) = 3 := by decide

theorem witness_ForcingFollowsTheClass :
    (Effect.water = .water ∨ Effect.water = .acid) ∧ (Effect.fireC = .fireA ∨ Effect.fireC = .fireB ∨ Effect.fireC = .fireC) ∧
    (Effect.theEnd = .start ∨ Effect.theEnd = .wireframeA ∨ Effect.theEnd = .fractal ∨ Effect.theEnd = .theEnd) ∧
    (1 : Nat) ≠ cellAddr cfg4 0 0 := by decide

/-- No neighbour below the cell; then grid G, whose least neighbour 5 of (1, 1) is the last of `NBR`. -/
theorem witness_DiffusionGoesToTheFirstMinimum :
    (∀ b ∈ nbrAddrs cfg4 1 1, cell [] (cellAddr cfg4 1 1) ≤ cell [] b) ∧
    (nbrAddrs cfg4 1 1)[7]? = some 10 ∧ cell gridG 10 < cell gridG (cellAddr cfg4 1 1) ∧
    (∀ b' ∈ nbrAddrs cfg4 1 1, cell gridG 10 ≤ cell gridG b') ∧
    (∀ j b', j < 7 → (nbrAddrs cfg4 1 1)[j]? = some b' → cell gridG 10 < cell gridG b') := by
  refine ⟨by decide +kernel, by decide, by decide +kernel, by decide +kernel, ?_⟩
  have h : ∀ j < 7, ∀ b' ∈ (nbrAddrs cfg4 1 1)[j]?, cell gridG 10 < cell gridG b' := by decide +kernel
  intro j b' hj hb
  exact h j hj b' hb

theorem witness_CoolingFollowsTheAverage : (1 : Nat) ≠ cellAddr cfg4 0 0 := by decide

/-- Values 32, 33, 128, 129 at the bounds; each of the four places where the value is above 128. -/
theorem witness_ConvectionPushesNorth :
    cell (layer [0, 0, 0, 0, 0, 32]) (cellAddr cfg4 1 1) ≤ 32 ∧
    (32 < cell (layer [0, 0, 0, 0, 0, 33]) (cellAddr cfg4 1 1) ∧
      cell (layer [0, 0, 0, 0, 0, 128]) (cellAddr cfg4 1 1) ≤ 128 ∧ clampAddr cfg4 (1 + -1) 1 ≠ cellAddr cfg4 1 1) ∧
    (128 < cell (layer [0, 0, 0, 0, 0, 129]) (cellAddr cfg4 1 1)) ∧
    clampAddr cfg4 (0 + -1) 1 = cellAddr cfg4 0 1 ∧
    [cellAddr cfg4 2 1, clampAddr cfg4 (2 + -1) 1, clampAddr cfg4 (2 + 2 * -1) 1, clampAddr cfg4 (2 - -1) 1].Nodup ∧
    ([cellAddr cfg4 1 1, clampAddr cfg4 (1 + -1) 1, clampAddr cfg4 (1 - -1) 1].Nodup ∧
      clampAddr cfg4 (1 + 2 * -1) 1 = clampAddr cfg4 (1 + -1) 1) ∧
    ([cellAddr cfg4 3 1, clampAddr cfg4 (3 + -1) 1, clampAddr cfg4 (3 + 2 * -1) 1].Nodup ∧
      clampAddr cfg4 (3 - -1) 1 = cellAddr cfg4 3 1) ∧
    (clampAddr cfg4 (0 + 2 * -1) 1 = cellAddr cfg4 0 1 ∧ clampAddr cfg4 (0 - -1) 1 ≠ cellAddr cfg4 0 1) := by
  decide +kernel

theorem witness_AutomatonConservesEnergy : 3 < cfg4.H ∧ 3 < cfg4.W := by decide

theorem witness_StillWaterStaysStill :
    let s := atPixel 0 0 0 []
    ((bgArgs .water).op = .water ∨ (bgArgs .water).op = .acid) ∧ s.cfg.ambientAmt = 1 ∧ 4 ≤ s.cfg.W ∧ 4 ≤ s.cfg.H ∧ s.bg = [] ∧
    positionOk s = true := by decide

/-- An even pixel, the last (odd) pixel. -/
theorem witness_FractalFillsItsBlock :
    positionOk (atPixel 2 2 0 []) = true ∧ genRow (atPixel 2 2 0 []) % 2 = 0 ∧ (atPixel 2 2 0 []).col.toNat % 2 = 0 ∧
    positionOk (atPixel 3 3 0 []) = true ∧ genRow (atPixel 3 3 0 []) % 2 = 1 := by decide

theorem witness_FractalCountsItsUpdates :
    frIter 0x3F800000#32 0x3F000000#32 0#32 0#32 < 32 ∧ 0 < frIter 0x3F800000#32 0x3F000000#32 0#32 0#32 := by decide +kernel

theorem witness_PlasmaFillsItsBlock :
    positionOk (atPixel 0 0 0 []) = true ∧ (∀ o ∈ (atPixel 0 0 0 []).cfg.plasmaOv, o.2 ≤ 254) ∧
    genRow (atPixel 0 0 0 []) % 4 = 0 ∧ (atPixel 0 0 0 []).col.toNat % 4 = 0 ∧
    positionOk (atPixel 3 3 0 []) = true ∧ genRow (atPixel 3 3 0 []) % 4 ≠ 0 := by decide

theorem witness_PositionOffTheGridFaults :
    positionOk { running with scan := 8#13 } = false ∧ positionOk { running with col := 8#13 } = false ∧
    videoLive running = true ∧ running.phase ≠ .boundary ∧
    5 < ({ running with phase := .merge, palact := 6#3 } : State).palact.toNat ∧
    ({ running with phase := .merge, palact := 6#3 } : State).phase = .merge := by decide

/-- The first dispatch and another; a point on an edge of the degenerate gem and one off it. -/
theorem witness_WireRowsFadeAndRedraw :
    WireSel.cube ≠ .none ∧ firstDispatch { running with col := 1#13 } = false ∧ firstDispatch { running with cfg := cfg16 } = true ∧
    onEdge { running with cfg := cfg16 } (decide (WireSel.gem = .gem)) (8, 12) ∧
    ¬ onEdge { running with cfg := cfg16 } (decide (WireSel.gem = .gem)) (8, 11) := by
  refine ⟨by decide, by decide, by decide, ?_, ?_⟩
  · unfold onEdge; decide +kernel
  · unfold onEdge; decide +kernel

theorem witness_LineVisitsItsPoints : (0 : Nat) < max ((3 : Int) - 0).natAbs ((1 : Int) - 0).natAbs := by decide

theorem witness_DegenerateTriangleIsAPoint :
    geoVertex [] true 9 1 = geoVertex [] true 9 0 ∧ geoVertex [] true 9 2 = geoVertex [] true 9 0 := by decide

/-- A NaN, the words next above 32767.0 and next below -32768.0, and the two bounds themselves. -/
theorem witness_ScreenCoordinateIsSixteenBit : f32IsFinite 0xBFC00000#32 = true ∧
    f32IsNaN 0x7FC00000#32 = true ∧ f32Gt 0x46FFFE01#32 0x46FFFE00#32 = true ∧ f32Gt 0xC7000000#32 0xC7000001#32 = true ∧
    (f32IsNaN 0x46FFFE00#32 = false ∧ f32Gt 0x46FFFE00#32 0x46FFFE00#32 = false ∧ f32Gt 0xC7000000#32 0x46FFFE00#32 = false) ∧
    f32Gt 0xC7000000#32 0xC7000000#32 = false := by decide +kernel

/-- The T of V-TXT-1 at (1, 0): cell (4, 2) is its foot, cell (4, 1) is clear. -/
theorem witness_GlyphWritesItsSetCells : onGlyph 0x7492#15 1 0 1 4 2 ∧ ¬ onGlyph 0x7492#15 1 0 1 4 1 := by
  constructor
  · exact ⟨4, 1, 0, 0, by decide, by decide, by decide, by decide, by decide, by decide, by decide⟩
  · rintro ⟨r, c, dy, dx, hr, hc, hdy, hdx, hb, hy, hx⟩
    have h1 : dy = 0 := by omega
    have h2 : dx = 0 := by omega
    have h3 : r = 4 := by push_cast at hy; omega
    have h4 : c = 0 := by push_cast at hx; omega
    subst h1 h2 h3 h4
    exact absurd hb (by decide)

theorem witness_StringsAreDrawnByThePen : firstDispatch running = true ∧
    (eventActive ⟨.window 2 8, 2, 1, 1, 200#8, ['T']⟩ .start 2 = true ∧
      eventActive ⟨.window 2 8, 2, 1, 1, 200#8, ['T']⟩ .start 8 = false) ∧
    '\n' ∉ ['T', 'I'] ∧ firstDispatch { running with col := 1#13 } = false ∧
    (∀ ev ∈ running.cfg.textEvents, eventActive ev .start running.frame.toNat = false) := by decide

theorem witness_PolicyRowsResetTheLayers : 15 < small.cfg.H * small.cfg.W ∧ small.cfg.H * small.cfg.W ≤ 16 := by decide

theorem witness_RowRequestReturnsTheRow : (7#13 : BitVec 13).toNat < running.cfg.H ∧ 0 < running.cfg.W := by decide

theorem witness_RowRequestOutsideGivesFreeWords :
    (1#3 ≠ 0#3 ∨ running.cfg.H ≤ (5#13 : BitVec 13).toNat) ∧ (0#3 ≠ 0#3 ∨ running.cfg.H ≤ (8#13 : BitVec 13).toNat) ∧
    0 < running.cfg.W := by decide

theorem witness_RowWordIsReadWhenTaken :
    let s := { running with events := [.rowWord], rowReq := some ⟨encodeRow 0#3 7#13, 7⟩ }
    cfgAccepted s = true ∧ s.events = .rowWord :: [] ∧ s.rowReq = some ⟨encodeRow 0#3 7#13, 7⟩ ∧ (7#13 : BitVec 13).toNat < s.cfg.H := by decide

theorem witness_AudioRequestReadsThePayload :
    (audioLive running = true ∧ running.audReq = none ∧ running.audPos.toNat ≤ audEnd running.cfg ∧
      audEnd running.cfg < 2 ^ 32) ∧
    (audioLive { running with audEn := false } = false ∧ ({ running with audEn := false } : State).audReq = none) ∧
    Cfg.p1.widenOv = [] := by decide

theorem witness_AudioRequestIsServedToCompletion :
    let s := { running with audReq := some ⟨2, true⟩ }
    s.audReq = some ⟨2, true⟩ ∧ 0 < (⟨2, true⟩ : AudioService).left ∧ s.audPos.toNat ≤ audEnd s.cfg ∧ audEnd s.cfg < 2 ^ 32 ∧
    s.halted = false := by decide

/-- A sample taken at the payload's end. -/
theorem witness_AudioCursorNeverFallsBack :
    let s := { running with audPos := 0x300#32, events := [.audioRequest 2#16] }
    s.audPos.toNat ≤ audEnd s.cfg ∧ audEnd s.cfg < 2 ^ 32 ∧ resetNext s = false ∧ (∃ t, step s = .next t) ∧
    s.audPos.toNat = audEnd s.cfg :=
  ⟨by decide, by decide, by decide, exists_of_goesOn (by decide +kernel), by decide⟩

theorem witness_HostRegistersShowTheState :
    (0 < Cfg.p1.LEAD ∧ Cfg.p1.LEAD < Cfg.p1.H ∧ Cfg.p1.H ≤ 2 ^ 13) ∧
    ({ running with audReq := some ⟨2, true⟩ } : State).audReq = some ⟨2, true⟩ ∧
    cfgAccepted { running with events := [.hostRead 0x14#32 4] } = true ∧
    ({ running with events := [.hostRead 0x14#32 4] } : State).events = .hostRead 0x14#32 4 :: [] ∧
    (0x14#32 : BitVec 32).toNat % 4 = 0 ∧ running.cfg.H ≤ 2 ^ 13 ∧ running.scan.toNat < running.cfg.H ∧
    (atBoundary 0#4 0#32 1#16).scan.toNat = running.cfg.H ∧
    0x24#32 ∈ [0x04#32, 0x08#32, 0x0C#32, 0x10#32, 0x14#32, 0x18#32, 0x24#32] := by decide

theorem witness_OtherHostAccessesDoNothing : cfgAccepted running = true ∧
    ((2 : Nat) ≠ 4 ∨ (0#32 : BitVec 32).toNat % 4 ≠ 0 ∨ 0x28 ≤ (0#32 : BitVec 32).toNat) ∧
    ((4 : Nat) ≠ 4 ∨ (2#32 : BitVec 32).toNat % 4 ≠ 0 ∨ 0x28 ≤ (2#32 : BitVec 32).toNat) ∧
    ((4 : Nat) ≠ 4 ∨ (0x28#32 : BitVec 32).toNat % 4 ≠ 0 ∨ 0x28 ≤ (0x28#32 : BitVec 32).toNat) := by decide

theorem witness_EnablesAreGatedAndSticky :
    cfgAccepted running = true ∧ ({ running with events := [.hostWrite 0#32 4 3#32] } : State).events = .hostWrite 0#32 4 3#32 :: [] ∧
    resetNext running = false ∧ running.vidEn = true ∧ running.audEn = true ∧ ∃ t, step running = .next t :=
  ⟨by decide, rfl, by decide, by decide, by decide, exists_of_goesOn (by decide +kernel)⟩

theorem witness_FatalWriteHaltsTheBlock : cfgAccepted running = true ∧
    ({ running with events := [.hostWrite 0x20#32 4 15#32] } : State).events = .hostWrite 0x20#32 4 15#32 :: [] ∧
    (15#32 : BitVec 32).toNat % 16 ≠ 0 ∧ (16#32 : BitVec 32).toNat % 16 = 0 ∧ running.halted = false ∧ running.audReq = none := by
  decide

theorem witness_HaltedBlockIsFrozen :
    let s := { running with halted := true, diag := 1#4, events := [.audioRequest 2#16] }
    Inv s ∧ s.halted = true ∧ resetNext s = false ∧ ∃ t, step s = .next t :=
  ⟨{ running_inv with
      diag := by decide, row := fun r h => (by cases h), audio := fun a h => (by cases h) },
    rfl, by decide, exists_of_goesOn (by decide +kernel)⟩

/-- The first and the last index of a segment; the one-index segment of palette 5. -/
theorem witness_BuildFillsThePalettes :
    State.reset.events = [] ∧ buildDue State.reset = true ∧ cfgWf State.reset.cfg = true ∧ 5 < 6 ∧
    (⟨64, 64, 0, 0, 255, 0, 0, 255⟩ : Seg) ∈ (State.reset.cfg.palSeed[5]?).getD [] ∧ 64 ≤ 64 :=
  ⟨rfl, rfl, test_cfgWf_accepts_p1, by decide, by decide, by decide⟩

theorem witness_RampRisesBetweenItsEnds : (0 : Nat) ≤ 255 ∧ (64 : Nat) ≤ 64 ∧ (0 : Nat) < 254 ∧ (0 : Nat) ≤ 200 ∧ 200 ≤ 254 := by
  decide

theorem witness_BuildFillsTheGeometry :
    State.reset.events = [] ∧ buildDue State.reset = true ∧ cfgWf State.reset.cfg = true :=
  ⟨rfl, rfl, test_cfgWf_accepts_p1⟩

/-- A fraction that rounds, one at the overflow threshold; a finite word. -/
theorem witness_RoundingIsToNearestEven :
    (0 : Nat) < 3 ∧ roundMag 1 3 < infMag ∧ (2 ^ 25 - 1) * 2 ^ 252 * 1 ≤ (2 ^ 25 - 1) * 2 ^ 252 ∧
    f32IsFinite 0x7F7FFFFF#32 = true := by decide +kernel

end Sys2Proof.Tests
end

section
/-! SUPPORT. Rules about the state's accessors that the proofs of 10_state.md's statements rest on: the countdown after reset,
the bits of a word of control bits, what a host write at one register does, what no step but a reset clears. -/

namespace Sys2Proof.Machine

/-! ### Reset (10_state.md R54) -/

/-- The countdown of reset is `max(DUR[0] - 1, 0)`; a duration fits its 16 bits, so nothing is cut off. -/
theorem resetWith_countdown (c : Cfg) : (State.resetWith c).countdown.toNat = max ((durOf c 0).toNat - 1) 0 := by
  have hlt : (durOf c 0).toNat < 2 ^ 16 := (durOf c 0).isLt
  have hcut : (State.resetWith c).countdown.toNat = ((durOf c 0).toNat - 1) % 2 ^ 16 := BitVec.toNat_ofNat _ _
  omega

/-! ### Words of control bits (10_state.md R38) -/

theorem getLsbD_bitAt (k i : Nat) (b : Bool) : (bitAt k b).getLsbD i = (b && decide (i < 32 ∧ i = k)) := by
  cases b
  · simp [bitAt]
  · simp only [bitAt, if_true, BitVec.getLsbD_shiftLeft, BitVec.getLsbD_one, Bool.true_and]
    rw [← Bool.coe_iff_coe]
    simp only [Bool.and_eq_true, Bool.not_eq_true', decide_eq_true_eq, decide_eq_false_iff_not]
    omega

theorem getLsbD_ctrlWord (s : State) (i : Nat) :
    (ctrlWord s).getLsbD i = ((s.vidEn && decide (i = 0)) || (s.audEn && decide (i = 1))) := by
  rw [ctrlWord, BitVec.getLsbD_or, getLsbD_bitAt, getLsbD_bitAt,
    decide_eq_decide.2 (show i < 32 ∧ i = 0 ↔ i = 0 by omega), decide_eq_decide.2 (show i < 32 ∧ i = 1 ↔ i = 1 by omega)]

theorem extractLsb'_ctrlWord_reserved (s : State) : (ctrlWord s).extractLsb' 2 30 = 0#30 := by
  apply BitVec.eq_of_getLsbD_eq
  intro i _
  rw [BitVec.getLsbD_extractLsb', getLsbD_ctrlWord, decide_eq_false (show ¬ 2 + i = 0 by omega),
    decide_eq_false (show ¬ 2 + i = 1 by omega)]
  simp

/-! ### Registers (10_state.md R37) -/

@[simp] theorem regRead_ctrl (s : State) : regRead s 0#32 = ctrlWord s := rfl

@[simp] theorem regRead_fail (s : State) : regRead s 0x20#32 = 0#32 := rfl

@[simp] theorem hostWrite_ctrl (v : BitVec 32) (s : State) : hostWrite 0#32 4 v s = writeCtrl v s := rfl

@[simp] theorem hostWrite_fail (v : BitVec 32) (s : State) : hostWrite 0x20#32 4 v s = writeFail v s := rfl

/-- An accepted host write is a step of its own. -/
theorem step_hostWrite {s : State} {off v : BitVec 32} {bytes : Nat} {rest : List Event} (ha : cfgAccepted s = true)
    (he : s.events = .hostWrite off bytes v :: rest) :
    step s = .next (hostWrite off bytes v { s with events := rest }) :=
  step_cons ha he

/-- The gate of 10_state.md R34 and 70_reset_and_hazards.md R345, on each enable alone. -/
theorem writeCtrl_eq (v : BitVec 32) (s : State) :
    writeCtrl v s = { s with
      vidEn := if s.tblRdy = true ∧ s.halted = false then s.vidEn || v.getLsbD 0 else s.vidEn
      audEn := if s.tblRdy = true ∧ s.halted = false then s.audEn || v.getLsbD 1 else s.audEn } := by
  by_cases hg : s.tblRdy = true ∧ s.halted = false
  · simp [writeCtrl, hg]
  · rw [if_neg hg, if_neg hg, writeCtrl, if_neg (by simpa using hg)]

/-! ### The fatal event (10_state.md R46, 60_exceptions.md R304) -/

/-- With no audio request in service there is nothing to complete. -/
theorem audioFinish_of_idle {s : State} (h : s.audReq = none) : audioFinish s = s := by
  simp only [audioFinish, audioLeft, h, audioSamples]

theorem raiseFatal_of_halted {s : State} (h : s.halted = true) (code : BitVec 4) : raiseFatal code s = s := if_pos h

theorem raiseFatal_of_idle {s : State} (h : s.halted = false) (hr : s.audReq = none) (code : BitVec 4) :
    raiseFatal code s = { s with diag := code, halted := true } := by
  rw [raiseFatal, h, if_neg Bool.false_ne_true, audioFinish_of_idle hr]

/-- The code is the value modulo 16; the bits above are ignored. -/
theorem writeFail_eq (v : BitVec 32) (s : State) :
    writeFail v s = if v.toNat % 16 = 0 then s else raiseFatal (BitVec.ofNat 4 (v.toNat % 16)) s := by
  have hcode : v.extractLsb' 0 4 = BitVec.ofNat 4 (v.toNat % 16) := by
    apply BitVec.eq_of_toNat_eq
    simp
  have hzero : BitVec.ofNat 4 (v.toNat % 16) = 0#4 ↔ v.toNat % 16 = 0 := by
    rw [← BitVec.toNat_inj]
    simp
  simp only [writeFail, hcode, hzero]

/-! ### What a step of Context A may change (60_exceptions.md R320) -/

/-- The shape every step of Context A keeps: what the sequencer, the two layers and COMP hold may move, nothing else. -/
def VideoFrame (s t : State) : Prop :=
  t = { s with
    effect := t.effect, frame := t.frame, countdown := t.countdown, palact := t.palact, scan := t.scan
    prologueDone := t.prologueDone, phase := t.phase, col := t.col, bg := t.bg, fg := t.fg, comp := t.comp }

theorem contextStep_videoFrame {e : Effect} {a : EffectArgs} {s t : State} (h : contextStep e a s = .next t) :
    VideoFrame s t := by
  unfold VideoFrame
  obtain ⟨-, rfl⟩ | ⟨-, -, -, rfl⟩ | ⟨-, -, -, -, rfl⟩ | ⟨-, -, rfl⟩ := contextStep_cases h
  · rfl
  · rw [afterDispatch_only, pixDispatch_only]
  · rw [afterMerge_only]; rfl
  · rw [frameAdv_only]

/-- Context A runs the Effect row of a fetched descriptor, or does nothing. -/
theorem contextA_cases {s t : State} (h : contextA s = .next t) :
    t = s ∨ ∃ d : Descr, contextStep d.op ⟨d.wire, d.bg, d.policy, d.pal, d.dur⟩ s = .next t := by
  unfold contextA at h
  split at h
  · split at h
    · next i hf =>
      unfold fetch at hf
      split at hf
      · next d _ =>
        split at hf
        · cases hf
          exact .inr ⟨d, by rw [← exec_effectRow]; exact h⟩
        · cases hf
      · cases hf
    · cases h
  · cases h
    exact .inl rfl

theorem contextA_videoFrame {s t : State} (h : contextA s = .next t) : VideoFrame s t := by
  obtain rfl | ⟨d, hd⟩ := contextA_cases h
  · rfl
  · exact contextStep_videoFrame hd

/-! ### The enables are sticky (10_state.md R34, R38) -/

/-- No enable that is set in the first state is clear in the second. -/
def EnablesKept (s t : State) : Prop :=
  (s.vidEn = true → t.vidEn = true) ∧ (s.audEn = true → t.audEn = true)

theorem EnablesKept.of_eq {s t : State} (hv : t.vidEn = s.vidEn) (ha : t.audEn = s.audEn) : EnablesKept s t :=
  ⟨hv.trans, ha.trans⟩

theorem VideoFrame.enablesKept {s t : State} (h : VideoFrame s t) : EnablesKept s t := by
  unfold VideoFrame at h
  rw [h]
  exact .of_eq rfl rfl

theorem build_enablesKept (s : State) : EnablesKept s (build s) := by
  rw [build_only]
  exact .of_eq rfl rfl

/-- `CTRL_R` writes 1 to set. -/
theorem writeCtrl_enablesKept (v : BitVec 32) (s : State) : EnablesKept s (writeCtrl v s) := by
  rw [writeCtrl_eq]
  constructor
  · intro hv; simp [hv]
  · intro ha; simp [ha]

theorem writeFail_enablesKept (v : BitVec 32) (s : State) : EnablesKept s (writeFail v s) := by
  rw [writeFail_eq]
  split
  · exact .of_eq rfl rfl
  · rw [raiseFatal_only]
    exact .of_eq rfl rfl

/-- Of the registers only `CTRL_R` moves an enable, and it sets it. -/
theorem hostWrite_enablesKept (off : BitVec 32) (bytes : Nat) (v : BitVec 32) (s : State) :
    EnablesKept s (hostWrite off bytes v s) := by
  unfold hostWrite
  split
  · unfold regWrite
    split
    · exact writeCtrl_enablesKept v s
    · exact .of_eq rfl rfl
    · exact writeFail_enablesKept v s
    · exact .of_eq rfl rfl
  · exact .of_eq rfl rfl

theorem rowRequest_enablesKept {w : BitVec 16} {s t : State} (h : exec (decodeRowPort w) s = .next t) : EnablesKept s t := by
  cases h
  rw [rowWords_only]
  exact .of_eq rfl rfl

theorem audioRequest_enablesKept {w : BitVec 16} {s t : State} (h : exec (decodeAudioPort w) s = .next t) :
    EnablesKept s t := by
  cases h
  rw [audioFinish_only, audioOpen_only]
  exact .of_eq rfl rfl

/-- Every event but a reset keeps the enables. -/
theorem serve_enablesKept {e : Event} {s t : State} (hne : e ≠ .reset) (h : serve e s = .next t) : EnablesKept s t := by
  cases e with
  | contextA => exact (contextA_videoFrame h).enablesKept
  | build => cases h; exact build_enablesKept s
  | rowRequest w => exact rowRequest_enablesKept h
  | rowOpen w => cases h; exact .of_eq rfl rfl
  | rowWord => cases h; rw [rowWord_only]; exact .of_eq rfl rfl
  | audioRequest w => exact audioRequest_enablesKept h
  | audioOpen w => cases h; rw [audioOpen_only]; exact .of_eq rfl rfl
  | audioSample => cases h; rw [audioSample_only]; exact .of_eq rfl rfl
  | hostRead off bytes => cases h; exact .of_eq rfl rfl
  | hostWrite off bytes v => cases h; exact hostWrite_enablesKept off bytes v s
  | reset => exact absurd rfl hne

theorem runAlone_enablesKept {s t : State} (h : runAlone s = .next t) : EnablesKept s t := by
  unfold runAlone at h
  split at h
  · cases h; exact build_enablesKept s
  · exact (contextA_videoFrame h).enablesKept

/-- No step but a reset clears an enable. -/
theorem step_enablesKept {s t : State} (hr : resetNext s = false) (h : step s = .next t) : EnablesKept s t := by
  obtain ⟨-, ⟨-, hrun⟩ | ⟨e, rest, he, hserve⟩⟩ := step_cases h
  · exact runAlone_enablesKept hrun
  · have hne : e ≠ .reset := by
      rintro rfl
      simp [resetNext, he] at hr
    exact serve_enablesKept (s := { s with events := rest }) hne hserve

end Sys2Proof.Machine
end

section
/-! PROOF. The statements about the state and the host's registers (10_state.md). -/

namespace Sys2Proof.Machine

/-- Settles O54: the gate is `writeCtrl_eq`; stickiness is the step lemma `step_enablesKept`, by cases on the agent that moves. -/
theorem enablesAreGatedAndSticky : Obligations.EnablesAreGatedAndSticky := by
  unfold Obligations.EnablesAreGatedAndSticky
  refine ⟨fun s => ⟨?_, ?_, ?_⟩, fun s v rest ha he => ?_, fun s t hr h => step_enablesKept hr h⟩
  · simp [getLsbD_ctrlWord, -BitVec.getLsbD_eq_getElem]
  · simp [getLsbD_ctrlWord, -BitVec.getLsbD_eq_getElem]
  · rw [regRead_ctrl, extractLsb'_ctrlWord_reserved]
  · rw [step_hostWrite ha he, hostWrite_ctrl, writeCtrl_eq]

/-- Settles O8: the countdown is `resetWith_countdown`, an empty memory reads 0, and every other value is the table's own. -/
theorem resetGivesTheTabledValues : Obligations.ResetGivesTheTabledValues := by
  unfold Obligations.ResetGivesTheTabledValues
  intro c s
  exact ⟨rfl, rfl, resetWith_countdown c, rfl, rfl, rfl, rfl, rfl, rfl, rfl, rfl, rfl, rfl, rfl, rfl,
    fun a => ⟨Memory.read_nil a, Memory.read_nil a, Memory.read_nil a⟩⟩

/-- Settles O55, by the two cases of `writeFail_eq` and the two of the fatal event. -/
theorem fatalWriteHaltsTheBlock : Obligations.FatalWriteHaltsTheBlock := by
  unfold Obligations.FatalWriteHaltsTheBlock
  refine ⟨regRead_fail, fun s v rest ha he => ?_⟩
  rw [step_hostWrite ha he, hostWrite_fail, writeFail_eq]
  constructor
  · intro hcode hlive hidle
    rw [if_neg hcode, raiseFatal_of_idle (s := { s with events := rest }) hlive hidle]
  · intro hignored
    split
    · rfl
    · next hcode =>
      have hhalted : s.halted = true := hignored.resolve_left hcode
      rw [raiseFatal_of_halted (s := { s with events := rest }) hhalted]

end Sys2Proof.Machine
end

section
/-! SUPPORT. The fields of a descriptor word as numbers, and what an accepted word says of the descriptor it is read as
(30_encoding.md R92, R93, R97). -/

namespace Sys2Proof

/-! ### The number in each field (30_encoding.md R92) -/

theorem toNat_opField (w : BitVec 32) : (opField w).toNat = w.toNat / 2 ^ 28 := by
  have hlt : w.toNat < 2 ^ 32 := w.isLt
  rw [opField, BitVec.extractLsb'_toNat, Nat.shiftRight_eq_div_pow]
  omega

theorem toNat_wireField (w : BitVec 32) : (wireField w).toNat = w.toNat / 2 ^ 24 % 4 := by
  rw [wireField, BitVec.extractLsb'_toNat, Nat.shiftRight_eq_div_pow]

theorem toNat_bgField (w : BitVec 32) : (bgField w).toNat = w.toNat / 2 ^ 21 % 8 := by
  rw [bgField, BitVec.extractLsb'_toNat, Nat.shiftRight_eq_div_pow]

theorem toNat_policyField (w : BitVec 32) : (policyField w).toNat = w.toNat / 2 ^ 19 % 4 := by
  rw [policyField, BitVec.extractLsb'_toNat, Nat.shiftRight_eq_div_pow]

theorem toNat_palField (w : BitVec 32) : (palField w).toNat = w.toNat / 2 ^ 16 % 8 := by
  rw [palField, BitVec.extractLsb'_toNat, Nat.shiftRight_eq_div_pow]

theorem toNat_durField (w : BitVec 32) : (durField w).toNat = w.toNat % 2 ^ 16 := by
  rw [durField, BitVec.extractLsb'_toNat, Nat.shiftRight_zero]

/-! ### The code of what a code names is the code (30_encoding.md R90, R94) -/

theorem Effect.code_of_ofCode {c : BitVec 4} {e : Effect} (h : Effect.ofCode c = some e) : e.code = c := by
  revert c e
  decide

theorem WireSel.code_of_ofCode {c : BitVec 2} {x : WireSel} (h : WireSel.ofCode c = some x) : x.code = c := by
  revert c x
  decide

theorem BgSel.code_of_ofCode {c : BitVec 3} {x : BgSel} (h : BgSel.ofCode c = some x) : x.code = c := by
  revert c x
  decide

theorem Policy.code_of_ofCode {c : BitVec 2} {x : Policy} (h : Policy.ofCode c = some x) : x.code = c := by
  revert c x
  decide

/-! ### What an accepted word is (30_encoding.md R92, R97) -/

/-- A descriptor holds the fields of its word as they stand; the reserved bits are 0 and the palette selector is legal. -/
structure HoldsFieldsOf (d : Descr) (w : BitVec 32) : Prop where
  op : d.op.code = opField w
  rsv : rsvField w = 0#2
  wire : d.wire.code = wireField w
  bg : d.bg.code = bgField w
  policy : d.policy.code = policyField w
  pal : d.pal = palField w
  palLegal : (palField w).toNat ≤ 5
  dur : d.dur = durField w

/-- The decoder accepts on one path only, past every check of R97. -/
theorem holdsFieldsOf_of_decodeDescr {w : BitVec 32} {d : Descr} (h : decodeDescr w = .ok d) : HoldsFieldsOf d w := by
  unfold decodeDescr at h
  split at h
  · cases h
  next op hop =>
  split at h
  · cases h
  next hrsv =>
  split at h
  · cases h
  next wire hwire =>
  split at h
  · cases h
  next bg hbg =>
  split at h
  · cases h
  next policy hpolicy =>
  split at h
  · cases h
  next hpal =>
  cases h
  exact
    { op := Effect.code_of_ofCode hop
      rsv := not_not.1 hrsv
      wire := WireSel.code_of_ofCode hwire
      bg := BgSel.code_of_ofCode hbg
      policy := Policy.code_of_ofCode hpolicy
      pal := rfl
      palLegal := not_lt.1 hpal
      dur := rfl }

end Sys2Proof

/-! ### The fields of the descriptor ROM (30_encoding.md R93) -/

namespace Sys2Proof.Machine

theorem toNat_durOf (c : Cfg) (e : Nat) : (durOf c e).toNat = (edrWord c e).toNat % 2 ^ 16 :=
  toNat_durField (edrWord c e)

theorem toNat_palselOf (c : Cfg) (e : Nat) : (palselOf c e).toNat = (edrWord c e).toNat / 2 ^ 16 % 8 :=
  toNat_palField (edrWord c e)

/-- The derived operand `FR_T0` is a sum over the Effects before `FRACTAL` (code 5). -/
theorem frT0_eq_sum (c : Cfg) : frT0 c = ((List.range 5).map fun e => (durOf c e).toNat).sum := by
  simp [frT0, List.range_succ, Nat.add_assoc]

/-- Five 16-bit durations fit 20 bits. -/
theorem frT0_lt (c : Cfg) : frT0 c < 2 ^ 20 := by
  have hdur (e : Nat) : (durOf c e).toNat < 2 ^ 16 := (durOf c e).isLt
  have h0 := hdur 0
  have h1 := hdur 1
  have h2 := hdur 2
  have h3 := hdur 3
  have h4 := hdur 4
  rw [frT0]
  omega

end Sys2Proof.Machine
end

section
/-! PROOF. The statements about the encoding (30_encoding.md). -/

open Sys2Proof.Machine

namespace Sys2Proof

/-- Settles O4: an accepted word's descriptor holds the fields of the word (`holdsFieldsOf_of_decodeDescr`), and each field is
the number at its place. -/
theorem fieldsAreReadAsTheyStand : Obligations.FieldsAreReadAsTheyStand := by
  unfold Obligations.FieldsAreReadAsTheyStand
  refine ⟨fun w d h => ?_, fun c e => ⟨toNat_durOf c e, toNat_palselOf c e⟩, fun c => ⟨?_, frT0_lt c⟩⟩
  · have hd : HoldsFieldsOf d w := holdsFieldsOf_of_decodeDescr h
    rw [hd.op, hd.wire, hd.bg, hd.policy, hd.pal, hd.dur]
    exact ⟨toNat_opField w, toNat_wireField w, toNat_bgField w, toNat_policyField w, toNat_palField w, toNat_durField w⟩
  · simp only [frT0_eq_sum, toNat_durOf]

end Sys2Proof
end

section
/-! SUPPORT. The table builders (40_table_builders.md): the build step, the ramp, what a memory reads after a list of entries is
written, and what the tables hold after each builder. -/

namespace Sys2Proof.Machine

/-! ### The build step (40_table_builders.md R110, 70_reset_and_hazards.md R342) -/

/-- With no event waiting and the builders due, the step is the build. -/
theorem step_buildTables {s : State} (he : s.events = []) (hd : buildDue s = true) (hw : cfgWf s.cfg = true) :
    step s = .next (buildTables s) := by
  rw [step_nil (cfgAccepted_of_cfgWf hw) he, runAlone, if_pos hd, build, if_pos hd]

/-! ### The constraints of R9 that the builders rest on -/

theorem pack_zero_of_cfgWf {c : Cfg} (h : cfgWf c = true) : pack c 0 0 0 = 0#32 := by
  simp only [cfgWf, Bool.and_eq_true, decide_eq_true_eq] at h
  tauto

theorem seedWf_of_cfgWf {c : Cfg} (h : cfgWf c = true) {p : Nat} (hp : p < 6) :
    seedWf (c.palSeed[p]?.getD []) = true := by
  have hall : c.palSeed.toList.all seedWf = true := by
    simp only [cfgWf, Bool.and_eq_true] at h
    tauto
  rw [Vector.getElem?_eq_getElem hp, Option.getD_some]
  exact List.all_eq_true.1 hall _ (by simp)

/-! ### The ramp (40_table_builders.md R114) -/

theorem ramp_one_index (c0 c1 i0 i : Nat) : ramp c0 c1 i0 i0 i = c0 := if_pos rfl

theorem ramp_of_lt {i0 i1 : Nat} (h : i0 < i1) (c0 c1 i : Nat) :
    ramp c0 c1 i0 i1 i = c0 + ((c1 - c0) * (i - i0)) / (i1 - i0) := if_neg h.ne'

theorem ramp_first (c0 c1 i0 i1 : Nat) : ramp c0 c1 i0 i1 i0 = c0 := by
  simp [ramp]

theorem ramp_last {c0 c1 i0 i1 : Nat} (hc : c0 ≤ c1) (h : i0 < i1) : ramp c0 c1 i0 i1 i1 = c1 := by
  rw [ramp_of_lt h, Nat.mul_div_cancel _ (Nat.sub_pos_of_lt h), Nat.add_sub_cancel' hc]

/-- A ramp never falls, on either side of its ends: the two factors of the product and the quotient are monotone. -/
theorem ramp_mono (c0 c1 i0 i1 : Nat) {i j : Nat} (hij : i ≤ j) : ramp c0 c1 i0 i1 i ≤ ramp c0 c1 i0 i1 j := by
  unfold ramp
  split
  · exact le_rfl
  · gcongr

/-! ### Entries written in order -/

/-- Where every entry written at an address has one word, the address reads that word. -/
theorem read_writeAll_of_mem {w : Nat} {a : Nat} {v : BitVec w} :
    ∀ (es : List (Nat × BitVec w)) (m : Memory w), (a, v) ∈ es → (∀ e ∈ es, e.1 = a → e.2 = v) →
      Memory.read (writeAll es m) a = v
  | [], _, hmem, _ => absurd hmem List.not_mem_nil
  | e :: t, m, hmem, hone => by
    have htail : ∀ e' ∈ t, e'.1 = a → e'.2 = v := fun e' he' => hone e' (List.mem_cons_of_mem _ he')
    change Memory.read (writeAll t (Memory.write m e.1 e.2)) a = v
    by_cases ht : (a, v) ∈ t
    · exact read_writeAll_of_mem t _ ht htail
    · have he : e = (a, v) := ((List.mem_cons.1 hmem).resolve_right ht).symm
      have hlast : ∀ e' ∈ t, e'.1 ≠ a := by
        intro e' he' haddr
        have hsame : e' = (a, v) := Prod.ext haddr (htail e' he' haddr)
        exact ht (hsame ▸ he')
      rw [read_writeAll_other t _ a hlast, he, Memory.read_write_same]

/-! ### The segments of a seed (40_table_builders.md R112) -/

theorem le_i1_of_segWf {sg : Seg} (h : segWf sg = true) : sg.i0 ≤ sg.i1 := by
  simp only [segWf, decide_eq_true_eq] at h
  omega

theorem i1_le_of_segWf {sg : Seg} (h : segWf sg = true) : sg.i1 ≤ 254 := by
  simp only [segWf, decide_eq_true_eq] at h
  omega

theorem segsFrom_cons {lo : Nat} {sg : Seg} {t : List Seg} :
    segsFrom lo (sg :: t) = true ↔ segWf sg = true ∧ sg.i0 = lo ∧ segsFrom (sg.i1 + 1) t = true := by
  simp only [segsFrom, Bool.and_eq_true, decide_eq_true_eq, and_assoc]

/-- The segments of a partition are well-formed and start no lower than it does. -/
theorem bounds_of_mem_segsFrom {sg : Seg} :
    ∀ {l : List Seg} {lo : Nat}, segsFrom lo l = true → sg ∈ l → lo ≤ sg.i0 ∧ segWf sg = true
  | x :: t, lo, h, hmem => by
    obtain ⟨hx, hlo, ht⟩ := segsFrom_cons.1 h
    rcases List.mem_cons.1 hmem with rfl | hmem
    · exact ⟨hlo.ge, hx⟩
    · have hrest := bounds_of_mem_segsFrom ht hmem
      have hle := le_i1_of_segWf hx
      exact ⟨by omega, hrest.2⟩

/-- No index lies in two segments of a partition. -/
theorem seg_unique_of_segsFrom {sg sg' : Seg} {i : Nat} (hi : sg.i0 ≤ i ∧ i ≤ sg.i1) (hi' : sg'.i0 ≤ i ∧ i ≤ sg'.i1) :
    ∀ {l : List Seg} {lo : Nat}, segsFrom lo l = true → sg ∈ l → sg' ∈ l → sg = sg'
  | x :: t, lo, h, hmem, hmem' => by
    obtain ⟨-, -, ht⟩ := segsFrom_cons.1 h
    rcases List.mem_cons.1 hmem with rfl | hin
    · rcases List.mem_cons.1 hmem' with rfl | hin'
      · rfl
      · have hafter := (bounds_of_mem_segsFrom ht hin').1
        omega
    · rcases List.mem_cons.1 hmem' with rfl | hin'
      · have hafter := (bounds_of_mem_segsFrom ht hin).1
        omega
      · exact seg_unique_of_segsFrom hi hi' ht hin hin'

theorem segsFrom_of_seedWf {l : List Seg} (h : seedWf l = true) : segsFrom 0 l = true := by
  simp only [seedWf, Bool.and_eq_true] at h
  exact h.1

/-- A well-formed seed opens with a segment from colour 0 at index 0. -/
theorem first_of_seedWf {l : List Seg} (h : seedWf l = true) :
    ∃ sg ∈ l, sg.i0 = 0 ∧ sg.r0 = 0 ∧ sg.g0 = 0 ∧ sg.b0 = 0 := by
  cases l with
  | nil => simp [seedWf] at h
  | cons sg t =>
    simp only [seedWf, segsFrom_cons, Bool.and_eq_true, decide_eq_true_eq] at h
    obtain ⟨⟨-, hi0, -⟩, hcolour⟩ := h
    exact ⟨sg, List.mem_cons_self, hi0, hcolour⟩

/-! ### The palettes (40_table_builders.md R111, R113) -/

/-- What the palette builder writes: each index of each segment of each of the six seeds. -/
theorem mem_palEntries {c : Cfg} {e : Nat × Color} :
    e ∈ (List.range 6).flatMap (palEntries c) ↔
      ∃ p < 6, ∃ sg ∈ c.palSeed[p]?.getD [], ∃ i, (sg.i0 ≤ i ∧ i ≤ sg.i1) ∧ e = (p * 256 + i, segColor c sg i) := by
  simp only [List.mem_flatMap, List.mem_range, palEntries, segEntries, List.mem_map]
  constructor
  · rintro ⟨p, hp, sg, hsg, j, hj, rfl⟩
    exact ⟨p, hp, sg, hsg, sg.i0 + j, ⟨by omega, by omega⟩, rfl⟩
  · rintro ⟨p, hp, sg, hsg, i, hi, rfl⟩
    refine ⟨p, hp, sg, hsg, i - sg.i0, by omega, ?_⟩
    rw [Nat.add_sub_cancel' hi.1]

/-- The index of a segment is below 255, so the address of an entry names its palette and its index. -/
theorem seg_index_le {c : Cfg} (hw : cfgWf c = true) {p i : Nat} (hp : p < 6) {sg : Seg}
    (hsg : sg ∈ c.palSeed[p]?.getD []) (hi : i ≤ sg.i1) : i ≤ 254 :=
  hi.trans (i1_le_of_segWf (bounds_of_mem_segsFrom (segsFrom_of_seedWf (seedWf_of_cfgWf hw hp)) hsg).2)

/-- An entry that the builder writes: the segments of a seed overlap nowhere, so no other entry has its address. -/
theorem read_palBuild {c : Cfg} (hw : cfgWf c = true) (m : Memory 32) {p i : Nat} (hp : p < 6) {sg : Seg}
    (hsg : sg ∈ c.palSeed[p]?.getD []) (hi : sg.i0 ≤ i ∧ i ≤ sg.i1) :
    Memory.read (palBuild c m) (p * 256 + i) = segColor c sg i := by
  refine read_writeAll_of_mem _ m (mem_palEntries.2 ⟨p, hp, sg, hsg, i, hi, rfl⟩) fun e he haddr => ?_
  obtain ⟨p', hp', sg', hsg', i', hi', rfl⟩ := mem_palEntries.1 he
  have hle := seg_index_le hw hp hsg hi.2
  have hle' := seg_index_le hw hp' hsg' hi'.2
  obtain ⟨rfl, rfl⟩ : p' = p ∧ i' = i := by
    dsimp only at haddr
    omega
  rw [seg_unique_of_segsFrom hi' hi (segsFrom_of_seedWf (seedWf_of_cfgWf hw hp)) hsg' hsg]

/-- Index 0 opens the first ramp, whose first colour is 0, and `PACK` of it is the word 0. -/
theorem read_palBuild_zero {c : Cfg} (hw : cfgWf c = true) (m : Memory 32) {p : Nat} (hp : p < 6) :
    Memory.read (palBuild c m) (p * 256) = 0#32 := by
  obtain ⟨sg, hsg, hi0, hr, hg, hb⟩ := first_of_seedWf (seedWf_of_cfgWf hw hp)
  have hread : Memory.read (palBuild c m) (p * 256 + 0) = segColor c sg 0 :=
    read_palBuild hw m hp hsg ⟨hi0.le, Nat.zero_le _⟩
  have hcolour : segColor c sg 0 = pack c 0 0 0 := by
    rw [segColor, hi0, hr, hg, hb, ramp_first, ramp_first, ramp_first]
  rw [← pack_zero_of_cfgWf hw, ← hcolour, ← hread, Nat.add_zero]

/-- No segment reaches index 255. -/
theorem read_palBuild_last {c : Cfg} (hw : cfgWf c = true) (m : Memory 32) (p : Nat) :
    Memory.read (palBuild c m) (p * 256 + 255) = Memory.read m (p * 256 + 255) := by
  refine read_writeAll_other _ m _ fun e he haddr => ?_
  obtain ⟨p', hp', sg', hsg', i', hi', rfl⟩ := mem_palEntries.1 he
  have hle' := seg_index_le hw hp' hsg' hi'.2
  dsimp only at haddr
  omega

/-! ### Vertices as words (20_memory.md R64) -/

/-- The vertex whose three words start at an address. -/
def vertexAt (m : Memory 32) (a : Nat) : Vertex := (Memory.read m a, Memory.read m (a + 1), Memory.read m (a + 2))

theorem geoVertex_eq_vertexAt (m : Memory 32) (gem : Bool) (tri v : Nat) :
    geoVertex m gem tri v = vertexAt m (shapeBase gem + 3 * (tri * 3 + v)) := by
  have haddr : geoAddr gem tri v = shapeBase gem + 3 * (tri * 3 + v) := by
    unfold geoAddr
    omega
  rw [← haddr]
  rfl

/-- Vertices are written upwards from their first word. -/
theorem base_le_of_mem_vertexEntries {e : Nat × F32} :
    ∀ {vs : List Vertex} {base : Nat}, e ∈ vertexEntries base vs → base ≤ e.1
  | v :: t, base, h => by
    simp only [vertexEntries, List.mem_cons] at h
    rcases h with rfl | rfl | rfl | h
    · exact Nat.le_refl _
    · exact Nat.le_add_right _ _
    · exact Nat.le_add_right _ _
    · exact (Nat.le_add_right _ _).trans (base_le_of_mem_vertexEntries h)

theorem read_vertexEntries_below (vs : List Vertex) (m : Memory 32) {base a : Nat} (h : a < base) :
    Memory.read (writeAll (vertexEntries base vs) m) a = Memory.read m a :=
  read_writeAll_other _ m a fun _ he => (h.trans_le (base_le_of_mem_vertexEntries he)).ne'

theorem vertexAt_vertexEntries_below (vs : List Vertex) (m : Memory 32) {base a : Nat} (h : a + 2 < base) :
    vertexAt (writeAll (vertexEntries base vs) m) a = vertexAt m a := by
  unfold vertexAt
  rw [read_vertexEntries_below vs m (by omega), read_vertexEntries_below vs m (by omega), read_vertexEntries_below vs m h]

/-- The vertices stand in memory in the order of the list, three words each. -/
theorem vertexAt_vertexEntries {v : Vertex} : ∀ {vs : List Vertex} {k : Nat} (base : Nat) (m : Memory 32), vs[k]? = some v →
    vertexAt (writeAll (vertexEntries base vs) m) (base + 3 * k) = v
  | x :: t, 0, base, m, h => by
    obtain rfl : x = v := by simpa using h
    change vertexAt (writeAll (vertexEntries (base + 3) t) (Memory.write (Memory.write (Memory.write m base x.1)
      (base + 1) x.2.1) (base + 2) x.2.2)) base = x
    rw [vertexAt_vertexEntries_below _ _ (by omega)]
    simp [vertexAt, Memory.read_write]
  | x :: t, k + 1, base, m, h => by
    rw [show base + 3 * (k + 1) = base + 3 + 3 * k by ring]
    exact vertexAt_vertexEntries (base + 3) _ (by simpa using h)

/-! ### The geometry (40_table_builders.md R116) -/

theorem length_cubeVertices (c : Cfg) : (cubeVertices c).length = 36 := by
  simp [cubeVertices, cubeSigns]

/-- The gem, written second, starts above the cube's last word. -/
theorem geoVertex_geoBuild_cube {c : Cfg} {tri j : Nat} {v : Vertex} (m : Memory 32)
    (h : (cubeVertices c)[tri * 3 + j]? = some v) : geoVertex (geoBuild c m) false tri j = v := by
  have hlt : tri * 3 + j < 36 := by
    rw [← length_cubeVertices c]
    exact (List.getElem?_eq_some_iff.1 h).1
  have hbelow : shapeBase false + 3 * (tri * 3 + j) + 2 < shapeBase true := by
    simp only [shapeBase, if_true, Bool.false_eq_true, if_false]
    omega
  rw [geoVertex_eq_vertexAt, geoBuild, vertexAt_vertexEntries_below _ _ hbelow]
  exact vertexAt_vertexEntries _ m h

theorem geoVertex_geoBuild_gem {c : Cfg} {tri j : Nat} {v : Vertex} (m : Memory 32)
    (h : (gemVertices c)[tri * 3 + j]? = some v) : geoVertex (geoBuild c m) true tri j = v := by
  rw [geoVertex_eq_vertexAt, geoBuild]
  exact vertexAt_vertexEntries _ _ h

/-! ### The two shapes as tables of triangles -/

/-- A place in a table whose rows have one length, in the rows written out one after another. -/
theorem getElem?_flatten_of_row {α : Type} {n j : Nat} {a : α} :
    ∀ {rows : List (List α)} {i : Nat}, (∀ r ∈ rows, r.length = n) → (rows[i]?.getD [])[j]? = some a →
      rows.flatten[i * n + j]? = some a
  | [], i, _, h => by simp at h
  | r :: t, 0, _, h => by
    have hr : r[j]? = some a := by simpa using h
    obtain ⟨hj, -⟩ := List.getElem?_eq_some_iff.1 hr
    rw [Nat.zero_mul, Nat.zero_add, List.flatten_cons, List.getElem?_append_left hj, hr]
  | r :: t, i + 1, hlen, h => by
    have hr : r.length = n := hlen r List.mem_cons_self
    have hplace : (i + 1) * n + j = r.length + (i * n + j) := by
      rw [hr]
      ring
    rw [hplace, List.flatten_cons, List.getElem?_append_right (Nat.le_add_right _ _), Nat.add_sub_cancel_left]
    exact getElem?_flatten_of_row (fun r' hr' => hlen r' (List.mem_cons_of_mem _ hr')) (by simpa using h)

/-- The cube's triangles, each vertex named by a number (40_table_builders.md R117): 4 for `+x`, 2 for `+y`, 1 for `+z`. -/
def cubeTable : List (List Nat) :=
  [[0, 2, 6], [0, 6, 4], [4, 6, 7], [4, 7, 5], [5, 7, 3], [5, 3, 1], [1, 3, 2], [1, 2, 0], [2, 3, 7], [2, 7, 6],
    [5, 1, 0], [5, 0, 4]]

/-- The corner of the cube that a number names. -/
def cubeCorner (c : Cfg) (n : Nat) : Vertex :=
  (cubeCoord c (n.testBit 2), cubeCoord c (n.testBit 1), cubeCoord c (n.testBit 0))

theorem cubeSigns_eq_cubeTable :
    cubeSigns = cubeTable.flatten.map fun n => (n.testBit 2, n.testBit 1, n.testBit 0) := by decide

theorem cubeVertices_eq_cubeTable (c : Cfg) : cubeVertices c = cubeTable.flatten.map (cubeCorner c) := by
  rw [cubeVertices, cubeSigns_eq_cubeTable, List.map_map]
  rfl

/-- The cube's vertices are those of the table of R117. -/
theorem geoVertex_geoBuild_cubeTable {c : Cfg} (m : Memory 32) {tri j n : Nat}
    (h : (cubeTable[tri]?.getD [])[j]? = some n) : geoVertex (geoBuild c m) false tri j = cubeCorner c n := by
  have hflat : cubeTable.flatten[tri * 3 + j]? = some n := getElem?_flatten_of_row (by decide) h
  apply geoVertex_geoBuild_cube
  rw [cubeVertices_eq_cubeTable, List.getElem?_map, hflat, Option.map_some]

/-- The gem's `k`-th upper triangle (40_table_builders.md R118). -/
def gemUpper (c : Cfg) (k : Nat) : List Vertex := [gemTop c, gemCorner c k, gemCorner c ((k + 1) % 5)]

/-- The gem's `k`-th lower triangle: its two corners stand in the other order. -/
def gemLower (c : Cfg) (k : Nat) : List Vertex := [gemBottom c, gemCorner c ((k + 1) % 5), gemCorner c k]

/-- The gem's triangles, upper then lower. -/
def gemTable (c : Cfg) : List (List Vertex) := (List.range 5).map (gemUpper c) ++ (List.range 5).map (gemLower c)

theorem gemVertices_eq_gemTable (c : Cfg) : gemVertices c = (gemTable c).flatten := by
  rw [gemTable, List.flatten_append, ← List.flatMap_def, ← List.flatMap_def]
  rfl

theorem length_of_mem_gemTable {c : Cfg} {r : List Vertex} (h : r ∈ gemTable c) : r.length = 3 := by
  simp only [gemTable, List.mem_append, List.mem_map] at h
  obtain ⟨k, -, rfl⟩ | ⟨k, -, rfl⟩ := h <;> rfl

theorem gemTable_upper (c : Cfg) {k : Nat} (hk : k < 5) : (gemTable c)[k]? = some (gemUpper c k) := by
  rw [gemTable, List.getElem?_append_left (by simpa using hk), List.getElem?_map, List.getElem?_range hk, Option.map_some]

theorem gemTable_lower (c : Cfg) {k : Nat} (hk : k < 5) : (gemTable c)[5 + k]? = some (gemLower c k) := by
  have hlen : ((List.range 5).map (gemUpper c)).length = 5 := by simp
  rw [gemTable, List.getElem?_append_right (by omega), hlen, Nat.add_sub_cancel_left, List.getElem?_map,
    List.getElem?_range hk, Option.map_some]

/-- The gem's vertices are those of its triangles. -/
theorem geoVertex_geoBuild_gemTable {c : Cfg} (m : Memory 32) {tri j : Nat} {r : List Vertex} {v : Vertex}
    (hr : (gemTable c)[tri]? = some r) (hv : r[j]? = some v) : geoVertex (geoBuild c m) true tri j = v := by
  apply geoVertex_geoBuild_gem
  rw [gemVertices_eq_gemTable]
  exact getElem?_flatten_of_row (fun _ => length_of_mem_gemTable) (by rw [hr, Option.getD_some, hv])

theorem gemCorner_eq_pentagon (c : Cfg) (k : Nat) : gemCorner c k = pentagon c k := rfl

end Sys2Proof.Machine
end

section
/-! PROOF. The statements about the table builders (40_table_builders.md). -/

namespace Sys2Proof.Machine

/-- Settles O57: the step is the build (`step_buildTables`), and its palettes are read by `read_palBuild` inside the segments,
`read_palBuild_zero` at index 0 and `read_palBuild_last` at index 255. -/
theorem buildFillsThePalettes : Obligations.BuildFillsThePalettes := by
  unfold Obligations.BuildFillsThePalettes
  intro s he hd hw
  refine ⟨buildTables s, step_buildTables he hd hw, rfl, fun p hp => ⟨fun sg hsg i hlo hhi => ?_, ?_, ?_⟩⟩
  · exact read_palBuild hw s.pal hp hsg ⟨hlo, hhi⟩
  · exact read_palBuild_zero hw s.pal hp
  · exact read_palBuild_last hw s.pal p

/-- Settles O58: the two ends are `ramp_first` and `ramp_last`, and the bounds between them follow from `ramp_mono`. -/
theorem rampRisesBetweenItsEnds : Obligations.RampRisesBetweenItsEnds := by
  unfold Obligations.RampRisesBetweenItsEnds
  intro c0 c1 i0 i1 hc _
  refine ⟨?_, fun h i hlo hhi => ⟨ramp_of_lt h c0 c1 i, ?_, ?_⟩, ramp_first c0 c1 i0 i1, ramp_last hc,
    fun i j _ hij _ => ramp_mono c0 c1 i0 i1 hij⟩
  · rintro rfl i
    exact ramp_one_index c0 c1 i1 i
  · calc c0 = ramp c0 c1 i0 i1 i0 := (ramp_first c0 c1 i0 i1).symm
      _ ≤ ramp c0 c1 i0 i1 i := ramp_mono c0 c1 i0 i1 hlo
  · calc ramp c0 c1 i0 i1 i ≤ ramp c0 c1 i0 i1 i1 := ramp_mono c0 c1 i0 i1 hhi
      _ = c1 := ramp_last hc h

/-- Settles O59: each vertex is looked up in the shape's table of triangles, which the builder writes row by row. -/
theorem buildFillsTheGeometry : Obligations.BuildFillsTheGeometry := by
  unfold Obligations.BuildFillsTheGeometry
  intro s he hd hw
  refine ⟨buildTables s, step_buildTables he hd hw, fun tri j n h => ?_, fun k hk => ?_⟩
  · exact geoVertex_geoBuild_cubeTable s.geo h
  · have hup := gemTable_upper s.cfg hk
    have hlow := gemTable_lower s.cfg hk
    simp only [← gemCorner_eq_pentagon]
    exact ⟨geoVertex_geoBuild_gemTable s.geo hup rfl, geoVertex_geoBuild_gemTable s.geo hup rfl,
      geoVertex_geoBuild_gemTable s.geo hup rfl, geoVertex_geoBuild_gemTable s.geo hlow rfl,
      geoVertex_geoBuild_gemTable s.geo hlow rfl, geoVertex_geoBuild_gemTable s.geo hlow rfl⟩

end Sys2Proof.Machine
end

section
/-! SUPPORT. The sequencer (41_sequencer.md): what a well-formed configuration gives the loop, which row Context A runs, what
each of its three kinds of step does, that none leaves the invariant, and where the loop stands after a number of steps. -/

namespace Sys2Proof.Machine

/-! ### The constraints of R9 that the loop rests on -/

theorem grid_of_cfgWf {c : Cfg} (h : cfgWf c = true) : 4 ≤ c.W ∧ c.W ≤ 4096 ∧ 4 ≤ c.H ∧ c.H ≤ 4096 := by
  simp only [cfgWf, Bool.and_eq_true, decide_eq_true_eq] at h
  omega

theorem edrWf_of_cfgWf {c : Cfg} (h : cfgWf c = true) : edrWf c = true := by
  simp only [cfgWf, Bool.and_eq_true] at h
  tauto

/-- Each of the nine words of a well-formed ROM is accepted, with its index as `OP` (30_encoding.md R103). -/
theorem decodeDescr_of_edrWf {c : Cfg} (h : edrWf c = true) {e : Nat} (he : e ≤ 8) :
    ∃ d, decodeDescr (edrWord c e) = .ok d ∧ d.op.code.toNat = e := by
  have hword := List.all_eq_true.1 h e (List.mem_range.2 (by omega))
  split at hword
  · next d hd =>
    simp only [Bool.and_eq_true, decide_eq_true_eq] at hword
    exact ⟨d, hd, hword.1⟩
  · cases hword

theorem palselOf_le {c : Cfg} (h : edrWf c = true) {e : Nat} (he : e ≤ 8) : (palselOf c e).toNat ≤ 5 := by
  obtain ⟨d, hd, -⟩ := decodeDescr_of_edrWf h he
  exact (holdsFieldsOf_of_decodeDescr hd).palLegal

/-! ### The policies (41_sequencer.md R130, R135 to R137) -/

theorem exec_policyInstr (p : Policy) (a : PolicyArgs) (s : State) :
    exec (policyInstr p a) s = .next (layerReset p s) := by
  cases p <;> rfl

/-- A shift right by one or two places is the division, rounded down. -/
theorem toNat_policyCell (p : Policy) (v : Byte) : (policyCell p v).toNat = policyValue p v.toNat := by
  cases p with
  | clear => rfl
  | halve => simp [policyCell, policyValue, Nat.shiftRight_eq_div_pow]
  | quarter => simp [policyCell, policyValue, Nat.shiftRight_eq_div_pow]

theorem cell_sweep_policyCell (p : Policy) (m : Memory 8) {n a : Nat} (ha : a < n) :
    cell (Memory.sweep (policyCell p) n m) a = policyValue p (cell m a) := by
  rw [cell, Memory.read_sweep, if_pos ha, toNat_policyCell, cell]

/-! ### `FRAME_ADV` (41_sequencer.md R126, R127) -/

theorem frameDue_iff (s : State) : frameDue s = true ↔ s.scan.toNat = s.cfg.H ∧ s.prologueDone = false := by
  simp [frameDue]

theorem frameAdv_of_not_due (p : Policy) {s : State} (h : ¬ frameDue s = true) : frameAdv p s = s := if_neg h

theorem frameAdv_of_due (p : Policy) {s : State} (h : frameDue s = true) :
    frameAdv p s = countFrame (if s.countdown = 0#16 then transition p s else s) := if_pos h

/-- What an acting call sets, with or without a transition. -/
theorem frameAdv_sets (p : Policy) {s : State} (h : frameDue s = true) :
    (frameAdv p s).scan = 0#13 ∧ (frameAdv p s).prologueDone = true ∧ (frameAdv p s).frame = s.frame + 1#32 := by
  rw [frameAdv_of_due p h]
  by_cases hc : s.countdown = 0#16
  · simp [hc]
  · simp [hc]

/-- After any call the flag is set or the scan position has not wrapped. -/
theorem not_frameDue_frameAdv (p : Policy) (s : State) : ¬ frameDue (frameAdv p s) = true := by
  by_cases h : frameDue s = true
  · obtain ⟨-, hflag, -⟩ := frameAdv_sets p h
    simp [frameDue_iff, hflag]
  · rwa [frameAdv_of_not_due p h]

/-- Phase BOUNDARY is entered by the end of the last row alone, which has cleared the flag. -/
theorem frameDue_of_inv {s : State} (hI : Inv s) (hp : s.phase = .boundary) : frameDue s = true :=
  (frameDue_iff s).2 ⟨hI.boundary.1 hp, (hI.due hp).1⟩

/-! ### Which row Context A runs (10_state.md R24, 41_sequencer.md R125) -/

theorem exec_effectInstr (e : Effect) (a : EffectArgs) (s : State) : exec (effectInstr e a) s = contextStep e a s := by
  cases e <;> rfl

theorem contextStep_of_not_live (e : Effect) (a : EffectArgs) {s : State} (h : videoLive s = false) :
    contextStep e a s = .next s := by
  rw [contextStep, h, if_neg Bool.false_ne_true]

/-- Under a well-formed ROM the current Effect's word is fetched. -/
theorem fetch_of_edrWf {s : State} (hw : edrWf s.cfg = true) (he : s.effect.toNat ≤ 8) :
    ∃ d : Descr, fetch s = some (effectRow d) := by
  obtain ⟨d, hd, hop⟩ := decodeDescr_of_edrWf hw he
  refine ⟨d, ?_⟩
  simp only [fetch, hd]
  exact if_pos (BitVec.eq_of_toNat_eq hop)

theorem videoNext_iff (s : State) :
    videoNext s = true ↔ s.events = [] ∧ buildDue s = false ∧ videoLive s = true := by
  simp [videoNext, and_assoc]

/-- Where Context A moves next, the machine's step is its step under some descriptor's fields. -/
theorem step_of_videoNext {s : State} (hI : Inv s) (hv : videoNext s = true) :
    ∃ e a, step s = contextStep e a s := by
  obtain ⟨hevents, hbuilt, hlive⟩ := (videoNext_iff s).1 hv
  obtain ⟨d, hd⟩ := fetch_of_edrWf (edrWf_of_cfgWf hI.cfg) hI.effect
  refine ⟨d.op, ⟨d.wire, d.bg, d.policy, d.pal, d.dur⟩, ?_⟩
  rw [step_nil (cfgAccepted_of_cfgWf hI.cfg) hevents, runAlone, hbuilt, if_neg Bool.false_ne_true, contextA,
    if_pos hlive, hd]
  exact exec_effectRow d s

/-! ### The three kinds of step (41_sequencer.md R125) -/

theorem positionOk_iff (s : State) : positionOk s = true ↔ s.scan.toNat < s.cfg.H ∧ s.col.toNat < s.cfg.W := by
  simp [positionOk]

theorem contextStep_gen (e : Effect) (a : EffectArgs) {s : State} (hl : videoLive s = true) (hp : s.phase = .gen)
    (hok : positionOk s = true) : contextStep e a s = .next (afterDispatch (pixDispatch e a s)) := by
  simp [contextStep, hl, hp, atPosition, hok]

theorem contextStep_merge (e : Effect) (a : EffectArgs) {s : State} (hl : videoLive s = true) (hp : s.phase = .merge)
    (hok : positionOk s = true) (hpal : s.palact.toNat ≤ 5) : contextStep e a s = .next (afterMerge (pixMerge s)) := by
  simp [contextStep, hl, hp, atPosition, hok, mergeOk, hpal]

theorem contextStep_boundary (e : Effect) (a : EffectArgs) {s : State} (hl : videoLive s = true) (hp : s.phase = .boundary) :
    contextStep e a s = .next { frameAdv a.policy s with phase := .gen } := by
  simp [contextStep, hl, hp]

/-- In a state of the invariant Context A's position off the boundary lies on the grid. -/
theorem positionOk_of_inv {s : State} (hI : Inv s) (hp : s.phase ≠ .boundary) : positionOk s = true := by
  have hscan := hI.scan
  have hwrap : s.scan.toNat ≠ s.cfg.H := fun h => hp (hI.boundary.2 h)
  exact (positionOk_iff s).2 ⟨by omega, hI.col⟩

/-! ### The invariant under the sequencer's updates (10_state.md R55) -/

/-- What the invariant asks of a layer: canonical form, on the grid. -/
structure LayerOk (c : Cfg) (m : Memory 8) : Prop where
  wf : Memory.wf m = true
  below : Memory.below (c.H * c.W) m = true

theorem layerOk_bg {s : State} (hI : Inv s) : LayerOk s.cfg s.bg := ⟨hI.bgWf, hI.bgBelow⟩

theorem layerOk_fg {s : State} (hI : Inv s) : LayerOk s.cfg s.fg := ⟨hI.fgWf, hI.fgBelow⟩

theorem inv_withLayers {s : State} {bg fg : Memory 8} (hI : Inv s) (hbg : LayerOk s.cfg bg) (hfg : LayerOk s.cfg fg) :
    Inv { s with bg := bg, fg := fg } :=
  { hI with bgWf := hbg.wf, bgBelow := hbg.below, fgWf := hfg.wf, fgBelow := hfg.below }

theorem inv_withPosition {s : State} {scan col : BitVec 13} {flag : Bool} {phase : Phase} (hI : Inv s)
    (hscan : scan.toNat ≤ s.cfg.H) (hcol : col.toNat < s.cfg.W) (hb : phase = .boundary ↔ scan.toNat = s.cfg.H)
    (hd : phase = .boundary → flag = false ∧ col = 0#13) :
    Inv { s with scan := scan, col := col, prologueDone := flag, phase := phase } :=
  { hI with scan := hscan, col := hcol, boundary := hb, due := hd }

theorem layerOk_sweep {c : Cfg} {m : Memory 8} (hm : LayerOk c m) (f : Byte → Byte) :
    LayerOk c (Memory.sweep f (c.H * c.W) m) :=
  ⟨Memory.wf_sweep f _ hm.wf, Memory.below_sweep f le_rfl hm.below⟩

theorem layerOk_bgUnit {s : State} (hI : Inv s) (hok : positionOk s = true) (sel : BgSel) (e : Effect) :
    LayerOk s.cfg (bgUnit sel e s).bg := by
  obtain ⟨hscan, hcol⟩ := (positionOk_iff s).1 hok
  have hrow : genRow s < s.cfg.H := Nat.mod_lt _ (by omega)
  cases sel with
  | none => exact layerOk_bg hI
  | automaton =>
    rw [bgUnit, onBackground_changed]
    exact ⟨wf_automaton e _ _ _ _ hI.bgWf, below_automaton e _ hrow hcol hI.bgBelow⟩
  | fractal =>
    rw [bgUnit, onBackground_changed]
    exact ⟨wf_fractalUnit _ _ _ _ hI.bgWf, below_fractalUnit _ _ _ _ hI.bgBelow⟩
  | plasma =>
    rw [bgUnit, onBackground_changed]
    exact ⟨wf_plasmaUnit _ _ _ _ hI.bgWf, below_plasmaUnit _ _ _ _ hI.bgBelow⟩
  | checker =>
    rw [bgUnit, onBackground_changed]
    exact ⟨Memory.wf_write hI.bgWf _ _, Memory.below_write (cellAddr_lt hrow hcol) hI.bgBelow _⟩

theorem layerOk_wireRedraw {s : State} (hI : Inv s) (gem : Bool) : LayerOk s.cfg (wireRedraw gem s).fg := by
  have hfade : LayerOk s.cfg (fgFade s.cfg s.fg) := layerOk_sweep (layerOk_fg hI) halveCell
  unfold wireRedraw
  split
  · exact ⟨wf_drawShape _ _ _ _ hfade.wf, below_drawShape _ _ _ _ hfade.below⟩
  · exact layerOk_fg hI

theorem layerOk_wireUnit {s : State} (hI : Inv s) (sel : WireSel) : LayerOk s.cfg (wireUnit sel s).fg := by
  cases sel with
  | none => exact layerOk_fg hI
  | cube => exact layerOk_wireRedraw hI false
  | gem => exact layerOk_wireRedraw hI true

theorem layerOk_textUnit {s : State} (hI : Inv s) (e : Effect) : LayerOk s.cfg (textUnit e s).fg := by
  unfold textUnit
  split
  · exact ⟨wf_drawEvents _ _ _ hI.fgWf, below_drawEvents _ _ _ hI.fgBelow⟩
  · exact layerOk_fg hI

/-- Each unit of a dispatch keeps the invariant, so their sequence does (45_compositor_handoff.md R231). -/
theorem inv_pixDispatch {s : State} (hI : Inv s) (hok : positionOk s = true) (e : Effect) (a : EffectArgs) :
    Inv (pixDispatch e a s) := by
  have hbg : Inv (bgUnit a.bg e s) := by
    rw [bgUnit_only]
    exact inv_withLayers hI (layerOk_bgUnit hI hok a.bg e) (layerOk_fg hI)
  have hwire : Inv (wireUnit a.wire (bgUnit a.bg e s)) := by
    rw [wireUnit_only]
    exact inv_withLayers hbg (layerOk_bg hbg) (layerOk_wireUnit hbg a.wire)
  rw [pixDispatch, textUnit_only]
  exact inv_withLayers hwire (layerOk_bg hwire) (layerOk_textUnit hwire e)

/-- A composite of two palette words fits the width of a palette word (45_compositor_handoff.md R236). -/
theorem mergeColor_lt {s : State} (hI : Inv s) (b g : Byte) : (mergeColor s b g).toNat < 2 ^ s.cfg.colorBits := by
  have hword (i : Byte) : (palLookup s.pal s.palact.toNat i).toNat < 2 ^ s.cfg.colorBits :=
    Memory.read_lt (Nat.two_pow_pos _) hI.palValues _
  rw [mergeColor, BitVec.toNat_or]
  exact Nat.or_lt_two_pow (hword b) (hword g)

theorem inv_pixMerge {s : State} (hI : Inv s) (hok : positionOk s = true) : Inv (pixMerge s) := by
  obtain ⟨hscan, hcol⟩ := (positionOk_iff s).1 hok
  have hcell := cellAddr_lt (Nat.mod_lt _ (by omega) : genRow s < s.cfg.H) hcol
  exact { hI with
    compWf := Memory.wf_write hI.compWf _ _
    compBelow := Memory.below_write hcell hI.compBelow _
    compWords := Memory.valuesBelow_write (mergeColor_lt hI _ _) hI.compWords }

theorem nextEffect_le (e : BitVec 4) : nextEffect e ≤ 8 := Nat.min_le_right _ _

theorem toNat_ofNat_nextEffect (e : BitVec 4) : (BitVec.ofNat 4 (nextEffect e)).toNat = nextEffect e := by
  have hn := nextEffect_le e
  rw [BitVec.toNat_ofNat]
  omega

theorem inv_withEffect {s : State} {effect : BitVec 4} {countdown : BitVec 16} {palact : BitVec 3} (hI : Inv s)
    (he : effect.toNat ≤ 8) (hp : palact.toNat ≤ 5) :
    Inv { s with effect := effect, countdown := countdown, palact := palact } :=
  { hI with effect := he, palact := hp }

/-- The next Effect's code names a word of the ROM, and its palette is legal. -/
theorem inv_transition {s : State} (hI : Inv s) (p : Policy) : Inv (transition p s) := by
  have hnext : Inv { s with
      effect := BitVec.ofNat 4 (nextEffect s.effect)
      countdown := durOf s.cfg (nextEffect s.effect)
      palact := palselOf s.cfg (nextEffect s.effect) } :=
    inv_withEffect hI ((toNat_ofNat_nextEffect _).trans_le (nextEffect_le _))
      (palselOf_le (edrWf_of_cfgWf hI.cfg) (nextEffect_le _))
  exact inv_withLayers hnext (layerOk_sweep (layerOk_bg hI) _) (layerOk_sweep (layerOk_fg hI) _)

/-- The end of a frame boundary: row 0 of phase GEN again, which is no boundary on a grid with a row. -/
theorem inv_countFrame {s : State} (hI : Inv s) : Inv { countFrame s with phase := .gen } := by
  obtain ⟨-, -, hH, -⟩ := grid_of_cfgWf hI.cfg
  have hcounted : Inv { s with frame := s.frame + 1#32, countdown := BitVec.ofNat 16 (s.countdown.toNat - 1) } := { hI with }
  have hgen : Phase.gen = .boundary ↔ (0#13).toNat = s.cfg.H :=
    iff_of_false (by decide) (show (0 : Nat) ≠ s.cfg.H by omega)
  have hreturned := inv_withPosition (flag := true) hcounted (Nat.zero_le _) hI.col hgen (fun hb => by cases hb)
  exact hreturned

theorem inv_frameAdv {s : State} (hI : Inv s) (hp : s.phase = .boundary) (p : Policy) :
    Inv { frameAdv p s with phase := .gen } := by
  rw [frameAdv_of_due p (frameDue_of_inv hI hp)]
  split
  · exact inv_countFrame (inv_transition hI p)
  · exact inv_countFrame hI

@[simp] theorem pixDispatch_kept (e : Effect) (a : EffectArgs) (s : State) :
    (pixDispatch e a s).cfg = s.cfg ∧ (pixDispatch e a s).effect = s.effect ∧ (pixDispatch e a s).frame = s.frame ∧
    (pixDispatch e a s).palact = s.palact ∧ (pixDispatch e a s).scan = s.scan ∧ (pixDispatch e a s).phase = s.phase ∧
    (pixDispatch e a s).col = s.col := by
  rw [pixDispatch_only]
  exact ⟨rfl, rfl, rfl, rfl, rfl, rfl, rfl⟩

/-! ### The position after a dispatch and after a merge (41_sequencer.md R125, R134) -/

theorem lastColumn_iff (s : State) : lastColumn s = true ↔ s.col.toNat + 1 = s.cfg.W := by
  simp [lastColumn]

theorem afterDispatch_of_last {s : State} (h : s.col.toNat + 1 = s.cfg.W) :
    afterDispatch s = { s with col := 0#13, phase := .merge } := if_pos ((lastColumn_iff s).2 h)

theorem afterDispatch_of_more {s : State} (h : s.col.toNat + 1 ≠ s.cfg.W) :
    afterDispatch s = { s with col := s.col + 1#13 } := if_neg (fun hl => h ((lastColumn_iff s).1 hl))

theorem afterMerge_of_last {s : State} (h : s.col.toNat + 1 = s.cfg.W) :
    afterMerge s = rowDone { s with col := 0#13 } := if_pos ((lastColumn_iff s).2 h)

theorem afterMerge_of_more {s : State} (h : s.col.toNat + 1 ≠ s.cfg.W) :
    afterMerge s = { s with col := s.col + 1#13 } := if_neg (fun hl => h ((lastColumn_iff s).1 hl))

/-- A column counts on without a wrap of its 13 bits: a row has at most 4096 columns. -/
theorem toNat_col_succ {s : State} (hI : Inv s) : (s.col + 1#13).toNat = s.col.toNat + 1 := by
  obtain ⟨-, hW, -⟩ := grid_of_cfgWf hI.cfg
  have hcol := hI.col
  rw [BitVec.toNat_add, BitVec.toNat_ofNat]
  omega

theorem toNat_scan_succ {s : State} (hI : Inv s) : (BitVec.ofNat 13 (s.scan.toNat + 1)).toNat = s.scan.toNat + 1 := by
  obtain ⟨-, -, -, hH⟩ := grid_of_cfgWf hI.cfg
  have hscan := hI.scan
  rw [BitVec.toNat_ofNat]
  omega

theorem inv_nextColumn {s : State} (hI : Inv s) (hp : s.phase ≠ .boundary) (h : s.col.toNat + 1 ≠ s.cfg.W) :
    Inv { s with col := s.col + 1#13 } := by
  have hcol := hI.col
  exact inv_withPosition hI hI.scan (by rw [toNat_col_succ hI]; omega) hI.boundary (fun hb => absurd hb hp)

theorem inv_afterDispatch {s : State} (hI : Inv s) (hp : s.phase = .gen) : Inv (afterDispatch s) := by
  have hnb : s.phase ≠ .boundary := by simp [hp]
  by_cases hlast : s.col.toNat + 1 = s.cfg.W
  · rw [afterDispatch_of_last hlast]
    exact inv_withPosition hI hI.scan (show 0 < s.cfg.W by omega)
      (iff_of_false (by decide) (fun hs => hnb (hI.boundary.2 hs))) (fun hb => by cases hb)
  · rw [afterDispatch_of_more hlast]
    exact inv_nextColumn hI hnb hlast

theorem inv_rowDone {s : State} (hI : Inv s) (hscan : s.scan.toNat < s.cfg.H) (hcol : s.col = 0#13) : Inv (rowDone s) := by
  have hnext := toNat_scan_succ hI
  have hwrap : (if s.scan.toNat + 1 = s.cfg.H then Phase.boundary else .gen) = .boundary ↔
      (BitVec.ofNat 13 (s.scan.toNat + 1)).toNat = s.cfg.H := by
    rw [hnext]
    simp
  exact inv_withPosition (s := s) hI (hnext.trans_le hscan) hI.col hwrap (fun _ => ⟨rfl, hcol⟩)

theorem inv_afterMerge {s : State} (hI : Inv s) (hp : s.phase = .merge) : Inv (afterMerge s) := by
  have hnb : s.phase ≠ .boundary := by simp [hp]
  by_cases hlast : s.col.toNat + 1 = s.cfg.W
  · obtain ⟨hscan, -⟩ := (positionOk_iff s).1 (positionOk_of_inv hI hnb)
    have hcol0 : Inv { s with col := 0#13 } :=
      inv_withPosition hI hI.scan (show 0 < s.cfg.W by omega) hI.boundary (fun hb => absurd hb hnb)
    rw [afterMerge_of_last hlast]
    exact inv_rowDone hcol0 hscan rfl
  · rw [afterMerge_of_more hlast]
    exact inv_nextColumn hI hnb hlast

@[simp] theorem afterDispatch_kept (s : State) :
    (afterDispatch s).cfg = s.cfg ∧ (afterDispatch s).effect = s.effect ∧ (afterDispatch s).frame = s.frame ∧
    (afterDispatch s).palact = s.palact ∧ (afterDispatch s).scan = s.scan := by
  rw [afterDispatch_only]
  exact ⟨rfl, rfl, rfl, rfl, rfl⟩

@[simp] theorem afterMerge_kept (s : State) :
    (afterMerge s).cfg = s.cfg ∧ (afterMerge s).effect = s.effect ∧ (afterMerge s).frame = s.frame ∧
    (afterMerge s).palact = s.palact := by
  rw [afterMerge_only]
  exact ⟨rfl, rfl, rfl, rfl⟩

/-- Both kinds of step take the columns in ascending order and return to column 0. -/
theorem toNat_col_afterDispatch {s : State} (hI : Inv s) : (afterDispatch s).col.toNat = (s.col.toNat + 1) % s.cfg.W := by
  have hcol := hI.col
  by_cases hlast : s.col.toNat + 1 = s.cfg.W
  · rw [afterDispatch_of_last hlast, hlast, Nat.mod_self]
    rfl
  · rw [afterDispatch_of_more hlast, Nat.mod_eq_of_lt (by omega)]
    exact toNat_col_succ hI

theorem toNat_col_afterMerge {s : State} (hI : Inv s) : (afterMerge s).col.toNat = (s.col.toNat + 1) % s.cfg.W := by
  have hcol := hI.col
  by_cases hlast : s.col.toNat + 1 = s.cfg.W
  · rw [afterMerge_of_last hlast, hlast, Nat.mod_self]
    rfl
  · rw [afterMerge_of_more hlast, Nat.mod_eq_of_lt (by omega)]
    exact toNat_col_succ hI

/-- No step of Context A leaves the invariant. -/
theorem inv_contextStep {e : Effect} {a : EffectArgs} {s t : State} (hI : Inv s) (h : contextStep e a s = .next t) :
    Inv t := by
  obtain ⟨-, rfl⟩ | ⟨-, hp, hok, rfl⟩ | ⟨-, hp, -, hok, rfl⟩ | ⟨-, hp, rfl⟩ := contextStep_cases h
  · exact hI
  · refine inv_afterDispatch (inv_pixDispatch hI hok e a) ?_
    rw [pixDispatch_only]
    exact hp
  · exact inv_afterMerge (inv_pixMerge hI hok) hp
  · exact inv_frameAdv hI hp a.policy

/-- Context A's step moves nothing that says who moves next. -/
theorem videoNext_of_videoFrame {s t : State} (h : VideoFrame s t) : videoNext t = videoNext s := by
  unfold VideoFrame at h
  rw [h]
  rfl

theorem cfg_of_videoFrame {s t : State} (h : VideoFrame s t) : t.cfg = s.cfg := by
  unfold VideoFrame at h
  rw [h]

/-! ### Runs, put together -/

theorem core_run_one {s t : State} (h : step s = .next t) : Host.Core.run Sys2Proof.core 1 s = .next t := by
  rw [core_run_succ, h]
  rfl

theorem core_run_add {n : Nat} {t u : State} (hn : Host.Core.run Sys2Proof.core n t = .next u) :
    ∀ {m : Nat} {s : State}, Host.Core.run Sys2Proof.core m s = .next t →
      Host.Core.run Sys2Proof.core (m + n) s = .next u
  | 0, s, hm => by
    cases hm
    rwa [Nat.zero_add]
  | m + 1, s, hm => by
    rw [core_run_succ] at hm
    rw [Nat.add_right_comm, core_run_succ]
    split at hm
    · next s' _ => exact core_run_add hn hm
    · cases hm
    · cases hm

/-! ### The rows of one frame (41_sequencer.md R125) -/

/-- The block is in the frame begun in `s`, at turn `j` of the row at scan position `r`: the row's `W` dispatches are its turns
`0..W-1` and its `W` merges the turns `W..2W-1`. Scan position `H` is no row: there `Inv` says that the phase is BOUNDARY. -/
structure AtTurn (s : State) (r j : Nat) (u : State) : Prop where
  inv : Inv u
  next : videoNext u = true
  scan : u.scan.toNat = r
  col : u.col.toNat = j % s.cfg.W
  phase : r < s.cfg.H → u.phase = if j < s.cfg.W then .gen else .merge
  frame : u.frame = s.frame
  effect : u.effect = s.effect
  palact : u.palact = s.palact
  cfg : u.cfg = s.cfg

theorem atTurn_of_frameStart {s : State} (hI : Inv s) (hv : videoNext s = true) (hs : frameStart s = true) :
    AtTurn s 0 0 s := by
  obtain ⟨hphase, hscan, hcol⟩ := of_decide_eq_true hs
  obtain ⟨hW, -⟩ := grid_of_cfgWf hI.cfg
  exact ⟨hI, hv, by rw [hscan]; rfl, by rw [hcol, Nat.zero_mod]; rfl, fun _ => by rw [hphase, if_pos (by omega)],
    rfl, rfl, rfl, rfl⟩

/-- A step of Context A that leaves the frame's registers leads to the turn its position says. -/
theorem atTurn_of_contextStep {s u v : State} {r j r' j' : Nat} {e : Effect} {a : EffectArgs} (h : AtTurn s r j u)
    (hstep : contextStep e a u = .next v) (hkept : v.frame = u.frame ∧ v.effect = u.effect ∧ v.palact = u.palact)
    (hscan : v.scan.toNat = r') (hcol : v.col.toNat = j' % s.cfg.W)
    (hphase : r' < s.cfg.H → v.phase = if j' < s.cfg.W then .gen else .merge) : AtTurn s r' j' v := by
  obtain ⟨hframe, heffect, hpalact⟩ := hkept
  have hvideo := contextStep_videoFrame hstep
  exact
    { inv := inv_contextStep h.inv hstep
      next := (videoNext_of_videoFrame hvideo).trans h.next
      scan := hscan
      col := hcol
      phase := hphase
      frame := hframe.trans h.frame
      effect := heffect.trans h.effect
      palact := hpalact.trans h.palact
      cfg := (cfg_of_videoFrame hvideo).trans h.cfg }

/-- A dispatch leads to the next turn of its row, the last one to the first merge. -/
theorem exists_step_of_dispatch {s u : State} {r j : Nat} (h : AtTurn s r j u) (hr : r < s.cfg.H) (hj : j < s.cfg.W) :
    ∃ v, step u = .next v ∧ AtTurn s r (j + 1) v := by
  have hp : u.phase = .gen := by rw [h.phase hr, if_pos hj]
  have hok : positionOk u = true := positionOk_of_inv h.inv (by simp [hp])
  obtain ⟨e, a, hstep⟩ := step_of_videoNext h.inv h.next
  have hnext := contextStep_gen e a ((videoNext_iff u).1 h.next).2.2 hp hok
  have hdispatched := inv_pixDispatch h.inv hok e a
  have hcol : (pixDispatch e a u).col.toNat = j := by simp [h.col, Nat.mod_eq_of_lt hj]
  have hW : (pixDispatch e a u).cfg.W = s.cfg.W := by simp [h.cfg]
  refine ⟨_, hstep.trans hnext, atTurn_of_contextStep h hnext (by simp) (by simp [h.scan]) ?_ fun _ => ?_⟩
  · rw [toNat_col_afterDispatch hdispatched, hcol, hW]
  · by_cases hlast : j + 1 = s.cfg.W
    · rw [afterDispatch_of_last (by omega), if_neg (by omega)]
    · rw [afterDispatch_of_more (by omega), if_pos (by omega)]
      simp [hp]

/-- A turn from `W` on is a merge, under some descriptor's fields. -/
theorem exists_contextStep_of_merge {s u : State} {r j : Nat} (h : AtTurn s r j u) (hr : r < s.cfg.H) (hj : s.cfg.W ≤ j) :
    u.phase = .merge ∧ Inv (pixMerge u) ∧
      ∃ e a, step u = contextStep e a u ∧ contextStep e a u = .next (afterMerge (pixMerge u)) := by
  have hp : u.phase = .merge := by rw [h.phase hr, if_neg (by omega)]
  have hok : positionOk u = true := positionOk_of_inv h.inv (by simp [hp])
  obtain ⟨e, a, hstep⟩ := step_of_videoNext h.inv h.next
  exact ⟨hp, inv_pixMerge h.inv hok, e, a, hstep,
    contextStep_merge e a ((videoNext_iff u).1 h.next).2.2 hp hok h.inv.palact⟩

/-- A merge but the last of its row leads to the next turn. -/
theorem exists_step_of_merge {s u : State} {r j : Nat} (h : AtTurn s r j u) (hr : r < s.cfg.H) (hj : s.cfg.W ≤ j)
    (hmore : j + 1 < 2 * s.cfg.W) : ∃ v, step u = .next v ∧ AtTurn s r (j + 1) v := by
  obtain ⟨hp, hmerged, e, a, hstep, hnext⟩ := exists_contextStep_of_merge h hr hj
  have hturn : (pixMerge u).col.toNat = j % s.cfg.W := h.col
  have hcol : j % s.cfg.W = j - s.cfg.W := by rw [Nat.mod_eq_sub_mod hj, Nat.mod_eq_of_lt (by omega)]
  have hW : (pixMerge u).cfg.W = s.cfg.W := by simp [h.cfg]
  have hafter := afterMerge_of_more (s := pixMerge u) (by omega)
  refine ⟨_, hstep.trans hnext, atTurn_of_contextStep h hnext (by simp) ?_ ?_ fun _ => ?_⟩
  · rw [hafter]
    exact h.scan
  · rw [toNat_col_afterMerge hmerged, hW, hturn, Nat.mod_add_mod]
  · rw [hafter, if_neg (by omega)]
    exact hp

/-- The last merge of a row leads to the first dispatch of the next, or to the boundary. -/
theorem exists_step_of_lastMerge {s u : State} {r j : Nat} (h : AtTurn s r j u) (hr : r < s.cfg.H)
    (hlast : j + 1 = 2 * s.cfg.W) : ∃ v, step u = .next v ∧ AtTurn s (r + 1) 0 v := by
  obtain ⟨hWpos, -⟩ := grid_of_cfgWf h.inv.cfg
  rw [h.cfg] at hWpos
  obtain ⟨hp, hmerged, e, a, hstep, hnext⟩ := exists_contextStep_of_merge h hr (by omega)
  have hturn : (pixMerge u).col.toNat = j % s.cfg.W := h.col
  have hcol : (pixMerge u).col.toNat + 1 = s.cfg.W := by
    rw [hturn, Nat.mod_eq_sub_mod (by omega), Nat.mod_eq_of_lt (by omega)]
    omega
  have hW : (pixMerge u).cfg.W = s.cfg.W := by simp [h.cfg]
  have hafter := afterMerge_of_last (s := pixMerge u) (by omega)
  refine ⟨_, hstep.trans hnext, atTurn_of_contextStep h hnext (by simp) ?_ ?_ fun hr' => ?_⟩
  · rw [hafter, ← h.scan]
    exact (toNat_scan_succ h.inv :)
  · rw [toNat_col_afterMerge hmerged, hcol, hW, Nat.mod_self, Nat.zero_mod]
  · have hH : u.scan.toNat + 1 ≠ u.cfg.H := by rw [h.scan, h.cfg]; omega
    rw [hafter, if_pos (by omega)]
    exact if_neg hH

theorem exists_step_of_turn {s u : State} {r j : Nat} (h : AtTurn s r j u) (hr : r < s.cfg.H)
    (hmore : j + 1 < 2 * s.cfg.W) : ∃ v, step u = .next v ∧ AtTurn s r (j + 1) v := by
  rcases Nat.lt_or_ge j s.cfg.W with hgen | hmerge
  · exact exists_step_of_dispatch h hr hgen
  · exact exists_step_of_merge h hr hmerge hmore

/-- The turns of a row, one step each. -/
theorem exists_run_turns {s u : State} {r : Nat} (h : AtTurn s r 0 u) (hr : r < s.cfg.H) :
    ∀ {j : Nat}, j < 2 * s.cfg.W → ∃ v, Host.Core.run Sys2Proof.core j u = .next v ∧ AtTurn s r j v
  | 0, _ => ⟨u, rfl, h⟩
  | j + 1, hj => by
    obtain ⟨v, hrun, hv⟩ := exists_run_turns h hr (j := j) (by omega)
    obtain ⟨w, hstep, hw⟩ := exists_step_of_turn hv hr hj
    exact ⟨w, core_run_add (core_run_one hstep) hrun, hw⟩

/-- A whole row. -/
theorem exists_run_row {s u : State} {r : Nat} (h : AtTurn s r 0 u) (hr : r < s.cfg.H) :
    ∃ v, Host.Core.run Sys2Proof.core (2 * s.cfg.W) u = .next v ∧ AtTurn s (r + 1) 0 v := by
  obtain ⟨hW, -⟩ := grid_of_cfgWf h.inv.cfg
  rw [h.cfg] at hW
  obtain ⟨v, hrun, hv⟩ := exists_run_turns h hr (j := 2 * s.cfg.W - 1) (by omega)
  obtain ⟨w, hstep, hw⟩ := exists_step_of_lastMerge hv hr (by omega)
  have hsteps := core_run_add (core_run_one hstep) hrun
  rw [Nat.sub_add_cancel (by omega)] at hsteps
  exact ⟨w, hsteps, hw⟩

/-- The rows of a frame in order of the scan position. -/
theorem exists_run_rows {s : State} (h : AtTurn s 0 0 s) :
    ∀ {r : Nat}, r ≤ s.cfg.H → ∃ v, Host.Core.run Sys2Proof.core (r * (2 * s.cfg.W)) s = .next v ∧ AtTurn s r 0 v
  | 0, _ => ⟨s, by rw [Nat.zero_mul]; rfl, h⟩
  | r + 1, hr => by
    obtain ⟨v, hrun, hv⟩ := exists_run_rows h (r := r) (by omega)
    obtain ⟨w, hrow, hw⟩ := exists_run_row hv hr
    refine ⟨w, ?_, hw⟩
    rw [Nat.succ_mul]
    exact core_run_add hrow hrun

theorem AtTurn.phase_boundary {s u : State} (h : AtTurn s s.cfg.H 0 u) : u.phase = .boundary :=
  h.inv.boundary.2 (by rw [h.scan, h.cfg])

/-- The frame boundary counts one frame and stands at the first dispatch of the next (41_sequencer.md R126). -/
theorem exists_step_of_boundary {u : State} (hI : Inv u) (hv : videoNext u = true) (hp : u.phase = .boundary) :
    ∃ t, step u = .next t ∧ Inv t ∧ videoNext t = true ∧ frameStart t = true ∧ t.frame = u.frame + 1#32 ∧
      t.prologueDone = true ∧ t.cfg = u.cfg := by
  obtain ⟨e, a, hstep⟩ := step_of_videoNext hI hv
  have hnext := contextStep_boundary e a ((videoNext_iff u).1 hv).2.2 hp
  have hvideo := contextStep_videoFrame hnext
  obtain ⟨hscan, hflag, hframe⟩ := frameAdv_sets a.policy (frameDue_of_inv hI hp)
  have hcol : (frameAdv a.policy u).col = 0#13 := by
    rw [frameAdv_only]
    exact (hI.due hp).2
  exact ⟨_, hstep.trans hnext, inv_contextStep hI hnext, (videoNext_of_videoFrame hvideo).trans hv,
    decide_eq_true ⟨rfl, hscan, hcol⟩, hframe, hflag, cfg_of_videoFrame hvideo⟩

end Sys2Proof.Machine
end

section
/-! PROOF. The statements about the sequencer (41_sequencer.md). -/

namespace Sys2Proof.Machine

/-- Settles O23: the turns of a frame are run row by row (`exists_run_rows`, `exists_run_turns`), the boundary after them is
`exists_step_of_boundary`. -/
theorem oneFrameOfTheLoop : Obligations.OneFrameOfTheLoop := by
  unfold Obligations.OneFrameOfTheLoop
  refine ⟨fun e a s hl => ?_, fun s hI hv hs => ?_⟩
  · rw [exec_effectInstr, contextStep_of_not_live e a hl]
  · have hstart := atTurn_of_frameStart hI hv hs
    obtain ⟨u, hrows, hu⟩ := exists_run_rows hstart le_rfl
    refine ⟨fun r j hr hj => ?_, ⟨u, hrows, hu.phase_boundary, hu.scan, hu.frame, hu.effect⟩, ?_⟩
    · obtain ⟨v, hbefore, hv⟩ := exists_run_rows hstart hr.le
      obtain ⟨w, hturns, hw⟩ := exists_run_turns hv hr hj
      exact ⟨w, core_run_add hturns hbefore, hw.scan, hw.col, hw.phase hr, hw.frame, hw.effect, hw.palact, hw.cfg⟩
    · obtain ⟨t, hstep, hinv, hnext, hfirst, hframe, hflag, hcfg⟩ :=
        exists_step_of_boundary hu.inv hu.next hu.phase_boundary
      have hsteps : frameSteps s.cfg = s.cfg.H * (2 * s.cfg.W) + 1 := by
        rw [frameSteps, Nat.mul_comm]
      refine ⟨t, ?_, hinv, hnext, hfirst, by rw [hframe, hu.frame], hflag, hcfg.trans hu.cfg⟩
      rw [hsteps]
      exact core_run_add (core_run_one hstep) hrows

/-- Settles O21: an acting call sets the flag, so no call finds the advance due after it; `Inv` holds both conditions at the
boundary. -/
theorem frameAdvanceIsOneShot : Obligations.FrameAdvanceIsOneShot := by
  unfold Obligations.FrameAdvanceIsOneShot
  refine ⟨fun p s hidle => ?_, fun p s hscan hflag => ?_, fun p q s => ?_, fun s hI hp => ?_⟩
  · refine frameAdv_of_not_due p fun hdue => ?_
    obtain ⟨hscan, hflag⟩ := (frameDue_iff s).1 hdue
    simp [hscan, hflag] at hidle
  · exact frameAdv_sets p ((frameDue_iff s).2 ⟨hscan, hflag⟩)
  · exact frameAdv_of_not_due q (not_frameDue_frameAdv p s)
  · exact (frameDue_iff s).1 (frameDue_of_inv hI hp)

/-- Settles O45: each row is `layerReset`, whose two sweeps reach the cells of the grid and no other. -/
theorem policyRowsResetTheLayers : Obligations.PolicyRowsResetTheLayers := by
  unfold Obligations.PolicyRowsResetTheLayers
  intro p a s
  obtain ⟨hbg, hfg⟩ := layerReset_changed p s
  refine ⟨layerReset p s, exec_policyInstr p a s, rfl, fun b hb => ?_, fun b hb => ?_⟩
  · rw [hbg, hfg, cell_sweep_policyCell p s.bg hb, Memory.read_sweep, if_pos hb]
    exact ⟨rfl, rfl⟩
  · rw [hbg, hfg, Memory.read_sweep_above _ _ hb, Memory.read_sweep_above _ _ hb]
    exact ⟨rfl, rfl⟩

end Sys2Proof.Machine
end

section
/-! SUPPORT. The automaton (42_gen_automaton.md): what one cell reads after a transfer, and each of the four phases as a
transfer or one store, with what it leaves. -/

namespace Sys2Proof.Machine

/-! ### One store and one transfer (42_gen_automaton.md R147) -/

theorem read_setCell_other (m : Memory 8) {a b : Nat} (h : b ≠ a) (v : Nat) :
    Memory.read (setCell m a v) b = Memory.read m b :=
  Memory.read_write_other m h _

theorem cell_setCell_same (m : Memory 8) (a : Nat) {v : Nat} (hv : v ≤ 255) : cell (setCell m a v) a = v := by
  rw [cell_setCell m a a v hv, if_pos rfl]

theorem cell_setCell_other (m : Memory 8) {a b : Nat} (h : b ≠ a) (v : Nat) : cell (setCell m a v) b = cell m b :=
  congrArg BitVec.toNat (read_setCell_other m h v)

theorem read_eq_of_cell_eq {m m' : Memory 8} {a : Nat} (h : cell m' a = cell m a) : Memory.read m' a = Memory.read m a :=
  BitVec.eq_of_toNat_eq h

theorem read_xfer_other (m : Memory 8) {src dst b : Nat} (hs : b ≠ src) (hd : b ≠ dst) (req : Nat) :
    Memory.read (xfer m src dst req) b = Memory.read m b :=
  (read_setCell_other _ hd _).trans (read_setCell_other _ hs _)

theorem cell_xfer_other (m : Memory 8) {src dst b : Nat} (hs : b ≠ src) (hd : b ≠ dst) (req : Nat) :
    cell (xfer m src dst req) b = cell m b :=
  congrArg BitVec.toNat (read_xfer_other m hs hd req)

theorem cell_xfer_src (m : Memory 8) {src dst : Nat} (h : src ≠ dst) (req : Nat) :
    cell (xfer m src dst req) src = cell m src - min req (min (cell m src) (255 - cell m dst)) := by
  have hle := cell_le m src
  exact (cell_setCell_other _ h _).trans (cell_setCell_same m src (by omega))

theorem cell_xfer_dst (m : Memory 8) {src dst : Nat} (h : src ≠ dst) (req : Nat) :
    cell (xfer m src dst req) dst = cell m dst + min req (min (cell m src) (255 - cell m dst)) := by
  have hle := cell_le m dst
  simp only [xfer]
  rw [cell_setCell_other m h.symm, cell_setCell_same _ _ (by omega)]

/-- A transfer from a cell to itself cancels: the second cell is read after the first write. -/
theorem read_xfer_self (m : Memory 8) (a req b : Nat) : Memory.read (xfer m a a req) b = Memory.read m b := by
  by_cases hb : b = a
  · subst hb
    have hle := cell_le m b
    refine read_eq_of_cell_eq ?_
    simp only [xfer]
    rw [cell_setCell_same m b (by omega), cell_setCell_same _ _ (by omega)]
    omega
  · exact read_xfer_other m hb hb req

theorem cell_xfer_self (m : Memory 8) (a req b : Nat) : cell (xfer m a a req) b = cell m b :=
  congrArg BitVec.toNat (read_xfer_self m a req b)

/-! ### Forcing (42_gen_automaton.md R148) -/

theorem forcing_of_ambient (c : Cfg) {e : Effect} (h : forcingClass e = .ambient) (f y x : Nat) (m : Memory 8) :
    forcing c e f y x m =
      if f % 2 = 0 then setCell m (cellAddr c y x) (min (cell m (cellAddr c y x) + c.ambientAmt) 255) else m := by
  rw [forcing, h]

theorem forcing_of_seed (c : Cfg) {e : Effect} (h : forcingClass e = .seed) (f y x : Nat) (m : Memory 8) :
    forcing c e f y x m = if y = c.H - 1 then setCell m (cellAddr c y x) 255 else m := by
  rw [forcing, h]

theorem forcing_of_noforce (c : Cfg) {e : Effect} (h : forcingClass e = .noforce) (f y x : Nat) (m : Memory 8) :
    forcing c e f y x m = m := by
  rw [forcing, h]

theorem read_forcing_other (c : Cfg) (e : Effect) (f : Nat) {y x b : Nat} (m : Memory 8) (h : b ≠ cellAddr c y x) :
    Memory.read (forcing c e f y x m) b = Memory.read m b :=
  forcing_keeps (P := fun m' => Memory.read m' b = Memory.read m b) e f c y x
    (fun m' v hm' => (read_setCell_other m' h v).trans hm') rfl

/-! ### Diffusion (42_gen_automaton.md R149) -/

/-- A best value so far stays the best where no cell of the list is below it. -/
theorem firstMin_of_le (m : Memory 8) : ∀ (l : List Nat) (best : Nat × Option Nat), (∀ a ∈ l, best.1 ≤ cell m a) →
    firstMin m best l = best
  | [], _, _ => rfl
  | a :: t, best, h => by
    rw [firstMin, if_neg (Nat.not_lt.2 (h a List.mem_cons_self))]
    exact firstMin_of_le m t best fun a' ha' => h a' (List.mem_cons_of_mem a ha')

/-- A bound below the best value so far and below each cell of the list is below the least. -/
theorem le_firstMin (m : Memory 8) {k : Nat} : ∀ (l : List Nat) (best : Nat × Option Nat), k ≤ best.1 →
    (∀ a ∈ l, k ≤ cell m a) → k ≤ (firstMin m best l).1
  | [], _, hbest, _ => hbest
  | a :: t, best, hbest, h => by
    rw [firstMin]
    refine le_firstMin m t _ ?_ fun a' ha' => h a' (List.mem_cons_of_mem a ha')
    split
    · exact h a List.mem_cons_self
    · exact hbest

/-- The search answers the first position of the list that holds its least value. -/
theorem firstMin_eq (m : Memory 8) {b : Nat} : ∀ (l : List Nat) (i : Nat) (best : Nat × Option Nat), l[i]? = some b →
    cell m b < best.1 → (∀ a ∈ l, cell m b ≤ cell m a) → (∀ j a, j < i → l[j]? = some a → cell m b < cell m a) →
    firstMin m best l = (cell m b, some b)
  | [], _, _, hi, _, _, _ => by simp at hi
  | a :: t, 0, best, hi, hbest, hle, _ => by
    obtain rfl : a = b := by simpa using hi
    rw [firstMin, if_pos hbest]
    exact firstMin_of_le m t _ fun a' ha' => hle a' (List.mem_cons_of_mem a ha')
  | a :: t, i + 1, best, hi, hbest, hle, hfirst => by
    rw [firstMin]
    refine firstMin_eq m t i _ (by simpa using hi) ?_ (fun a' ha' => hle a' (List.mem_cons_of_mem a ha'))
      fun j a' hj ha' => hfirst (j + 1) a' (by omega) (by simpa using ha')
    split
    · exact hfirst 0 a (Nat.succ_pos i) rfl
    · exact hbest

theorem diffuse_of_no_less {c : Cfg} {y x : Nat} {m : Memory 8}
    (h : ∀ b ∈ nbrAddrs c y x, cell m (cellAddr c y x) ≤ cell m b) : diffuse c y x m = m := by
  have hself := cell_le m (cellAddr c y x)
  have hleast := le_firstMin m (nbrAddrs c y x) (256, none) (by omega) h
  unfold diffuse
  generalize firstMin m (256, none) (nbrAddrs c y x) = r at hleast
  obtain ⟨least, tgt⟩ := r
  cases tgt with
  | none => rfl
  | some tgt => exact if_neg (Nat.not_lt.2 hleast)

/-- Where the first least neighbour is below the cell, diffusion is the transfer of half of the cell to it. -/
theorem diffuse_eq_xfer {c : Cfg} {y x i b : Nat} {m : Memory 8} (hi : (nbrAddrs c y x)[i]? = some b)
    (hless : cell m b < cell m (cellAddr c y x)) (hle : ∀ b' ∈ nbrAddrs c y x, cell m b ≤ cell m b')
    (hfirst : ∀ j b', j < i → (nbrAddrs c y x)[j]? = some b' → cell m b < cell m b') :
    diffuse c y x m = xfer m (cellAddr c y x) b (cell m (cellAddr c y x) / 2) := by
  have hb := cell_le m b
  have hne : b ≠ cellAddr c y x := fun h => absurd hless (by rw [h]; exact lt_irrefl _)
  have hhalf : min (cell m (cellAddr c y x) / 2) (255 - cell m b) =
      min (cell m (cellAddr c y x) / 2) (min (cell m (cellAddr c y x)) (255 - cell m b)) := by omega
  unfold diffuse
  rw [firstMin_eq m _ i (256, none) hi (Nat.lt_succ_of_le hb) hle hfirst]
  simp only [xfer, if_pos hless, hhalf]
  rw [cell_setCell_other m hne]

theorem read_diffuse_other {c : Cfg} {y x b : Nat} (m : Memory 8) (hp : b ≠ cellAddr c y x) (hn : b ∉ nbrAddrs c y x) :
    Memory.read (diffuse c y x m) b = Memory.read m b := by
  refine diffuse_keeps (P := fun m' => Memory.read m' b = Memory.read m b) c y x (fun m' a v ha hm' => ?_) rfl
  refine (read_setCell_other m' ?_ v).trans hm'
  rintro rfl
  exact ha.elim hp hn

/-! ### Cooling (42_gen_automaton.md R150) -/

theorem length_nbrAddrs (c : Cfg) (y x : Nat) : (nbrAddrs c y x).length = 8 := rfl

theorem sum_nbrAddrs_le (c : Cfg) (y x : Nat) (m : Memory 8) : ((nbrAddrs c y x).map (cell m)).sum ≤ 2040 := by
  have h := List.sum_le_card_nsmul ((nbrAddrs c y x).map (cell m)) 255 fun v hv => by
    obtain ⟨a, -, rfl⟩ := List.mem_map.1 hv
    exact cell_le m a
  simpa [length_nbrAddrs] using h

theorem cell_cool_same (c : Cfg) (y x : Nat) (m : Memory 8) :
    cell (cool c y x m) (cellAddr c y x) =
      if ((nbrAddrs c y x).map (cell m)).sum / 8 < cell m (cellAddr c y x) then cell m (cellAddr c y x) - 1
      else cell m (cellAddr c y x) := by
  have hle := cell_le m (cellAddr c y x)
  simp only [cool]
  split
  · exact cell_setCell_same m _ (by omega)
  · rfl

theorem read_cool_other (c : Cfg) {y x b : Nat} (m : Memory 8) (h : b ≠ cellAddr c y x) :
    Memory.read (cool c y x m) b = Memory.read m b :=
  cool_keeps (P := fun m' => Memory.read m' b = Memory.read m b) c y x
    (fun m' v hm' => (read_setCell_other m' h v).trans hm') rfl

/-! ### Convection (42_gen_automaton.md R151) -/

theorem direction_eq (e : Effect) : direction e = if e = .acid then 1 else -1 := by
  cases e <;> rfl

/-- The three transfers of a cell above both thresholds: out of `p` to `n1` and to `n2`, then out of `s1` to `n2`. -/
def threeTransfers (c : Cfg) (m : Memory 8) (p n1 n2 s1 : Nat) : Memory 8 :=
  let m2 := xfer (xfer m p n1 (conv1 c (cell m p))) p n2 (conv2 c (cell m p))
  xfer m2 s1 n2 (conv3 c (cell m2 s1))

theorem convect_of_low {c : Cfg} {y x : Nat} {m : Memory 8} (h : cell m (cellAddr c y x) ≤ 32) (e : Effect) :
    convect c e y x m = m := by
  have hnot1 : ¬ thConv1 < cell m (cellAddr c y x) := Nat.not_lt.2 h
  have hnot2 : ¬ thConv2 < cell m (cellAddr c y x) := Nat.not_lt.2 (h.trans (by decide))
  simp only [convect, if_neg hnot1, if_neg hnot2]

theorem convect_of_middle {c : Cfg} {y x : Nat} {m : Memory 8} (h1 : 32 < cell m (cellAddr c y x))
    (h2 : cell m (cellAddr c y x) ≤ 128) (e : Effect) :
    convect c e y x m =
      xfer m (cellAddr c y x) (clampAddr c (y + direction e) x) (conv1 c (cell m (cellAddr c y x))) := by
  have habove1 : thConv1 < cell m (cellAddr c y x) := h1
  have hnot2 : ¬ thConv2 < cell m (cellAddr c y x) := Nat.not_lt.2 h2
  simp only [convect, if_pos habove1, if_neg hnot2]

theorem convect_of_high {c : Cfg} {y x : Nat} {m : Memory 8} (h : 128 < cell m (cellAddr c y x)) (e : Effect) :
    convect c e y x m =
      threeTransfers c m (cellAddr c y x) (clampAddr c (y + direction e) x) (clampAddr c (y + 2 * direction e) x)
        (clampAddr c (y - direction e) x) := by
  have habove1 : thConv1 < cell m (cellAddr c y x) := lt_trans (by decide) h
  have habove2 : thConv2 < cell m (cellAddr c y x) := h
  simp only [convect, threeTransfers, if_pos habove1, if_pos habove2]

theorem read_threeTransfers_other (c : Cfg) (m : Memory 8) {p n1 n2 s1 b : Nat} (hp : b ≠ p) (h1 : b ≠ n1) (h2 : b ≠ n2)
    (hs : b ≠ s1) : Memory.read (threeTransfers c m p n1 n2 s1) b = Memory.read m b :=
  calc Memory.read (threeTransfers c m p n1 n2 s1) b
    _ = Memory.read (xfer (xfer m p n1 (conv1 c (cell m p))) p n2 (conv2 c (cell m p))) b := read_xfer_other _ hs h2 _
    _ = Memory.read (xfer m p n1 (conv1 c (cell m p))) b := read_xfer_other _ hp h2 _
    _ = Memory.read m b := read_xfer_other _ hp h1 _

theorem read_convect_other {c : Cfg} {e : Effect} {y x b : Nat} (m : Memory 8) (hp : b ≠ cellAddr c y x)
    (h1 : b ≠ clampAddr c (y + direction e) x) (h2 : b ≠ clampAddr c (y + 2 * direction e) x)
    (hs : b ≠ clampAddr c (y - direction e) x) : Memory.read (convect c e y x m) b = Memory.read m b := by
  rcases Nat.lt_or_ge 128 (cell m (cellAddr c y x)) with hhigh | hle
  · rw [convect_of_high hhigh, read_threeTransfers_other c m hp h1 h2 hs]
  · rcases Nat.lt_or_ge 32 (cell m (cellAddr c y x)) with hmid | hlow
    · rw [convect_of_middle hmid hle, read_xfer_other m hp h1]
    · rw [convect_of_low hlow]

theorem nodup_three {a b c : Nat} (h : [a, b, c].Nodup) : a ≠ b ∧ a ≠ c ∧ b ≠ c := by
  simpa [and_assoc] using h

theorem not_mem_three {a b c d : Nat} (h : d ∉ [a, b, c]) : d ≠ a ∧ d ≠ b ∧ d ≠ c := by
  simpa using h

/-- Above both thresholds, away from the edges of the grid: the four cells are distinct. -/
theorem threeTransfers_distinct (c : Cfg) (m : Memory 8) {p n1 n2 s1 : Nat} (h : [p, n1, n2, s1].Nodup) :
    let v := cell m p
    let t1 := min (conv1 c v) (min v (255 - cell m n1))
    let t2 := min (conv2 c v) (min (v - t1) (255 - cell m n2))
    let t3 := min (conv3 c (cell m s1)) (min (cell m s1) (255 - (cell m n2 + t2)))
    let m' := threeTransfers c m p n1 n2 s1
    cell m' p = v - t1 - t2 ∧ cell m' n1 = cell m n1 + t1 ∧ cell m' n2 = cell m n2 + t2 + t3 ∧
    cell m' s1 = cell m s1 - t3 ∧ ∀ b, b ∉ [p, n1, n2, s1] → Memory.read m' b = Memory.read m b := by
  obtain ⟨hp, hrest⟩ := List.nodup_cons.1 h
  obtain ⟨hp1, hp2, hps⟩ := not_mem_three hp
  obtain ⟨h12, h1s, h2s⟩ := nodup_three hrest
  have hframe : ∀ b, b ∉ [p, n1, n2, s1] → Memory.read (threeTransfers c m p n1 n2 s1) b = Memory.read m b := by
    intro b hb
    obtain ⟨hbp, hbrest⟩ := not_or.1 (mt List.mem_cons.2 hb)
    obtain ⟨hb1, hb2, hbs⟩ := not_mem_three hbrest
    exact read_threeTransfers_other c m hbp hb1 hb2 hbs
  refine ⟨?_, ?_, ?_, ?_, hframe⟩ <;>
    simp only [threeTransfers, cell_xfer_src, cell_xfer_dst, cell_xfer_other, ne_eq, not_false_eq_true, hp1, hp2, hps, h12,
      h1s, hp1.symm, hp2.symm, hps.symm, h12.symm, h1s.symm, h2s.symm]

/-- The second row: the cell two rows on is the next row's too. -/
theorem threeTransfers_sameTarget (c : Cfg) (m : Memory 8) {p n1 s1 : Nat} (h : [p, n1, s1].Nodup) :
    let v := cell m p
    let t1 := min (conv1 c v) (min v (255 - cell m n1))
    let t2 := min (conv2 c v) (min (v - t1) (255 - (cell m n1 + t1)))
    let t3 := min (conv3 c (cell m s1)) (min (cell m s1) (255 - (cell m n1 + t1 + t2)))
    let m' := threeTransfers c m p n1 n1 s1
    cell m' p = v - t1 - t2 ∧ cell m' n1 = cell m n1 + t1 + t2 + t3 ∧ cell m' s1 = cell m s1 - t3 ∧
    ∀ b, b ∉ [p, n1, s1] → Memory.read m' b = Memory.read m b := by
  obtain ⟨hp1, hps, h1s⟩ := nodup_three h
  have hframe : ∀ b, b ∉ [p, n1, s1] → Memory.read (threeTransfers c m p n1 n1 s1) b = Memory.read m b := by
    intro b hb
    obtain ⟨hbp, hb1, hbs⟩ := not_mem_three hb
    exact read_threeTransfers_other c m hbp hb1 hb1 hbs
  refine ⟨?_, ?_, ?_, hframe⟩ <;>
    simp only [threeTransfers, cell_xfer_src, cell_xfer_dst, cell_xfer_other, ne_eq, not_false_eq_true, hp1, hps, hps.symm,
      h1s.symm]

/-- The last row: the row behind is the cell's own, so all three transfers leave the cell. -/
theorem threeTransfers_fromItself (c : Cfg) (m : Memory 8) {p n1 n2 : Nat} (h : [p, n1, n2].Nodup) :
    let v := cell m p
    let t1 := min (conv1 c v) (min v (255 - cell m n1))
    let t2 := min (conv2 c v) (min (v - t1) (255 - cell m n2))
    let u := v - t1 - t2
    let t3 := min (conv3 c u) (min u (255 - (cell m n2 + t2)))
    let m' := threeTransfers c m p n1 n2 p
    cell m' p = u - t3 ∧ cell m' n1 = cell m n1 + t1 ∧ cell m' n2 = cell m n2 + t2 + t3 ∧
    ∀ b, b ∉ [p, n1, n2] → Memory.read m' b = Memory.read m b := by
  obtain ⟨hp1, hp2, h12⟩ := nodup_three h
  have hframe : ∀ b, b ∉ [p, n1, n2] → Memory.read (threeTransfers c m p n1 n2 p) b = Memory.read m b := by
    intro b hb
    obtain ⟨hbp, hb1, hb2⟩ := not_mem_three hb
    exact read_threeTransfers_other c m hbp hb1 hb2 hbp
  refine ⟨?_, ?_, ?_, hframe⟩ <;>
    simp only [threeTransfers, cell_xfer_src, cell_xfer_dst, cell_xfer_other, ne_eq, not_false_eq_true, hp1, hp2, h12,
      hp1.symm, hp2.symm, h12.symm]

/-- The first row: both transfers out of the cell cancel, the third enters it (42_gen_automaton.md R151). -/
theorem threeTransfers_toItself (c : Cfg) (m : Memory 8) {p s1 : Nat} (h : s1 ≠ p) :
    let t3 := min (conv3 c (cell m s1)) (min (cell m s1) (255 - cell m p))
    let m' := threeTransfers c m p p p s1
    cell m' p = cell m p + t3 ∧ cell m' s1 = cell m s1 - t3 ∧
    ∀ b, b ≠ p → b ≠ s1 → Memory.read m' b = Memory.read m b := by
  refine ⟨?_, ?_, fun b hbp hbs => read_threeTransfers_other c m hbp hbp hbp hbs⟩ <;>
    simp only [threeTransfers, cell_xfer_src _ h, cell_xfer_dst _ h, cell_xfer_self]

/-- The rows next to the dispatched cell, in the convection direction and against it, are among its neighbours. -/
theorem clampAddr_direction_mem_nbrAddrs (c : Cfg) (e : Effect) (y x : Nat) :
    clampAddr c (y + direction e) x ∈ nbrAddrs c y x ∧ clampAddr c (y - direction e) x ∈ nbrAddrs c y x := by
  have hup : clampAddr c ((y : Int) + -1) x ∈ nbrAddrs c y x :=
    List.mem_map.2 ⟨(-1, 0), by decide, by simp⟩
  have hdown : clampAddr c ((y : Int) + 1) x ∈ nbrAddrs c y x :=
    List.mem_map.2 ⟨(1, 0), by decide, by simp⟩
  rw [direction_eq]
  split
  · exact ⟨hdown, hup⟩
  · exact ⟨hup, by simpa using hdown⟩

/-! ### The four phases (42_gen_automaton.md R145) -/

theorem read_automaton_other {c : Cfg} {e : Effect} (f : Nat) {y x b : Nat} (m : Memory 8) (hp : b ≠ cellAddr c y x)
    (hn : b ∉ nbrAddrs c y x) (h2 : b ≠ clampAddr c (y + 2 * direction e) x) :
    Memory.read (automaton e f c y x m) b = Memory.read m b := by
  obtain ⟨hup, hdown⟩ := clampAddr_direction_mem_nbrAddrs c e y x
  rw [automaton, read_convect_other _ hp (fun h => hn (h ▸ hup)) h2 (fun h => hn (h ▸ hdown)), read_cool_other c _ hp,
    read_diffuse_other _ hp hn, read_forcing_other c e f m hp]

theorem exec_bgAutomaton (a : BgArgs) {s : State} (hok : positionOk s = true) :
    exec (.bgAutomaton a) s = .next (onBackground (automaton a.op s.frame.toNat) s) :=
  if_pos hok

end Sys2Proof.Machine
end

section
/-! PROOF. The statements about the automaton (42_gen_automaton.md). -/

namespace Sys2Proof.Machine

/-- Settles O27: the amount is within the request, the source and the headroom, so neither store is cut; with one cell for both
the two writes cancel. -/
theorem transferIsBounded : Obligations.TransferIsBounded := by
  unfold Obligations.TransferIsBounded
  intro m src dst req
  have hdst := cell_le m dst
  refine ⟨by omega, by omega, by omega, fun hne => ?_, fun heq => ?_, fun b hs hd => read_xfer_other m hs hd req⟩
  · rw [cell_xfer_src m hne, cell_xfer_dst m hne]
    exact ⟨rfl, rfl, by omega⟩
  · rw [← heq, cell_xfer_self]

/-- Settles O28, by the forcing class of the Effect. -/
theorem forcingFollowsTheClass : Obligations.ForcingFollowsTheClass := by
  unfold Obligations.ForcingFollowsTheClass
  intro c e f y x m
  refine ⟨fun he => ?_, fun he => ?_, fun he => ?_, fun b hb => read_forcing_other c e f m hb⟩
  · rw [forcing_of_ambient c (by rcases he with rfl | rfl <;> rfl)]
    split
    · exact cell_setCell_same m _ (Nat.min_le_right _ _)
    · rfl
  · rw [forcing_of_seed c (by rcases he with rfl | rfl | rfl <;> rfl)]
    split
    · exact cell_setCell_same m _ le_rfl
    · rfl
  · exact forcing_of_noforce c (by rcases he with rfl | rfl | rfl | rfl <;> rfl) f y x m

/-- Settles O29: diffusion is the transfer of half of the cell to its first least neighbour. -/
theorem diffusionGoesToTheFirstMinimum : Obligations.DiffusionGoesToTheFirstMinimum := by
  unfold Obligations.DiffusionGoesToTheFirstMinimum
  intro c y x m
  refine ⟨diffuse_of_no_less, fun i b hi hless hle hfirst => ?_⟩
  have hne : cellAddr c y x ≠ b := fun h => absurd hless (by rw [h]; exact lt_irrefl _)
  have hhalf : min (cell m (cellAddr c y x) / 2) (min (cell m (cellAddr c y x)) (255 - cell m b)) =
      min (cell m (cellAddr c y x) / 2) (255 - cell m b) := by omega
  rw [diffuse_eq_xfer hi hless hle hfirst, cell_xfer_src m hne, cell_xfer_dst m hne, hhalf]
  exact ⟨hne.symm, rfl, rfl, fun b' hp hb => read_xfer_other m hp hb _⟩

/-- Settles O30: the sum is over the addresses of the clamped neighbours, and the phase's one store is at the cell. -/
theorem coolingFollowsTheAverage : Obligations.CoolingFollowsTheAverage := by
  unfold Obligations.CoolingFollowsTheAverage
  intro c y x m
  have hsum : (nbr.map fun d => cell m (cellAddr c (clampTo c.H (y + d.1)) (clampTo c.W (x + d.2)))).sum =
      ((nbrAddrs c y x).map (cell m)).sum := by
    rw [nbrAddrs, List.map_map]
    rfl
  dsimp only
  rw [hsum]
  exact ⟨sum_nbrAddrs_le c y x m, cell_cool_same c y x m, fun b hb => read_cool_other c m hb⟩

/-- Settles O31, by the two thresholds and then, above both, by where the four cells coincide. -/
theorem convectionPushesNorth : Obligations.ConvectionPushesNorth := by
  unfold Obligations.ConvectionPushesNorth
  intro c e y x m
  dsimp only
  rw [← direction_eq e]
  refine ⟨fun hlow => convect_of_low hlow e, fun hmid hle hne => ?_, fun hmid hle heq b => ?_, fun hhigh hnodup => ?_,
    fun hhigh hnodup h21 => ?_, fun hhigh hnodup hsp => ?_, fun hhigh h1p h2p hsp => ?_⟩
  · rw [convect_of_middle hmid hle, cell_xfer_src m hne.symm, cell_xfer_dst m hne.symm]
    exact ⟨rfl, rfl, fun b hp h1 => read_xfer_other m hp h1 _⟩
  · rw [convect_of_middle hmid hle, heq, read_xfer_self]
  · rw [convect_of_high hhigh]
    exact threeTransfers_distinct c m hnodup
  · rw [convect_of_high hhigh, h21]
    exact threeTransfers_sameTarget c m hnodup
  · rw [convect_of_high hhigh, hsp]
    exact threeTransfers_fromItself c m hnodup
  · rw [convect_of_high hhigh, h1p, h2p]
    exact threeTransfers_toItself c m hsp

/-- Settles O33: the arm is the four phases on the Background, and each phase has its frame. -/
theorem automatonRunsItsFourPhases : Obligations.AutomatonRunsItsFourPhases := by
  unfold Obligations.AutomatonRunsItsFourPhases
  intro a s hok
  refine ⟨onBackground (automaton a.op s.frame.toNat) s, exec_bgAutomaton a hok, ?_⟩
  dsimp only
  refine ⟨rfl, fun b hp hn h2 => ?_⟩
  rw [← direction_eq] at h2
  rw [onBackground_changed]
  exact read_automaton_other _ s.bg hp hn h2

end Sys2Proof.Machine
end

section
/-! SUPPORT. The pattern units (43_gen_fractal_plasma_checker.md): what a block fill writes, the two branches of the fractal and
the plasma unit, the escape-time loop against the orbit of its point, and the bounds of the stored values. -/

namespace Sys2Proof.Machine

/-! ### The block fill (43_gen_fractal_plasma_checker.md R174) -/

theorem mem_blockPoints {y x y' x' k : Nat} :
    ((y' : Int), (x' : Int)) ∈ blockPoints y x (k + 1) ↔ y ≤ y' ∧ y' ≤ y + k ∧ x ≤ x' ∧ x' ≤ x + k := by
  simp only [blockPoints, List.mem_flatMap, List.mem_map, List.mem_range, Prod.mk.injEq]
  constructor
  · rintro ⟨dy, hdy, dx, hdx, hy, hx⟩
    omega
  · rintro ⟨hy, hy', hx, hx'⟩
    exact ⟨y' - y, by omega, x' - x, by omega, by omega, by omega⟩

/-- The side of the block is `k + 1`, so that its last row is `y + k` and its last column `x + k`. -/
theorem cell_blockFill (c : Cfg) (m : Memory 8) (y x k : Nat) {v y' x' : Nat} (hv : v ≤ 255) (hy : y' < c.H) (hx : x' < c.W) :
    cell (blockFill c m y x (k + 1) (BitVec.ofNat 8 v)) (cellAddr c y' x') =
      if y ≤ y' ∧ y' ≤ y + k ∧ x ≤ x' ∧ x' ≤ x + k then v else cell m (cellAddr c y' x') := by
  unfold cell blockFill
  rw [read_clipWrites c _ _ m hy hx]
  simp only [mem_blockPoints]
  split
  · exact Nat.mod_eq_of_lt (Nat.lt_succ_of_le hv)
  · rfl

theorem read_blockFill_outside (c : Cfg) (m : Memory 8) (y x : Int) (k : Nat) (v : Byte) {b : Nat} (hb : c.H * c.W ≤ b) :
    Memory.read (blockFill c m y x k v) b = Memory.read m b :=
  read_clipWrites_outside c v _ m hb

/-! ### The units at the dispatch coordinates -/

theorem onBackground_eq_self {f : Cfg → Nat → Nat → Memory 8 → Memory 8} {s : State}
    (h : f s.cfg (genRow s) s.col.toNat s.bg = s.bg) : onBackground f s = s := by
  unfold onBackground
  rw [h]

theorem exec_bgFractal (a : BgArgs) {s : State} (hok : positionOk s = true) :
    exec (.bgFractal a) s = .next (onBackground (fractalUnit s.frame.toNat) s) :=
  if_pos hok

theorem exec_bgPlasma (a : BgArgs) {s : State} (hok : positionOk s = true) :
    exec (.bgPlasma a) s = .next (onBackground (plasmaUnit s.frame.toNat) s) :=
  if_pos hok

theorem exec_bgChecker (a : BgArgs) {s : State} (hok : positionOk s = true) :
    exec (.bgChecker a) s = .next (onBackground (checkerUnit s.frame.toNat) s) :=
  if_pos hok

theorem fractalUnit_of_even {y x : Nat} (hy : y % 2 = 0) (hx : x % 2 = 0) (f : Nat) (c : Cfg) (m : Memory 8) :
    fractalUnit f c y x m = blockFill c m y x 2 (BitVec.ofNat 8 (frValue c f y x)) :=
  if_pos ⟨hy, hx⟩

theorem fractalUnit_of_odd {y x : Nat} (h : y % 2 = 1 ∨ x % 2 = 1) (f : Nat) (c : Cfg) (m : Memory 8) :
    fractalUnit f c y x m = m :=
  if_neg (by omega)

theorem plasmaUnit_of_multiple {y x : Nat} (hy : y % 4 = 0) (hx : x % 4 = 0) (f : Nat) (c : Cfg) (m : Memory 8) :
    plasmaUnit f c y x m = blockFill c m y x 4 (BitVec.ofNat 8 (plasmaVal c f y x)) :=
  if_pos ⟨hy, hx⟩

theorem plasmaUnit_of_not_multiple {y x : Nat} (h : y % 4 ≠ 0 ∨ x % 4 ≠ 0) (f : Nat) (c : Cfg) (m : Memory 8) :
    plasmaUnit f c y x m = m :=
  if_neg (by omega)

/-! ### The escape-time loop (43_gen_fractal_plasma_checker.md R169) -/

/-- One turn of the loop, in the words of the recurrence. -/
theorem frLoop_succ (cr ci : F32) (left : Nat) (z : F32 × F32) :
    frLoop cr ci (left + 1) z.1 z.2 =
      if escaped z = true then 0 else 1 + frLoop cr ci left (orbitNext cr ci z).1 (orbitNext cr ci z).2 :=
  rfl

theorem frLoop_succ_of_escaped (cr ci : F32) (left : Nat) {z : F32 × F32} (h : escaped z = true) :
    frLoop cr ci (left + 1) z.1 z.2 = 0 := by
  rw [frLoop_succ, if_pos h]

theorem frLoop_succ_of_not_escaped (cr ci : F32) (left : Nat) {z : F32 × F32} (h : ¬ escaped z = true) :
    frLoop cr ci (left + 1) z.1 z.2 = frLoop cr ci left (orbitNext cr ci z).1 (orbitNext cr ci z).2 + 1 := by
  rw [frLoop_succ, if_neg h, Nat.add_comm]

/-- The model's loop updates the start point, the orbit its last point. -/
theorem orbit_orbitNext (cr ci : F32) (z : F32 × F32) (k : Nat) :
    orbit cr ci (orbitNext cr ci z) k = orbit cr ci z (k + 1) := by
  induction k with
  | zero => rfl
  | succ k ih => exact congrArg (orbitNext cr ci) ih

theorem frLoop_le (cr ci : F32) (left : Nat) (z : F32 × F32) : frLoop cr ci left z.1 z.2 ≤ left := by
  induction left generalizing z with
  | zero => exact le_rfl
  | succ left ih =>
    by_cases hz : escaped z = true
    · rw [frLoop_succ_of_escaped cr ci left hz]
      exact Nat.zero_le _
    · rw [frLoop_succ_of_not_escaped cr ci left hz]
      exact Nat.succ_le_succ (ih _)

theorem not_escaped_of_lt_frLoop (cr ci : F32) {left k : Nat} {z : F32 × F32} (hk : k < frLoop cr ci left z.1 z.2) :
    escaped (orbit cr ci z k) = false := by
  induction left generalizing z k with
  | zero => exact absurd hk (Nat.not_lt_zero k)
  | succ left ih =>
    by_cases hz : escaped z = true
    · rw [frLoop_succ_of_escaped cr ci left hz] at hk
      exact absurd hk (Nat.not_lt_zero k)
    · rw [frLoop_succ_of_not_escaped cr ci left hz] at hk
      cases k with
      | zero => exact Bool.eq_false_iff.2 hz
      | succ k =>
        rw [← orbit_orbitNext]
        exact ih (Nat.lt_of_succ_lt_succ hk)

theorem escaped_of_frLoop_lt (cr ci : F32) {left : Nat} {z : F32 × F32} (h : frLoop cr ci left z.1 z.2 < left) :
    escaped (orbit cr ci z (frLoop cr ci left z.1 z.2)) = true := by
  induction left generalizing z with
  | zero => exact absurd h (Nat.not_lt_zero _)
  | succ left ih =>
    by_cases hz : escaped z = true
    · rw [frLoop_succ_of_escaped cr ci left hz]
      exact hz
    · rw [frLoop_succ_of_not_escaped cr ci left hz] at h ⊢
      rw [← orbit_orbitNext]
      exact ih (Nat.lt_of_succ_lt_succ h)

theorem frIter_le (zr zi cr ci : F32) : frIter zr zi cr ci ≤ 32 := frLoop_le cr ci frMaxIt (zr, zi)

/-! ### The stored values (43_gen_fractal_plasma_checker.md R170, R175, R184) -/

theorem frValue_le (c : Cfg) (f y x : Nat) : frValue c f y x ≤ 255 := by
  unfold frValue frMaxIt
  omega

/-- An overridden function answers a listed value or its default. -/
theorem override_cases {α β : Type} [BEq α] (ov : List (α × β)) (dflt : α → β) (a : α) :
    (∃ p ∈ ov, override ov dflt a = p.2) ∨ override ov dflt a = dflt a := by
  unfold override
  induction ov with
  | nil => exact .inr rfl
  | cons p t ih =>
    rw [List.lookup_cons]
    split
    · exact .inl ⟨p, List.mem_cons_self, rfl⟩
    · exact ih.imp_left fun ⟨q, hq, he⟩ => ⟨q, List.mem_cons_of_mem p hq, he⟩

/-- The default value is a remainder modulo 255. -/
theorem plasmaDefault_le (c : Cfg) (f y x : Nat) : plasmaDefault c f y x ≤ 254 :=
  Nat.le_of_lt_succ (Nat.mod_lt _ (by omega))

theorem plasmaVal_le {c : Cfg} (h : ∀ o ∈ c.plasmaOv, o.2 ≤ 254) (f y x : Nat) : plasmaVal c f y x ≤ 254 := by
  unfold plasmaVal
  obtain ⟨o, ho, he⟩ | he := override_cases c.plasmaOv (fun k => plasmaDefault c k.1 k.2.1 k.2.2) (f, y, x)
  · rw [he]
    exact h o ho
  · rw [he]
    exact plasmaDefault_le c f y x

/-- Modulo 256, to take 1 away is to add 255; 0 stores 255. -/
theorem toNat_checkerValue (f y x : Nat) :
    (checkerValue f y x).toNat = (((y + f / 2) ^^^ (x + f / 2)) + 255) % 256 := by
  unfold checkerValue
  rw [BitVec.toNat_ofInt]
  omega

theorem toNat_checkerValue_lowByte (f y x : Nat) :
    (checkerValue f y x).toNat = ((((y + f / 2) % 256) ^^^ ((x + f / 2) % 256)) + 255) % 256 := by
  have hlow := Nat.xor_mod_two_pow (a := y + f / 2) (b := x + f / 2) (n := 8)
  rw [toNat_checkerValue, ← Nat.mod_add_mod, show (256 : Nat) = 2 ^ 8 from rfl, ← hlow]

theorem cell_checkerUnit_same (f : Nat) (c : Cfg) (y x : Nat) (m : Memory 8) :
    cell (checkerUnit f c y x m) (cellAddr c y x) = (checkerValue f y x).toNat :=
  congrArg BitVec.toNat (Memory.read_write_same m _ _)

theorem read_checkerUnit_other (f : Nat) {c : Cfg} {y x b : Nat} (m : Memory 8) (h : b ≠ cellAddr c y x) :
    Memory.read (checkerUnit f c y x m) b = Memory.read m b :=
  Memory.read_write_other m h _

end Sys2Proof.Machine
end

section
/-! PROOF. The statements about the fractal, the plasma and the checkerboard (43_gen_fractal_plasma_checker.md). -/

namespace Sys2Proof.Machine

/-- Settles O26: the unit is one store, of the exclusive or less 1 cut to 8 bits, and the low 8 bits of an exclusive or are those
of its operands. -/
theorem checkerWritesOneCell : Obligations.CheckerWritesOneCell := by
  unfold Obligations.CheckerWritesOneCell
  intro a s hok
  refine ⟨onBackground (checkerUnit s.frame.toNat) s, exec_bgChecker a hok, rfl, ?_⟩
  dsimp only
  rw [onBackground_changed, cell_checkerUnit_same]
  exact ⟨toNat_checkerValue _ _ _, toNat_checkerValue_lowByte _ _ _, fun b hb => read_checkerUnit_other _ s.bg hb⟩

/-- Settles O36, by the model's loop against the orbit. -/
theorem fractalCountsItsUpdates : Obligations.FractalCountsItsUpdates := by
  unfold Obligations.FractalCountsItsUpdates
  intro zr zi cr ci
  exact ⟨frIter_le zr zi cr ci, fun k hk => not_escaped_of_lt_frLoop cr ci hk, fun h => escaped_of_frLoop_lt cr ci h⟩

/-- Settles O35: at even coordinates the unit is a block fill, elsewhere it is the identity. -/
theorem fractalFillsItsBlock : Obligations.FractalFillsItsBlock := by
  unfold Obligations.FractalFillsItsBlock
  intro a s hok
  refine ⟨onBackground (fractalUnit s.frame.toNat) s, exec_bgFractal a hok, rfl, ?_⟩
  refine ⟨frIter_le _ _ _ _, fun hodd => onBackground_eq_self (fractalUnit_of_odd hodd _ _ _), fun hy hx => ?_⟩
  rw [onBackground_changed, fractalUnit_of_even hy hx]
  exact ⟨fun y' x' hy' hx' => cell_blockFill s.cfg s.bg _ _ 1 (frValue_le _ _ _ _) hy' hx',
    fun b hb => read_blockFill_outside s.cfg s.bg _ _ 2 _ hb⟩

/-- Settles O37: at multiples of 4 the unit is a block fill, elsewhere it is the identity; the value is a listed one or a
remainder modulo 255. -/
theorem plasmaFillsItsBlock : Obligations.PlasmaFillsItsBlock := by
  unfold Obligations.PlasmaFillsItsBlock
  intro a s hok hov
  have hv := plasmaVal_le hov s.frame.toNat (genRow s) s.col.toNat
  refine ⟨onBackground (plasmaUnit s.frame.toNat) s, exec_bgPlasma a hok, rfl, ?_⟩
  refine ⟨hv, fun hoff => onBackground_eq_self (plasmaUnit_of_not_multiple hoff _ _ _), fun hy hx => ?_⟩
  rw [onBackground_changed, plasmaUnit_of_multiple hy hx]
  exact ⟨fun y' x' hy' hx' => cell_blockFill s.cfg s.bg _ _ 3 (by omega) hy' hx',
    fun b hb => read_blockFill_outside s.cfg s.bg _ _ 4 _ hb⟩

end Sys2Proof.Machine
end

section
/-! SUPPORT. The foreground's drawing operations (44_gen_wireframe_text.md): the cells a glyph sets, the pen of a string, the
active events, the cells the edges of a shape pass through, and what the rows `WIRE_CUBE` and `WIRE_GEM` run. -/

namespace Sys2Proof.Machine

/-! ### The empty selectors (44_gen_wireframe_text.md R191, 45_compositor_handoff.md R232) -/

theorem exec_bgNone (a : BgArgs) (s : State) : exec (.bgNone a) s = .next s := rfl

theorem exec_wireNone (a : WireArgs) (s : State) : exec (.wireNone a) s = .next s := rfl

/-! ### Drawings of one value

Glyphs, lines, triangles and shapes each write one value to the cells they cover and leave every other cell. -/

/-- A drawing leaves the value in a cell where it covers the cell, else what the cell held. -/
def Marks (v : Byte) (a : Nat) (covered : Prop) (m m' : Memory 8) : Prop :=
  (covered → Memory.read m' a = v) ∧ (¬ covered → Memory.read m' a = Memory.read m a)

theorem Marks.congr {v : Byte} {a : Nat} {P Q : Prop} {m m' : Memory 8} (h : Marks v a P m m') (hPQ : P ↔ Q) :
    Marks v a Q m m' :=
  ⟨fun hQ => h.1 (hPQ.2 hQ), fun hQ => h.2 (mt hPQ.1 hQ)⟩

/-- Of two drawings in a row the later one overwrites, but with the same value. -/
theorem Marks.trans {v : Byte} {a : Nat} {P Q : Prop} {m m' m'' : Memory 8} (h : Marks v a P m m') (h' : Marks v a Q m' m'') :
    Marks v a (P ∨ Q) m m'' := by
  by_cases hQ : Q
  · exact ⟨fun _ => h'.1 hQ, fun hno => absurd (.inr hQ) hno⟩
  · unfold Marks
    rw [h'.2 hQ]
    exact ⟨fun hor => h.1 (hor.resolve_right hQ), fun hno => h.2 fun hP => hno (.inl hP)⟩

/-- A list of drawings covers what its members cover. -/
theorem marks_foldl {α : Type} {v : Byte} {a : Nat} {covers : α → Prop} (draw : Memory 8 → α → Memory 8)
    (hdraw : ∀ m i, Marks v a (covers i) m (draw m i)) :
    ∀ (l : List α) (m : Memory 8), Marks v a (∃ i ∈ l, covers i) m (l.foldl draw m)
  | [], _ => ⟨fun ⟨_, hi, _⟩ => absurd hi List.not_mem_nil, fun _ => rfl⟩
  | i :: t, m => ((hdraw m i).trans (marks_foldl draw hdraw t (draw m i))).congr (List.exists_mem_cons_iff _ _ _).symm

theorem marks_clipWrites (c : Cfg) (v : Byte) (pts : List (Int × Int)) (m : Memory 8) {y x : Nat} (hy : y < c.H)
    (hx : x < c.W) : Marks v (cellAddr c y x) (((y : Int), (x : Int)) ∈ pts) m (clipWrites c v pts m) := by
  unfold Marks
  rw [read_clipWrites c v pts m hy hx]
  exact ⟨fun h => if_pos h, fun h => if_neg h⟩

/-! ### Glyphs (44_gen_wireframe_text.md R224, R225) -/

/-- A block's points are the offsets below its side from its corner, which may lie anywhere. -/
theorem mem_blockPoints_iff_offset {y x y' x' : Int} {k : Nat} :
    (y', x') ∈ blockPoints y x k ↔ ∃ dy dx : Nat, dy < k ∧ dx < k ∧ y' = y + dy ∧ x' = x + dx := by
  simp only [blockPoints, List.mem_flatMap, List.mem_map, List.mem_range, Prod.mk.injEq]
  constructor
  · rintro ⟨dy, hdy, dx, hdx, hy, hx⟩
    exact ⟨dy, dx, hdy, hdx, hy.symm, hx.symm⟩
  · rintro ⟨dy, dx, hdy, hdx, hy, hx⟩
    exact ⟨dy, hdy, dx, hdx, hy.symm, hx.symm⟩

theorem mem_glyphPoints {mask : BitVec 15} {x0 y0 y x : Int} {scale : Nat} :
    (y, x) ∈ glyphPoints mask x0 y0 scale ↔ onGlyph mask x0 y0 scale y x := by
  simp only [glyphPoints, onGlyph, List.mem_flatMap, List.mem_range, List.mem_ite_nil_right,
    mem_blockPoints_iff_offset]
  constructor
  · rintro ⟨r, hr, c, hc, hbit, dy, dx, hdy, hdx, hy, hx⟩
    exact ⟨r, c, dy, dx, hr, hc, hdy, hdx, hbit, by omega, by omega⟩
  · rintro ⟨r, c, dy, dx, hr, hc, hdy, hdx, hbit, hy, hx⟩
    exact ⟨r, hr, c, hc, hbit, dy, dx, hdy, hdx, by omega, by omega⟩

theorem marks_glyphBlit (c : Cfg) (mask : BitVec 15) (x0 y0 : Int) (scale : Nat) (inten : Byte) (m : Memory 8) {y x : Nat}
    (hy : y < c.H) (hx : x < c.W) :
    Marks inten (cellAddr c y x) (onGlyph mask x0 y0 scale y x) m (glyphBlit c mask x0 y0 scale inten m) :=
  (marks_clipWrites c inten _ m hy hx).congr mem_glyphPoints

/-! ### Strings (44_gen_wireframe_text.md R223) -/

theorem drawChars_cons_newline (c : Cfg) (ev : TextEvent) (l : List Char) (x y : Int) (m : Memory 8) :
    drawChars c ev ('\n' :: l) x y m = drawChars c ev l ev.x (y + 6 * ev.scale) m :=
  if_pos rfl

theorem drawChars_cons_glyph (c : Cfg) (ev : TextEvent) {ch : Char} (h : ch ≠ '\n') (l : List Char) (x y : Int)
    (m : Memory 8) :
    drawChars c ev (ch :: l) x y m =
      drawChars c ev l (x + 4 * ev.scale) y (glyphBlit c (fontMask c ch) x y ev.scale ev.inten m) :=
  if_neg h

/-- The pen of a string without a newline, from its `k`-th place on: `k` is where the counting of the rest begins. -/
theorem drawChars_eq_foldl_zipIdx (c : Cfg) (ev : TextEvent) (x y : Int) : ∀ (l : List Char) (k : Nat) (m : Memory 8),
    '\n' ∉ l → drawChars c ev l (x + 4 * ev.scale * k) y m =
      (l.zipIdx k).foldl (fun m p => glyphBlit c (fontMask c p.1) (x + 4 * ev.scale * p.2) y ev.scale ev.inten m) m
  | [], _, _, _ => rfl
  | ch :: t, k, m, h => by
    obtain ⟨hch, ht⟩ := List.ne_and_not_mem_of_not_mem_cons h
    have hpen : x + 4 * ev.scale * k + 4 * ev.scale = x + 4 * ev.scale * (k + 1 : Nat) := by push_cast; ring
    rw [drawChars_cons_glyph c ev hch.symm, hpen, drawChars_eq_foldl_zipIdx c ev x y t (k + 1) _ ht, List.zipIdx_cons,
      List.foldl_cons]

theorem drawChars_append_newline (c : Cfg) (ev : TextEvent) (l' : List Char) (y : Int) :
    ∀ (l : List Char) (x : Int) (m : Memory 8), '\n' ∉ l →
      drawChars c ev (l ++ '\n' :: l') x y m = drawChars c ev l' ev.x (y + 6 * ev.scale) (drawChars c ev l x y m)
  | [], x, m, _ => drawChars_cons_newline c ev l' x y m
  | ch :: t, x, m, h => by
    obtain ⟨hch, ht⟩ := List.ne_and_not_mem_of_not_mem_cons h
    rw [List.cons_append, drawChars_cons_glyph c ev hch.symm, drawChars_cons_glyph c ev hch.symm,
      drawChars_append_newline c ev l' y t _ _ ht]

/-! ### Events (44_gen_wireframe_text.md R220, R221) -/

theorem eventActive_iff (ev : TextEvent) (e : Effect) (f : Nat) : eventActive ev e f = true ↔
    (∃ f0 f1, ev.kind = .window f0 f1 ∧ f0 ≤ f ∧ f < f1) ∨ (ev.kind = .terminal ∧ e = .theEnd) := by
  obtain ⟨kind, x, y, scale, inten, str⟩ := ev
  cases kind with
  | window f0 f1 => simp [eventActive, and_assoc]
  | terminal => simp [eventActive]

theorem drawEvents_eq_foldl (c : Cfg) (e : Effect) (f : Nat) (m : Memory 8) :
    drawEvents c e f m = c.textEvents.foldl (fun m ev => if eventActive ev e f then drawString c m ev else m) m := by
  rw [drawEvents, List.foldl_filter]

theorem drawEvents_of_none_active {c : Cfg} {e : Effect} {f : Nat} (h : ∀ ev ∈ c.textEvents, eventActive ev e f = false)
    (m : Memory 8) : drawEvents c e f m = m := by
  have hnone : (c.textEvents.filter fun ev => eventActive ev e f) = [] :=
    List.filter_eq_nil_iff.2 fun ev hev => by simp [h ev hev]
  rw [drawEvents, hnone, List.foldl_nil]

theorem textUnit_of_first {s : State} (h : firstDispatch s = true) (e : Effect) :
    textUnit e s = { s with fg := drawEvents s.cfg e s.frame.toNat s.fg } :=
  if_pos h

theorem textUnit_of_not_first {s : State} (h : firstDispatch s = false) (e : Effect) : textUnit e s = s :=
  if_neg (Bool.eq_false_iff.1 h)

/-! ### Wire shapes (44_gen_wireframe_text.md R190, R194, R202) -/

/-- The screen point of a vertex of a triangle. -/
def screenPoint (c : Cfg) (geo : Memory 32) (gem : Bool) (f tri v : Nat) : Int × Int := project c (geoVertex geo gem tri v) f

/-- A point lies on one of the three edges of a triangle. -/
def onTriangle (c : Cfg) (geo : Memory 32) (gem : Bool) (f tri : Nat) (pt : Int × Int) : Prop :=
  ∃ k, k < 3 ∧ pt ∈ linePoints (screenPoint c geo gem f tri k) (screenPoint c geo gem f tri ((k + 1) % 3))

theorem onEdge_iff (s : State) (gem : Bool) (pt : Int × Int) :
    onEdge s gem pt ↔ ∃ tri ∈ List.range (shapeTriangles gem), onTriangle s.cfg s.geo gem s.frame.toNat tri pt := by
  simp only [List.mem_range]
  rfl

theorem marks_drawLine (c : Cfg) (v : Byte) (p q : Int × Int) (m : Memory 8) {y x : Nat} (hy : y < c.H) (hx : x < c.W) :
    Marks v (cellAddr c y x) (((x : Int), (y : Int)) ∈ linePoints p q) m (drawLine c v p q m) :=
  (marks_clipWrites c v _ m hy hx).congr (List.mem_map_of_injective (a := ((x : Int), (y : Int))) Prod.swap_injective)

/-- A triangle is its three edges drawn in order. -/
theorem drawTriangle_eq_foldl (c : Cfg) (geo : Memory 32) (gem : Bool) (f tri : Nat) (m : Memory 8) :
    drawTriangle c geo gem f tri m = [0, 1, 2].foldl (fun m k =>
      drawLine c c.wireInt (screenPoint c geo gem f tri k) (screenPoint c geo gem f tri ((k + 1) % 3)) m) m := by
  simp only [List.foldl_cons, List.foldl_nil, drawTriangle, screenPoint, Nat.zero_add, Nat.reduceAdd, Nat.reduceMod]

theorem marks_drawTriangle (c : Cfg) (geo : Memory 32) (gem : Bool) (f tri : Nat) (m : Memory 8) {y x : Nat} (hy : y < c.H)
    (hx : x < c.W) :
    Marks c.wireInt (cellAddr c y x) (onTriangle c geo gem f tri ((x : Int), (y : Int))) m
      (drawTriangle c geo gem f tri m) := by
  rw [drawTriangle_eq_foldl]
  refine (marks_foldl _ (fun m k => marks_drawLine c _ _ _ m hy hx) _ m).congr (exists_congr fun k => and_congr_left' ?_)
  show k ∈ List.range 3 ↔ k < 3
  exact List.mem_range

theorem marks_drawShape (c : Cfg) (geo : Memory 32) (gem : Bool) (f : Nat) (m : Memory 8) {y x : Nat} (hy : y < c.H)
    (hx : x < c.W) :
    Marks c.wireInt (cellAddr c y x)
      (∃ tri ∈ List.range (shapeTriangles gem), onTriangle c geo gem f tri ((x : Int), (y : Int))) m
      (drawShape c geo gem f m) :=
  marks_foldl _ (fun m tri => marks_drawTriangle c geo gem f tri m hy hx) _ m

theorem read_drawTriangle_outside (c : Cfg) (geo : Memory 32) (gem : Bool) (f tri : Nat) (m : Memory 8) {b : Nat}
    (hb : c.H * c.W ≤ b) : Memory.read (drawTriangle c geo gem f tri m) b = Memory.read m b := by
  rw [drawTriangle_eq_foldl]
  exact foldl_keeps (P := fun m' => Memory.read m' b = Memory.read m b) _
    (fun m' k h => (read_clipWrites_outside c _ _ m' hb).trans h) _ m rfl

theorem read_drawShape_outside (c : Cfg) (geo : Memory 32) (gem : Bool) (f : Nat) (m : Memory 8) {b : Nat}
    (hb : c.H * c.W ≤ b) : Memory.read (drawShape c geo gem f m) b = Memory.read m b :=
  foldl_keeps (P := fun m' => Memory.read m' b = Memory.read m b) _
    (fun m' tri h => (read_drawTriangle_outside c geo gem f tri m' hb).trans h) _ m rfl

theorem cell_fgFade (c : Cfg) (m : Memory 8) {a : Nat} (ha : a < c.H * c.W) : cell (fgFade c m) a = cell m a / 2 := by
  unfold cell
  rw [fgFade, Memory.read_sweep, if_pos ha, halveCell, BitVec.toNat_ushiftRight, Nat.shiftRight_one]

theorem read_fgFade_outside (c : Cfg) (m : Memory 8) {b : Nat} (hb : c.H * c.W ≤ b) :
    Memory.read (fgFade c m) b = Memory.read m b := by
  rw [fgFade, Memory.read_sweep, if_neg (Nat.not_lt.2 hb)]

theorem exec_wireInstr {w : WireSel} (hw : w ≠ .none) (a : WireArgs) (s : State) :
    exec (wireInstr w a) s = .next (wireRedraw (decide (w = .gem)) s) := by
  cases w with
  | none => exact absurd rfl hw
  | cube => rfl
  | gem => rfl

theorem wireRedraw_of_first {s : State} (h : firstDispatch s = true) (gem : Bool) :
    wireRedraw gem s = { s with fg := drawShape s.cfg s.geo gem s.frame.toNat (fgFade s.cfg s.fg) } :=
  if_pos h

theorem wireRedraw_of_not_first {s : State} (h : firstDispatch s = false) (gem : Bool) : wireRedraw gem s = s :=
  if_neg (Bool.eq_false_iff.1 h)

end Sys2Proof.Machine
end

section
/-! SUPPORT. The loop of `LINE` (44_gen_wireframe_text.md R203): along the longer axis it moves at every turn, along the other
the error term keeps it between two bounds, so that it stands on the end point after as many turns as the longer axis has cells.
The two axes are alike: exchanging them turns the error term's sign. -/

namespace Sys2Proof.Machine

/-- The direction of a move from a coordinate toward another, -1 where they are equal. -/
def lineSign (u v : Int) : Int := if u < v then 1 else -1

theorem add_lineSign_mul_natAbs (u v : Int) : u + lineSign u v * ((v - u).natAbs : Int) = v := by
  unfold lineSign
  split
  · omega
  · omega

/-- One turn, in the words of R203: a move in x where `dy ≤ 2 * err`, a move in y where `2 * err ≤ dx`. -/
theorem lineLoop_succ (p q : Int × Int) (n : Nat) :
    lineLoop p q (n + 1) =
      let r := lineLoop p q n
      ((if lineDy p q ≤ 2 * r.2 then r.1.1 + lineSign p.1 q.1 else r.1.1,
        if 2 * r.2 ≤ lineDx p q then r.1.2 + lineSign p.2 q.2 else r.1.2),
        r.2 + (if lineDy p q ≤ 2 * r.2 then lineDy p q else 0) + (if 2 * r.2 ≤ lineDx p q then lineDx p q else 0)) :=
  rfl

/-! ### The axes exchanged -/

theorem lineDx_swap (p q : Int × Int) : lineDx p.swap q.swap = -lineDy p q := (neg_neg _).symm

theorem lineDy_swap (p q : Int × Int) : lineDy p.swap q.swap = -lineDx p q := rfl

theorem lineLoop_swap (p q : Int × Int) (n : Nat) :
    lineLoop p.swap q.swap n = ((lineLoop p q n).1.swap, -(lineLoop p q n).2) := by
  induction n with
  | zero =>
    simp only [lineLoop, lineDx_swap, lineDy_swap, Prod.mk.injEq, true_and]
    ring
  | succ n ih =>
    have hx : -lineDx p q ≤ 2 * -(lineLoop p q n).2 ↔ 2 * (lineLoop p q n).2 ≤ lineDx p q := by omega
    have hy : 2 * -(lineLoop p q n).2 ≤ -lineDy p q ↔ lineDy p q ≤ 2 * (lineLoop p q n).2 := by omega
    simp only [lineLoop_succ, ih, lineDx_swap, lineDy_swap, hx, hy, Prod.fst_swap, Prod.snd_swap, Prod.swap_prod_mk,
      Prod.mk.injEq, true_and]
    split <;> split <;> ring

/-! ### The longer axis in x -/

/-- After `n` turns the loop has moved `n` times in x and `b` times in y, and its error term lies between its two bounds. -/
structure LineTurn (p q : Int × Int) (n b : Nat) : Prop where
  x : (lineLoop p q n).1.1 = p.1 + lineSign p.1 q.1 * n
  y : (lineLoop p q n).1.2 = p.2 + lineSign p.2 q.2 * b
  err : (lineLoop p q n).2 = lineDx p q * (b + 1) + lineDy p q * (n + 1)
  lower : lineDy p q ≤ 2 * (lineLoop p q n).2
  upper : 2 * (lineLoop p q n).2 ≤ 3 * lineDx p q + 2 * lineDy p q

theorem lineTurn_zero {p q : Int × Int} (h : -lineDy p q ≤ lineDx p q) : LineTurn p q 0 0 := by
  have hdy : lineDy p q ≤ 0 := neg_nonpos.2 (abs_nonneg _)
  have herr : (lineLoop p q 0).2 = lineDx p q + lineDy p q := rfl
  refine ⟨by simp [lineLoop], by simp [lineLoop], by simp [herr], by omega, by omega⟩

/-- The error term is never below its lower bound, so every turn moves in x; a turn that moves in y too brings it up again. -/
theorem LineTurn.succ {p q : Int × Int} {n b : Nat} (h : LineTurn p q n b) (hxy : -lineDy p q ≤ lineDx p q) :
    ∃ b', LineTurn p q (n + 1) b' := by
  obtain ⟨hx, hy, herr, hlower, hupper⟩ := h
  have hdy : lineDy p q ≤ 0 := neg_nonpos.2 (abs_nonneg _)
  have hnext := lineLoop_succ p q n
  simp only [if_pos hlower] at hnext
  by_cases hgo : 2 * (lineLoop p q n).2 ≤ lineDx p q
  · simp only [if_pos hgo] at hnext
    refine ⟨b + 1, ?_, ?_, ?_, ?_, ?_⟩ <;> rw [hnext] <;> dsimp only
    · rw [hx]; push_cast; ring
    · rw [hy]; push_cast; ring
    · rw [herr]; push_cast; ring
    · omega
    · omega
  · simp only [if_neg hgo, add_zero] at hnext
    refine ⟨b, ?_, ?_, ?_, ?_, ?_⟩ <;> rw [hnext] <;> dsimp only
    · rw [hx]; push_cast; ring
    · rw [hy]
    · rw [herr]; push_cast; ring
    · omega
    · omega

theorem exists_lineTurn {p q : Int × Int} (h : -lineDy p q ≤ lineDx p q) (n : Nat) : ∃ b, LineTurn p q n b := by
  induction n with
  | zero => exact ⟨0, lineTurn_zero h⟩
  | succ n ih =>
    obtain ⟨b, hb⟩ := ih
    exact hb.succ h

theorem lineDx_eq_natAbs (p q : Int × Int) : lineDx p q = ((q.1 - p.1).natAbs : Int) := (Int.natCast_natAbs _).symm

theorem lineDy_eq_natAbs (p q : Int × Int) : lineDy p q = -((q.2 - p.2).natAbs : Int) :=
  congrArg Neg.neg (Int.natCast_natAbs _).symm

/-- After as many turns as the longer axis has cells the bounds leave the other axis no choice. -/
theorem LineTurn.moves_y {p q : Int × Int} {b : Nat} (h : LineTurn p q (q.1 - p.1).natAbs b)
    (hpos : 0 < lineDx p q) : (b : Int) = (q.2 - p.2).natAbs := by
  have hdy := lineDy_eq_natAbs p q
  obtain ⟨-, -, herr, hlower, hupper⟩ := h
  rw [← lineDx_eq_natAbs] at herr
  have hval : (lineLoop p q (q.1 - p.1).natAbs).2 = lineDx p q * (b + 1 + lineDy p q) + lineDy p q := by
    rw [herr]; ring
  have hmost : (b : Int) + 1 + lineDy p q ≤ 1 := by
    by_contra hlt
    have := mul_le_mul_of_nonneg_left (show 2 ≤ (b : Int) + 1 + lineDy p q by omega) hpos.le
    omega
  have hleast : lineDy p q = 0 ∨ 0 < (b : Int) + 1 + lineDy p q := by
    refine or_iff_not_imp_left.2 fun hne => ?_
    by_contra hnot
    have := mul_nonpos_of_nonneg_of_nonpos hpos.le (not_lt.1 hnot)
    omega
  omega

theorem lineLoop_end_of_wide {p q : Int × Int} (h : (q.2 - p.2).natAbs ≤ (q.1 - p.1).natAbs) :
    (lineLoop p q (q.1 - p.1).natAbs).1 = q ∧ ∀ k, k < (q.1 - p.1).natAbs → (lineLoop p q k).1 ≠ q := by
  have hdx := lineDx_eq_natAbs p q
  have hxy : -lineDy p q ≤ lineDx p q := by rw [hdx, lineDy_eq_natAbs]; omega
  have hendx := add_lineSign_mul_natAbs p.1 q.1
  have hendy := add_lineSign_mul_natAbs p.2 q.2
  constructor
  · rcases Nat.eq_zero_or_pos (q.1 - p.1).natAbs with hzero | hpos
    · rw [hzero]
      exact Prod.ext (show p.1 = q.1 by omega) (show p.2 = q.2 by omega)
    · obtain ⟨b, hb⟩ := exists_lineTurn hxy (q.1 - p.1).natAbs
      refine Prod.ext (hb.x.trans hendx) ?_
      rw [hb.y, hb.moves_y (by omega), hendy]
  · intro k hk heq
    obtain ⟨b, hb⟩ := exists_lineTurn hxy k
    have hx : p.1 + lineSign p.1 q.1 * k = q.1 := hb.x.symm.trans (congrArg Prod.fst heq)
    unfold lineSign at hx
    split at hx <;> omega

/-- The loop stands on the end point after `max(abs(x1 - x0), abs(y1 - y0))` turns and not before. -/
theorem lineLoop_end (p q : Int × Int) :
    (lineLoop p q (max (q.1 - p.1).natAbs (q.2 - p.2).natAbs)).1 = q ∧
      ∀ k, k < max (q.1 - p.1).natAbs (q.2 - p.2).natAbs → (lineLoop p q k).1 ≠ q := by
  rcases Nat.le_total (q.2 - p.2).natAbs (q.1 - p.1).natAbs with hwide | htall
  · rw [max_eq_left hwide]
    exact lineLoop_end_of_wide hwide
  · rw [max_eq_right htall]
    have hswapped := lineLoop_end_of_wide (p := p.swap) (q := q.swap) htall
    simp only [lineLoop_swap, Prod.swap_inj, ne_eq] at hswapped
    exact hswapped

/-! ### The model's walk -/

theorem lineWalk_succ (dx dy sx sy : Int) (left : Nat) {z q : Int × Int} (h : z ≠ q) (err : Int) :
    lineWalk q.1 q.2 dx dy sx sy (left + 1) z.1 z.2 err =
      z :: lineWalk q.1 q.2 dx dy sx sy left (if dy ≤ 2 * err then z.1 + sx else z.1)
        (if 2 * err ≤ dx then z.2 + sy else z.2)
        (err + (if dy ≤ 2 * err then dy else 0) + (if 2 * err ≤ dx then dx else 0)) := by
  rw [lineWalk, if_neg (mt Prod.ext_iff.2 h)]
  simp only [decide_eq_true_eq]

/-- The walk from turn `k` of the loop on, while the loop has not reached the end point. -/
theorem lineWalk_eq_map (p q : Int × Int) : ∀ (left k : Nat), (∀ j, j < left → (lineLoop p q (k + j)).1 ≠ q) →
    lineWalk q.1 q.2 (lineDx p q) (lineDy p q) (lineSign p.1 q.1) (lineSign p.2 q.2) left (lineLoop p q k).1.1
        (lineLoop p q k).1.2 (lineLoop p q k).2 =
      (List.range (left + 1)).map fun j => (lineLoop p q (k + j)).1
  | 0, k, _ => rfl
  | left + 1, k, h => by
    have hrest := lineWalk_eq_map p q left (k + 1) fun j hj => by
      rw [Nat.succ_add_eq_add_succ]
      exact h (j + 1) (by omega)
    rw [lineWalk_succ _ _ _ _ _ (z := (lineLoop p q k).1) (h 0 (Nat.succ_pos left)), List.range_succ_eq_map,
      List.map_cons, List.map_map]
    simp only [Nat.succ_add_eq_add_succ] at hrest
    exact congrArg (List.cons _) hrest

theorem linePoints_eq_map (p q : Int × Int) :
    linePoints p q =
      (List.range (max (q.1 - p.1).natAbs (q.2 - p.2).natAbs + 1)).map fun k => (lineLoop p q k).1 := by
  have hwalk := lineWalk_eq_map p q _ 0 fun j hj => by rw [Nat.zero_add]; exact (lineLoop_end p q).2 j hj
  simp only [Nat.zero_add] at hwalk
  rw [← hwalk, lineDx_eq_natAbs, lineDy_eq_natAbs]
  simp only [linePoints, lineLoop, lineDx_eq_natAbs, lineDy_eq_natAbs]
  rfl

end Sys2Proof.Machine
end

section
/-! SUPPORT. `TOINT` (44_gen_wireframe_text.md R201): the order of the words by their keys, the size of a magnitude by its
exponent, the truncation of a finite word, and the four cases of the saturation. -/

namespace Sys2Proof.Machine

/-! ### The order of the words -/

theorem f32Gt_iff {a b : F32} : f32Gt a b = true ↔ f32IsNaN a = false ∧ f32IsNaN b = false ∧ f32Key b < f32Key a := by
  simp [f32Gt, and_assoc]

/-- Where neither word is a NaN the comparison is that of the keys. -/
theorem f32Gt_eq_false_iff {a b : F32} (ha : f32IsNaN a = false) (hb : f32IsNaN b = false) :
    f32Gt a b = false ↔ f32Key a ≤ f32Key b := by
  simp [f32Gt, ha, hb]

theorem f32Key_of_neg {x : F32} (h : f32Neg x = true) : f32Key x = -(f32Mag x : Int) := if_pos h

theorem f32Key_of_not_neg {x : F32} (h : f32Neg x = false) : f32Key x = f32Mag x := if_neg (Bool.eq_false_iff.1 h)

/-! ### Magnitudes and truncation (00_scope.md R13) -/

/-- A magnitude is below the power of 2 above its exponent. -/
theorem f32Units_lt (x : F32) : f32Units x < 2 ^ (23 + f32Mag x / 2 ^ 23) := by
  have hm : f32Mag x % 2 ^ 23 < 2 ^ 23 := Nat.mod_lt _ (by decide)
  unfold f32Units
  generalize f32Mag x / 2 ^ 23 = e
  cases e with
  | zero => simpa using hm
  | succ e =>
    have hpos : 0 < 2 ^ e := Nat.two_pow_pos e
    simp only [Nat.add_one_ne_zero, if_false, Nat.add_sub_cancel]
    calc (2 ^ 23 + f32Mag x % 2 ^ 23) * 2 ^ e < (2 ^ 23 + 2 ^ 23) * 2 ^ e := Nat.mul_lt_mul_of_pos_right (by omega) hpos
      _ = 2 ^ (23 + (e + 1)) := by ring

theorem f32Units_congr {x y : F32} (h : f32Mag x = f32Mag y) : f32Units x = f32Units y := by
  simp only [f32Units, h]

theorem f32Trunc_of_finite {x : F32} (h : f32IsFinite x = true) :
    f32Trunc x = if f32Neg x then -((f32Units x / 2 ^ 149 : Nat) : Int) else ((f32Units x / 2 ^ 149 : Nat) : Int) := by
  have hinf : ¬ f32IsInf x = true := by
    simp only [f32IsFinite, f32IsInf, decide_eq_true_eq] at h ⊢
    omega
  rw [f32Trunc, if_neg hinf]

/-- Truncation is the quotient toward zero of the signed value. -/
theorem f32Trunc_eq_tdiv {x : F32} (h : f32IsFinite x = true) : f32Trunc x = (f32Int x).tdiv (2 ^ 149) := by
  have hquot : ((f32Units x : Nat) : Int).tdiv (2 ^ 149) = ((f32Units x / 2 ^ 149 : Nat) : Int) := by
    rw [Int.ofNat_tdiv]; rfl
  rw [f32Trunc_of_finite h, f32Int]
  split
  · rw [Int.neg_tdiv, hquot]
  · rw [hquot]

/-! ### The saturation (44_gen_wireframe_text.md R201) -/

/-- The words of 32767.0 and -32768.0. -/
def toIntMax : F32 := 0x46FFFE00#32

def toIntMin : F32 := 0xC7000000#32

theorem key_toIntMax : f32Key toIntMax = 0x46FFFE00 := by decide
theorem key_toIntMin : f32Key toIntMin = -0x47000000 := by decide

theorem toInt_eq (s : F32) :
    toInt s = if f32IsNaN s = true then 0 else
      f32Trunc (if f32Gt (if f32Gt toIntMin s then toIntMin else s) toIntMax then toIntMax
        else if f32Gt toIntMin s then toIntMin else s) :=
  rfl

theorem trunc_toIntMax : f32Trunc toIntMax = 32767 := by decide +kernel
theorem trunc_toIntMin : f32Trunc toIntMin = -32768 := by decide +kernel

theorem toInt_of_nan {s : F32} (h : f32IsNaN s = true) : toInt s = 0 := if_pos h

theorem toInt_of_above {s : F32} (h : f32Gt s toIntMax = true) : toInt s = 32767 := by
  obtain ⟨hnan, -, hkey⟩ := f32Gt_iff.1 h
  have hlow : f32Gt toIntMin s = false := by
    rw [f32Gt_eq_false_iff (by decide) hnan]
    rw [key_toIntMax] at hkey
    rw [key_toIntMin]
    omega
  rw [toInt_eq, hnan, hlow]
  simp only [Bool.false_eq_true, if_false, h, if_true, trunc_toIntMax]

theorem toInt_of_below {s : F32} (h : f32Gt toIntMin s = true) : toInt s = -32768 := by
  obtain ⟨-, hnan, -⟩ := f32Gt_iff.1 h
  have hhigh : f32Gt toIntMin toIntMax = false := by decide
  rw [toInt_eq, hnan, h]
  simp only [Bool.false_eq_true, if_false, if_true, hhigh, trunc_toIntMin]

theorem toInt_of_between {s : F32} (hnan : f32IsNaN s = false) (hmax : f32Gt s toIntMax = false)
    (hmin : f32Gt toIntMin s = false) : toInt s = f32Trunc s := by
  rw [toInt_eq, hnan, hmin]
  simp only [Bool.false_eq_true, if_false, hmax]

/-- Between the bounds a word's magnitude is at most that of -32768.0, and less where the word is not negative. -/
theorem mag_of_between {s : F32} (hnan : f32IsNaN s = false) (hmax : f32Gt s toIntMax = false)
    (hmin : f32Gt toIntMin s = false) : f32Mag s < 0x47000000 ∨ f32Mag s = 0x47000000 ∧ f32Neg s = true := by
  rw [f32Gt_eq_false_iff hnan (by decide), key_toIntMax] at hmax
  rw [f32Gt_eq_false_iff (by decide) hnan, key_toIntMin] at hmin
  cases hneg : f32Neg s with
  | false =>
    rw [f32Key_of_not_neg hneg] at hmax
    omega
  | true =>
    rw [f32Key_of_neg hneg] at hmin
    simp only [and_true]
    omega

theorem finite_of_between {s : F32} (hnan : f32IsNaN s = false) (hmax : f32Gt s toIntMax = false)
    (hmin : f32Gt toIntMin s = false) : f32IsFinite s = true := by
  have hmag := mag_of_between hnan hmax hmin
  exact decide_eq_true (show f32Mag s < 0x7F800000 by omega)

/-- Below the magnitude of 32768.0 the quotient is below 32768. -/
theorem units_div_lt {s : F32} (h : f32Mag s < 0x47000000) : f32Units s / 2 ^ 149 < 32768 := by
  have hexp : 23 + f32Mag s / 2 ^ 23 ≤ 164 := by omega
  rw [Nat.div_lt_iff_lt_mul (Nat.two_pow_pos 149)]
  calc f32Units s < 2 ^ (23 + f32Mag s / 2 ^ 23) := f32Units_lt s
    _ ≤ 2 ^ 164 := Nat.pow_le_pow_right (by decide) hexp
    _ = 32768 * 2 ^ 149 := by norm_num

theorem toInt_range_of_between {s : F32} (hnan : f32IsNaN s = false) (hmax : f32Gt s toIntMax = false)
    (hmin : f32Gt toIntMin s = false) : -32768 ≤ toInt s ∧ toInt s ≤ 32767 := by
  rw [toInt_of_between hnan hmax hmin]
  obtain hless | ⟨hbound, hneg⟩ := mag_of_between hnan hmax hmin
  · have hquot := units_div_lt hless
    rw [f32Trunc_of_finite (finite_of_between hnan hmax hmin)]
    split <;> omega
  · have hunits : f32Units s = f32Units toIntMin := f32Units_congr (hbound.trans (by decide))
    have hsame : f32Trunc s = f32Trunc toIntMin := by
      rw [f32Trunc_of_finite (finite_of_between hnan hmax hmin), f32Trunc_of_finite (by decide), hunits, hneg]
      rfl
    rw [hsame, trunc_toIntMin]
    omega

theorem toInt_range (s : F32) : -32768 ≤ toInt s ∧ toInt s ≤ 32767 := by
  cases hnan : f32IsNaN s with
  | true => rw [toInt_of_nan hnan]; omega
  | false =>
    cases hmax : f32Gt s toIntMax with
    | true => rw [toInt_of_above hmax]; omega
    | false =>
      cases hmin : f32Gt toIntMin s with
      | true => rw [toInt_of_below hmin]; omega
      | false => exact toInt_range_of_between hnan hmax hmin

end Sys2Proof.Machine
end

section
/-! PROOF. The statements about the empty selectors, the wire unit and the text unit (44_gen_wireframe_text.md). -/

namespace Sys2Proof.Machine

/-- Settles O25: neither arm touches the state. -/
theorem emptySelectorsChangeNothing : Obligations.EmptySelectorsChangeNothing := by
  unfold Obligations.EmptySelectorsChangeNothing
  exact ⟨exec_bgNone, exec_wireNone⟩

/-- Settles O39: the redraw is the fade, then the triangles; a cell is covered where one of their edges passes through it. -/
theorem wireRowsFadeAndRedraw : Obligations.WireRowsFadeAndRedraw := by
  unfold Obligations.WireRowsFadeAndRedraw
  intro w a s hw
  rw [exec_wireInstr hw]
  refine ⟨fun hother => by rw [wireRedraw_of_not_first hother], fun hfirst => ⟨_, rfl, wireRedraw_only _ s, ?_⟩⟩
  rw [wireRedraw_of_first hfirst]
  refine ⟨fun y x hy hx => ?_, fun b hb =>
    (read_drawShape_outside s.cfg s.geo _ _ _ hb).trans (read_fgFade_outside s.cfg s.fg hb)⟩
  obtain ⟨hon, hoff⟩ := marks_drawShape s.cfg s.geo (decide (w = .gem)) s.frame.toNat (fgFade s.cfg s.fg) hy hx
  rw [onEdge_iff]
  exact ⟨hon, fun h => (congrArg BitVec.toNat (hoff h)).trans (cell_fgFade s.cfg s.fg (cellAddr_lt hy hx))⟩

/-- Settles O40: the model's walk is the rule's loop up to the end point, where `lineLoop_end` says the loop arrives. -/
theorem lineVisitsItsPoints : Obligations.LineVisitsItsPoints := by
  unfold Obligations.LineVisitsItsPoints
  intro p q n
  exact ⟨linePoints_eq_map p q, rfl, lineLoop_end p q⟩

/-- Settles O42: the cases of the saturation, and the bound that the exponent puts on a magnitude between the bounds. -/
theorem screenCoordinateIsSixteenBit : Obligations.ScreenCoordinateIsSixteenBit := by
  unfold Obligations.ScreenCoordinateIsSixteenBit
  intro s
  obtain ⟨hlow, hhigh⟩ := toInt_range s
  refine ⟨hlow, hhigh, toInt_of_nan, toInt_of_above, toInt_of_below, fun hnan hmax hmin => ?_, f32Trunc_eq_tdiv⟩
  have hfin : f32IsFinite s = true := finite_of_between hnan hmax hmin
  exact ⟨hfin, (toInt_of_between hnan hmax hmin).trans (f32Trunc_of_finite hfin)⟩

/-- Settles O43: the points of the blit are those of the glyph's set cells. -/
theorem glyphWritesItsSetCells : Obligations.GlyphWritesItsSetCells := by
  unfold Obligations.GlyphWritesItsSetCells
  intro c mask x0 y0 scale inten m
  exact ⟨fun y x hy hx => marks_glyphBlit c mask x0 y0 scale inten m hy hx,
    fun b hb => read_clipWrites_outside c inten _ m hb⟩

/-- Settles O44: the pen by induction on the string, the events by the filter that selects them. -/
theorem stringsAreDrawnByThePen : Obligations.StringsAreDrawnByThePen := by
  unfold Obligations.StringsAreDrawnByThePen
  refine ⟨fun c ev l x y m h => ?_, fun c ev l l' x y m h => drawChars_append_newline c ev l' y l x m h,
    fun c ev m => rfl, fun e s h => ?_, eventActive_iff, fun e s hfirst => ?_⟩
  · have hpen := drawChars_eq_foldl_zipIdx c ev x y l 0 m h
    rwa [Nat.cast_zero, mul_zero, add_zero] at hpen
  · cases hd : firstDispatch s with
    | false => exact textUnit_of_not_first hd e
    | true =>
      have hidle := h.resolve_left (by simp [hd])
      rw [textUnit_of_first hd, drawEvents_of_none_active hidle]
  · rw [textUnit_of_first hfirst, drawEvents_eq_foldl]

end Sys2Proof.Machine
end

section
/-! SUPPORT. The merge and the row port (45_compositor_handoff.md): the colour word that a merge writes, where the loop stands
after it, the fields of a request word, and the record of a request after a number of word reads. -/

namespace Sys2Proof.Machine

/-! ### The merge (45_compositor_handoff.md R235, R236, 41_sequencer.md R134) -/

/-- The composite is the OR of the active palette's two entries, each index limited to 254. -/
theorem mergeColor_eq (s : State) (b g : Byte) :
    mergeColor s b g =
      Memory.read s.pal (s.palact.toNat * 256 + min b.toNat 254) ||| Memory.read s.pal (s.palact.toNat * 256 + min g.toNat 254) :=
  rfl

/-- Moving on after a merge leaves COMP as the merge wrote it. -/
@[simp] theorem afterMerge_comp (s : State) : (afterMerge s).comp = s.comp := by
  rw [afterMerge_only]

/-- The end of a row names the next scan position by its 13-bit successor. -/
theorem rowDone_eq (s : State) :
    rowDone s = { s with
      scan := s.scan + 1#13, prologueDone := false, phase := if s.scan.toNat + 1 = s.cfg.H then .boundary else .gen } := by
  have hscan : BitVec.ofNat 13 (s.scan.toNat + 1) = s.scan + 1#13 := by
    rw [BitVec.ofNat_add, BitVec.ofNat_toNat, BitVec.setWidth_eq]
  rw [← hscan]
  rfl

/-! ### The row port (30_encoding.md R101, 45_compositor_handoff.md R240, R241) -/

theorem exec_rowrd (zero : BitVec 3) (idx : BitVec 13) (s : State) :
    exec (.rowrd zero idx) s = .next (rowWords s.cfg.W (rowOpen (encodeRow zero idx) s)) := rfl

@[simp] theorem encodeRow_zero (zero : BitVec 3) (idx : BitVec 13) : (encodeRow zero idx).extractLsb' 13 3 = zero :=
  BitVec.extractLsb'_append_eq_left

@[simp] theorem encodeRow_idx (zero : BitVec 3) (idx : BitVec 13) : (encodeRow zero idx).extractLsb' 0 13 = idx :=
  BitVec.extractLsb'_append_eq_right

theorem rowNamed_encodeRow (c : Cfg) (zero : BitVec 3) (idx : BitVec 13) :
    rowNamed c (encodeRow zero idx) = true ↔ zero = 0#3 ∧ idx.toNat < c.H := by
  simp [rowNamed]

/-- One word read of a request that names a row. -/
theorem rowWord_of_named {s : State} {r : RowService} (hr : s.rowReq = some r) (hn : rowNamed s.cfg r.req = true) :
    rowWord s = { s with
      rowReply := s.rowReply ++ [Memory.read s.comp (cellAddr s.cfg (r.req.extractLsb' 0 13).toNat r.next)]
      rowReq := rowRest s.cfg r } := by
  simp [rowWord, hr, hn]

/-- A word read more is a word read after the others. -/
theorem rowWords_succ : ∀ (n : Nat) (s : State), rowWords (n + 1) s = rowWord (rowWords n s)
  | 0, _ => rfl
  | n + 1, s => rowWords_succ n (rowWord s)

/-- The words of row `y` in the columns below `n`, as COMP holds them. -/
def rowColors (s : State) (y n : Nat) : List Color := (List.range n).map fun x => Memory.read s.comp (cellAddr s.cfg y x)

theorem rowColors_succ (s : State) (y n : Nat) :
    rowColors s y (n + 1) = rowColors s y n ++ [Memory.read s.comp (cellAddr s.cfg y n)] := by
  simp [rowColors, List.range_succ]

/-- The record of a request after `n` word reads of row `y`: closed once the row has no further column. -/
def rowServed (req : BitVec 16) (y n : Nat) (s : State) : State :=
  { s with rowReq := if n < s.cfg.W then some ⟨req, n⟩ else none, rowReply := rowColors s y n }

/-- Up to the row's end each word read adds the word of the next column to the record. -/
theorem rowWords_rowOpen {req : BitVec 16} {s : State} (hn : rowNamed s.cfg req = true) (hW : 0 < s.cfg.W) :
    ∀ {n : Nat}, n ≤ s.cfg.W → rowWords n (rowOpen req s) = rowServed req (req.extractLsb' 0 13).toNat n s
  | 0, _ => by
    rw [rowServed, if_pos hW]
    rfl
  | n + 1, hle => by
    have hopen : (rowServed req (req.extractLsb' 0 13).toNat n s).rowReq = some ⟨req, n⟩ := if_pos hle
    rw [rowWords_succ, rowWords_rowOpen hn hW (by omega), rowWord_of_named hopen hn, rowServed, rowServed, rowColors_succ]
    rfl

end Sys2Proof.Machine
end

section
/-! PROOF. The statements about the merge and the row port (45_compositor_handoff.md). -/

namespace Sys2Proof.Machine

/-- Settles O18: the step is `afterMerge` of `pixMerge`; the merge is one write to COMP, and what moves on leaves COMP. -/
theorem mergeWritesOneColour : Obligations.MergeWritesOneColour := by
  unfold Obligations.MergeWritesOneColour
  intro e a s hl hp hok hpal
  have hstep : exec (effectInstr e a) s = .next (afterMerge (pixMerge s)) := by
    rw [exec_effectInstr, contextStep_merge e a hl hp hok hpal]
  refine ⟨_, hstep, ⟨?_, fun b hb => ?_⟩, fun hmore => ?_, fun hlast => ?_⟩
  · rw [afterMerge_comp, pixMerge_changed, Memory.read_write_same, mergeColor_eq]
  · rw [afterMerge_comp, pixMerge_changed, Memory.read_write_other _ hb]
  · rw [afterMerge_of_more (s := pixMerge s) hmore]
    rfl
  · rw [afterMerge_of_last (s := pixMerge s) hlast, rowDone_eq]
    rfl

/-- Settles O46: the request names a row, and the `W` word reads after it, put together by `rowWords_rowOpen`, close it. -/
theorem rowRequestReturnsTheRow : Obligations.RowRequestReturnsTheRow := by
  unfold Obligations.RowRequestReturnsTheRow
  intro idx s hidx hW
  have hn : rowNamed s.cfg (encodeRow 0#3 idx) = true := (rowNamed_encodeRow s.cfg 0#3 idx).2 ⟨rfl, hidx⟩
  rw [exec_rowrd, rowWords_rowOpen hn hW le_rfl, encodeRow_idx, rowServed, if_neg (lt_irrefl _)]
  rfl

end Sys2Proof.Machine
end

section
/-! SUPPORT. The audio port (46_audio.md): where the cursor stands after a number of samples, one sample of a request in
service, and a request after a number of its samples. -/

namespace Sys2Proof.Machine

/-! ### The cursor (46_audio.md R257, R264) -/

theorem cursorAfter_le (s : State) (k : Nat) : cursorAfter s k ≤ audEnd s.cfg := Nat.min_le_right _ _

theorem cursorAfter_zero {s : State} (h : s.audPos.toNat ≤ audEnd s.cfg) : cursorAfter s 0 = s.audPos.toNat := by
  simp [cursorAfter, h]

/-- One more step from a saturated cursor: the minimum may be taken once, at the end. -/
theorem cursorAfter_succ (s : State) (k : Nat) :
    cursorAfter s (k + 1) = min (cursorAfter s k + s.audStep.toNat) (audEnd s.cfg) := by
  simp only [cursorAfter, Nat.succ_mul]
  omega

/-- A cursor position fits its 32 bits. -/
theorem toNat_ofNat_cursorAfter {s : State} (h : audEnd s.cfg < 2 ^ 32) (k : Nat) :
    (BitVec.ofNat 32 (cursorAfter s k)).toNat = cursorAfter s k := by
  rw [BitVec.toNat_ofNat, Nat.mod_eq_of_lt ((cursorAfter_le s k).trans_lt h)]

theorem audAdvance_cursorAfter {s : State} (h : audEnd s.cfg < 2 ^ 32) (k : Nat) :
    audAdvance s.cfg (BitVec.ofNat 32 (cursorAfter s k)) s.audStep = BitVec.ofNat 32 (cursorAfter s (k + 1)) := by
  rw [audAdvance, toNat_ofNat_cursorAfter h, cursorAfter_succ]

theorem sampleAt_cursorAfter {s : State} (h : audEnd s.cfg < 2 ^ 32) (k : Nat) :
    sampleAt s.cfg (BitVec.ofNat 32 (cursorAfter s k)) = widen s.cfg (payloadAt s.cfg (cursorAfter s k)) := by
  rw [sampleAt, audIndex, toNat_ofNat_cursorAfter h, payloadAt]

/-! ### One sample (46_audio.md R257, R258) -/

/-- One sample of a request in service, live or silent. -/
theorem audioSample_of_service {s : State} {a : AudioService} (hr : s.audReq = some a) :
    audioSample s = { s with
      audPos := if a.live then audAdvance s.cfg s.audPos s.audStep else s.audPos
      audReply := s.audReply ++ [if a.live then sampleAt s.cfg s.audPos else 0#16]
      audReq := if a.left ≤ 1 then none else some { a with left := a.left - 1 } } := by
  cases hlive : a.live <;> simp [audioSample, hr, hlive]

/-- A sample more is a sample after the others. -/
theorem audioSamples_succ : ∀ (n : Nat) (s : State), audioSamples (n + 1) s = audioSample (audioSamples n s)
  | 0, _ => rfl
  | n + 1, s => audioSamples_succ n (audioSample s)

/-! ### A request (46_audio.md R258) -/

/-- The cursor register after `k` samples of a request, live or silent, that `s` begins. -/
def servedPos (live : Bool) (s : State) (k : Nat) : BitVec 32 :=
  if live then BitVec.ofNat 32 (cursorAfter s k) else s.audPos

/-- Sample `k` of a request, live or silent, that `s` begins. -/
def servedSample (live : Bool) (s : State) (k : Nat) : BitVec 16 :=
  if live then widen s.cfg (payloadAt s.cfg (cursorAfter s k)) else 0#16

/-- What a live request needs of the cursor: it is within the payload, and the payload's end fits the cursor's 32 bits. -/
def CursorWithin (s : State) : Prop := s.audPos.toNat ≤ audEnd s.cfg ∧ audEnd s.cfg < 2 ^ 32

theorem servedPos_zero {live : Bool} {s : State} (hc : live = true → CursorWithin s) : servedPos live s 0 = s.audPos := by
  cases live with
  | false => rfl
  | true =>
    obtain ⟨hpos, -⟩ := hc rfl
    rw [servedPos, if_pos rfl, cursorAfter_zero hpos, BitVec.ofNat_toNat, BitVec.setWidth_eq]

theorem servedPos_succ {live : Bool} {s : State} (hc : live = true → CursorWithin s) (k : Nat) :
    servedPos live s (k + 1) = if live then audAdvance s.cfg (servedPos live s k) s.audStep else servedPos live s k := by
  cases live with
  | false => rfl
  | true =>
    obtain ⟨-, hend⟩ := hc rfl
    exact (audAdvance_cursorAfter hend k).symm

theorem servedSample_eq {live : Bool} {s : State} (hc : live = true → CursorWithin s) (k : Nat) :
    servedSample live s k = if live then sampleAt s.cfg (servedPos live s k) else 0#16 := by
  cases live with
  | false => rfl
  | true =>
    obtain ⟨-, hend⟩ := hc rfl
    exact (sampleAt_cursorAfter hend k).symm

/-- The record of the request `a` in service in `s` after `k` of its samples: closed once it has delivered all. -/
def audioServed (a : AudioService) (s : State) (k : Nat) : State :=
  { s with
    audPos := servedPos a.live s k
    audReply := s.audReply ++ (List.range k).map (servedSample a.live s)
    audReq := if k < a.left then some { a with left := a.left - k } else none }

/-- A sample of a request with samples left adds the next one to its record. -/
theorem audioSample_audioServed {a : AudioService} {s : State} (hc : a.live = true → CursorWithin s) {k : Nat}
    (hk : k < a.left) : audioSample (audioServed a s k) = audioServed a s (k + 1) := by
  have hopen : (audioServed a s k).audReq = some { a with left := a.left - k } := if_pos hk
  have hreq : (if a.left - k ≤ 1 then none else some { a with left := a.left - k - 1 }) =
      if k + 1 < a.left then some { a with left := a.left - (k + 1) } else none := by
    by_cases hmore : k + 1 < a.left
    · rw [if_neg (by omega), if_pos hmore, Nat.sub_sub]
    · rw [if_pos (by omega), if_neg hmore]
  rw [audioSample_of_service hopen]
  simp only [audioServed, servedPos_succ hc, hreq, List.range_succ, List.map_append, List.map_cons, List.map_nil,
    List.append_assoc, servedSample_eq hc k]

/-- Up to the request's length, `k` samples make the record of `k` samples. -/
theorem audioSamples_of_service {a : AudioService} {s : State} (hr : s.audReq = some a) (hleft : 0 < a.left)
    (hc : a.live = true → CursorWithin s) : ∀ {k : Nat}, k ≤ a.left → audioSamples k s = audioServed a s k
  | 0, _ => by
    rw [audioServed, if_pos hleft, servedPos_zero hc, List.range_zero, List.map_nil, List.append_nil, Nat.sub_zero, ← hr]
    rfl
  | k + 1, hle => by
    rw [audioSamples_succ, audioSamples_of_service hr hleft hc (Nat.le_of_succ_le hle), audioSample_audioServed hc hle]

/-- A request in service, served to completion: all its samples, the cursor after the last, and no request left. -/
theorem audioFinish_of_service {a : AudioService} {s : State} (hr : s.audReq = some a) (hleft : 0 < a.left)
    (hc : a.live = true → CursorWithin s) :
    audioFinish s = { s with
      audPos := servedPos a.live s a.left
      audReply := s.audReply ++ (List.range a.left).map (servedSample a.live s)
      audReq := none } := by
  have hall : audioLeft s = a.left := by rw [audioLeft, hr]
  rw [audioFinish, hall, audioSamples_of_service hr hleft hc le_rfl, audioServed, if_neg (lt_irrefl _)]

/-- `AUDRD n` with no request in service: `n` samples, live or silent as the state is at its start. -/
theorem exec_audrd_of_idle {s : State} (hr : s.audReq = none) (hc : audioLive s = true → CursorWithin s) (n : BitVec 16) :
    exec (.audrd n) s = .next { s with
      audPos := servedPos (audioLive s) s n.toNat
      audReply := (List.range n.toNat).map (servedSample (audioLive s) s) } := by
  have hexec : exec (.audrd n) s = .next (audioFinish (audioOpen n s)) := rfl
  rw [hexec, audioOpen, audioFinish_of_idle hr]
  by_cases hn : n = 0#16
  · rw [hn, if_pos rfl, audioFinish_of_idle rfl, BitVec.toNat_zero, servedPos_zero hc, List.range_zero, List.map_nil, ← hr]
  · have hpos : 0 < n.toNat := Nat.pos_of_ne_zero fun h => hn (BitVec.eq_of_toNat_eq h)
    have hall := audioFinish_of_service (s := { s with audReq := some ⟨n.toNat, audioLive s⟩, audReply := [] }) rfl hpos hc
    rw [if_neg hn, hall, ← hr]
    rfl

/-! ### `WIDEN` (46_audio.md R261) -/

/-- `WIDEN` cannot overflow 16 bits (46_audio.md R264). -/
theorem widenDefault_toInt (b : Byte) : (widenDefault b.toNat).toInt = ((b.toNat : Int) - 128) * 256 := by
  have hb := b.isLt
  exact BitVec.toInt_ofInt_eq_self (by decide) (by omega) (by omega)

end Sys2Proof.Machine
end

section
/-! PROOF. The statement about the audio sample streamer (46_audio.md). -/

namespace Sys2Proof.Machine

/-- Settles O49: both kinds of request are `exec_audrd_of_idle`, read at `audioLive s`; `n` zero samples are a constant list. -/
theorem audioRequestReadsThePayload : Obligations.AudioRequestReadsThePayload := by
  unfold Obligations.AudioRequestReadsThePayload
  refine ⟨fun n s hlive hr hpos hend => ?live, fun n s hsilent hr => ?silent, fun c b hov => ?widen⟩
  case live =>
    rw [exec_audrd_of_idle hr (fun _ => ⟨hpos, hend⟩), hlive]
    rfl
  case silent =>
    have hzeros : (List.range n.toNat).map (servedSample false s) = List.replicate n.toNat 0#16 := by
      simp [List.eq_replicate_iff, servedSample]
    rw [exec_audrd_of_idle hr (fun hlive => by simp [hsilent] at hlive), hsilent, hzeros]
    rfl
  case widen =>
    have hdefault : widen c b = widenDefault b.toNat := by rw [widen, hov]; rfl
    rw [hdefault, widenDefault_toInt]

end Sys2Proof.Machine
end

section
/-! SUPPORT. The round trip of the encoding (30_encoding.md sections 1 and 6): the fields of an assembled descriptor word, the word
of a descriptor that holds its fields, and the four readings of a descriptor word as one function of the reading. -/

namespace Sys2Proof

/-! ### The code names what it is the code of (30_encoding.md R90, R94) -/

@[simp] theorem Effect.ofCode_code (e : Effect) : Effect.ofCode e.code = some e := by cases e <;> rfl

@[simp] theorem WireSel.ofCode_code (x : WireSel) : WireSel.ofCode x.code = some x := by cases x <;> rfl

@[simp] theorem BgSel.ofCode_code (x : BgSel) : BgSel.ofCode x.code = some x := by cases x <;> rfl

@[simp] theorem Policy.ofCode_code (x : Policy) : Policy.ofCode x.code = some x := by cases x <;> rfl

theorem Effect.ofCode_eq_none {c : BitVec 4} : Effect.ofCode c = none ↔ 8 < c.toNat := by
  revert c
  decide

theorem WireSel.ofCode_eq_none {c : BitVec 2} : WireSel.ofCode c = Option.none ↔ c.toNat = 3 := by
  revert c
  decide

theorem BgSel.ofCode_eq_none {c : BitVec 3} : BgSel.ofCode c = Option.none ↔ 4 < c.toNat := by
  revert c
  decide

theorem Policy.ofCode_eq_none {c : BitVec 2} : Policy.ofCode c = none ↔ c.toNat = 3 := by
  revert c
  decide

/-! ### The fields of an assembled word (30_encoding.md R92) -/

/-- Each field of an assembled word is what was put there; the two reserved bits are 0. -/
theorem fields_encodeDescr (d : Descr) :
    opField (encodeDescr d) = d.op.code ∧ rsvField (encodeDescr d) = 0#2 ∧ wireField (encodeDescr d) = d.wire.code ∧
    bgField (encodeDescr d) = d.bg.code ∧ policyField (encodeDescr d) = d.policy.code ∧
    palField (encodeDescr d) = d.pal ∧ durField (encodeDescr d) = d.dur := by
  have hbits {n k : Nat} {f : BitVec n} (h : ∀ i < n, (encodeDescr d).getLsbD (k + i) = f.getLsbD i) :
      (encodeDescr d).extractLsb' k n = f :=
    BitVec.eq_of_getLsbD_eq fun i hi => by simp only [BitVec.getLsbD_extractLsb', hi, decide_true, Bool.true_and, h i hi]
  refine ⟨hbits ?_, hbits ?_, hbits ?_, hbits ?_, hbits ?_, hbits ?_, hbits ?_⟩ <;>
    (intro i hi; rw [encodeDescr_getLsbD]; interval_cases i <;> simp [-BitVec.getLsbD_eq_getElem])

/-- The decoder reads an assembled word back: every check of R97 passes, for the fields are codes and the palette is legal. -/
theorem decodeDescr_encodeDescr {d : Descr} (h : d.palOk = true) : decodeDescr (encodeDescr d) = .ok d := by
  have hpal : ¬ 5 < d.pal.toNat := not_lt.2 (of_decide_eq_true h)
  simp only [decodeDescr, fields_encodeDescr d, Effect.ofCode_code, WireSel.ofCode_code, BgSel.ofCode_code,
    Policy.ofCode_code, ne_eq, not_true_eq_false, if_false, if_neg hpal]

/-- A word is assembled from its own fields: no bit lies outside them but the reserved two, which are 0. -/
theorem encodeDescr_of_holdsFieldsOf {d : Descr} {w : BitVec 32} (h : HoldsFieldsOf d w) : encodeDescr d = w := by
  have hrsv (j : Nat) (hj : j < 2) : w.getLsbD (26 + j) = false := by
    have hbit := congrArg (fun r : BitVec 2 => r.getLsbD j) h.rsv
    simpa [rsvField, BitVec.getLsbD_extractLsb', hj, -BitVec.getLsbD_eq_getElem] using hbit
  apply BitVec.eq_of_getLsbD_eq
  intro i hi
  rw [encodeDescr_getLsbD, h.op, h.wire, h.bg, h.policy, h.pal, h.dur]
  have h26 := hrsv 0 (by omega)
  have h27 := hrsv 1 (by omega)
  simp only [opField, wireField, bgField, policyField, palField, durField, BitVec.getLsbD_extractLsb']
  interval_cases i <;> simp [-BitVec.getLsbD_eq_getElem, h26, h27]

/-! ### The readings of a descriptor word (30_encoding.md R104) -/

/-- The row of a descriptor in one of the four readings of a descriptor word; a port's reading has no descriptor. -/
def descrRow : Slot → Descr → Instr
  | .background => bgRow
  | .wire => wireRow
  | .policy => policyRow
  | .effect | .rowPort | .audioPort => effectRow

theorem decode_eq_row {sl : Slot} (hrow : sl ≠ .rowPort) (haudio : sl ≠ .audioPort) (w : BitVec 32) :
    decode sl w = (decodeDescr w).row (descrRow sl) := by
  cases sl with
  | rowPort => exact absurd rfl hrow
  | audioPort => exact absurd rfl haudio
  | effect | background | wire | policy => rfl

theorem effectRow_slot_descr (d : Descr) : (effectRow d).slot = .effect ∧ (effectRow d).descr = some d := by
  obtain ⟨op, wire, bg, policy, pal, dur⟩ := d
  cases op <;> exact ⟨rfl, rfl⟩

theorem bgRow_slot_descr (d : Descr) : (bgRow d).slot = .background ∧ (bgRow d).descr = some d := by
  obtain ⟨op, wire, bg, policy, pal, dur⟩ := d
  cases bg <;> exact ⟨rfl, rfl⟩

theorem wireRow_slot_descr (d : Descr) : (wireRow d).slot = .wire ∧ (wireRow d).descr = some d := by
  obtain ⟨op, wire, bg, policy, pal, dur⟩ := d
  cases wire <;> exact ⟨rfl, rfl⟩

theorem policyRow_slot_descr (d : Descr) : (policyRow d).slot = .policy ∧ (policyRow d).descr = some d := by
  obtain ⟨op, wire, bg, policy, pal, dur⟩ := d
  cases policy <;> exact ⟨rfl, rfl⟩

/-- A row belongs to the reading it is read in and carries the whole descriptor. -/
theorem descrRow_slot_descr {sl : Slot} (hrow : sl ≠ .rowPort) (haudio : sl ≠ .audioPort) (d : Descr) :
    (descrRow sl d).slot = sl ∧ (descrRow sl d).descr = some d := by
  cases sl with
  | effect => exact effectRow_slot_descr d
  | background => exact bgRow_slot_descr d
  | wire => exact wireRow_slot_descr d
  | policy => exact policyRow_slot_descr d
  | rowPort => exact absurd rfl hrow
  | audioPort => exact absurd rfl haudio

/-- What an accepted descriptor word is in each reading. -/
theorem decode_of_decodeDescr {sl : Slot} (hrow : sl ≠ .rowPort) (haudio : sl ≠ .audioPort) {w : BitVec 32} {d : Descr}
    (h : decodeDescr w = .ok d) : decode sl w = .ok (descrRow sl d) := by
  rw [decode_eq_row hrow haudio, h, Decoded.row]

theorem exists_descr_of_decode {sl : Slot} (hrow : sl ≠ .rowPort) (haudio : sl ≠ .audioPort) {w : BitVec 32} {i : Instr}
    (h : decode sl w = .ok i) : ∃ d, decodeDescr w = .ok d ∧ i = descrRow sl d := by
  rw [decode_eq_row hrow haudio] at h
  cases hd : decodeDescr w with
  | ok d =>
    rw [hd, Decoded.row] at h
    cases h
    exact ⟨d, rfl, rfl⟩
  | rejected r =>
    rw [hd, Decoded.row] at h
    cases h

/-- A format-D row is its descriptor's row in its own reading, and its word is its descriptor's. -/
theorem of_descr_eq_some {i : Instr} {d : Descr} (h : i.descr = some d) :
    i.slot ≠ .rowPort ∧ i.slot ≠ .audioPort ∧ descrRow i.slot d = i ∧ encode i = encodeDescr d := by
  cases i with
  | rowrd zero idx => cases h
  | audrd n => cases h
  | start | water | acid | wireframeA | fireA | fractal | fireB | fireC | theEnd
  | bgNone | bgAutomaton | bgFractal | bgPlasma | bgChecker | wireNone | wireCube | wireGem | clear | halve | quarter =>
    cases h
    exact ⟨Slot.noConfusion, Slot.noConfusion, rfl, rfl⟩

/-! ### The ports' words (30_encoding.md R101, R102) -/

theorem not_wide_setWidth (w : BitVec 16) : ¬ 2 ^ 16 ≤ (w.setWidth 32).toNat := by
  rw [BitVec.toNat_setWidth]
  omega

@[simp] theorem extractLsb'_setWidth_port (w : BitVec 16) : (w.setWidth 32).extractLsb' 0 16 = w := by
  apply BitVec.eq_of_toNat_eq
  rw [BitVec.extractLsb'_toNat, BitVec.toNat_setWidth, Nat.shiftRight_zero]
  omega

theorem decode_rowPort (w : BitVec 16) : decode .rowPort (w.setWidth 32) = .ok (decodeRowPort w) := by
  simp only [decode, if_neg (not_wide_setWidth w), extractLsb'_setWidth_port]

theorem decode_audioPort (w : BitVec 16) : decode .audioPort (w.setWidth 32) = .ok (decodeAudioPort w) := by
  simp only [decode, if_neg (not_wide_setWidth w), extractLsb'_setWidth_port]

@[simp] theorem decodeRowPort_encodeRow (zero : BitVec 3) (idx : BitVec 13) :
    decodeRowPort (encodeRow zero idx) = .rowrd zero idx := by
  rw [decodeRowPort, Machine.encodeRow_zero, Machine.encodeRow_idx]

/-- A row request word is its two fields side by side. -/
theorem encodeRow_extract (w : BitVec 16) : encodeRow (w.extractLsb' 13 3) (w.extractLsb' 0 13) = w := by
  apply BitVec.eq_of_getLsbD_eq
  intro i hi
  rw [encodeRow, BitVec.getLsbD_append]
  split
  · next hlow => simp [BitVec.getLsbD_extractLsb', hlow, -BitVec.getLsbD_eq_getElem]
  · next hhigh =>
    simp [BitVec.getLsbD_extractLsb', show i - 13 < 3 by omega, Nat.add_sub_cancel' (not_lt.1 hhigh),
      -BitVec.getLsbD_eq_getElem]

/-- An accepted port word has only its 16 low bits. -/
theorem setWidth_extractLsb'_port {w : BitVec 32} (h : ¬ 2 ^ 16 ≤ w.toNat) : (w.extractLsb' 0 16).setWidth 32 = w := by
  apply BitVec.eq_of_toNat_eq
  rw [BitVec.toNat_setWidth, BitVec.extractLsb'_toNat, Nat.shiftRight_zero]
  omega

/-! ### Which words are refused (30_encoding.md R97) -/

/-- The reserved encodings of R97, by the numbers in the fields. -/
theorem exists_rejected_iff {w : BitVec 32} : (∃ r, decodeDescr w = .rejected r) ↔
    8 < (opField w).toNat ∨ rsvField w ≠ 0#2 ∨ (wireField w).toNat = 3 ∨ 4 < (bgField w).toNat ∨
      (policyField w).toNat = 3 ∨ 5 < (palField w).toNat := by
  rw [← Effect.ofCode_eq_none, ← WireSel.ofCode_eq_none, ← BgSel.ofCode_eq_none, ← Policy.ofCode_eq_none]
  unfold decodeDescr
  split
  · next hop => exact iff_of_true ⟨_, rfl⟩ (.inl hop)
  next hop =>
  split
  · next hrsv => exact iff_of_true ⟨_, rfl⟩ (.inr (.inl hrsv))
  next hrsv =>
  split
  · next hwire => exact iff_of_true ⟨_, rfl⟩ (.inr (.inr (.inl hwire)))
  next hwire =>
  split
  · next hbg => exact iff_of_true ⟨_, rfl⟩ (.inr (.inr (.inr (.inl hbg))))
  next hbg =>
  split
  · next hpolicy => exact iff_of_true ⟨_, rfl⟩ (.inr (.inr (.inr (.inr (.inl hpolicy)))))
  next hpolicy =>
  split
  · next hpal => exact iff_of_true ⟨_, rfl⟩ (.inr (.inr (.inr (.inr (.inr hpal)))))
  next hpal =>
  refine iff_of_false (fun ⟨r, hr⟩ => by cases hr) ?_
  simp only [hop, hwire, hbg, hpolicy, hrsv, hpal, reduceCtorEq, or_self, not_false_eq_true]

theorem rsvField_ne_zero_iff (w : BitVec 32) : rsvField w ≠ 0#2 ↔ w.toNat / 2 ^ 26 % 4 ≠ 0 := by
  rw [ne_eq, ← BitVec.toNat_inj, rsvField, BitVec.extractLsb'_toNat, Nat.shiftRight_eq_div_pow]
  rfl

theorem exists_decode_rejected_iff {sl : Slot} (hrow : sl ≠ .rowPort) (haudio : sl ≠ .audioPort) (w : BitVec 32) :
    (∃ r, decode sl w = .rejected r) ↔ ∃ r, decodeDescr w = .rejected r := by
  rw [decode_eq_row hrow haudio]
  cases decodeDescr w with
  | ok d => exact iff_of_false (fun ⟨r, hr⟩ => by cases hr) (fun ⟨r, hr⟩ => by cases hr)
  | rejected r => exact iff_of_true ⟨r, rfl⟩ ⟨r, rfl⟩

/-! ### The rows of the opcode table (30_encoding.md section 8) -/

/-- A row's mask selects one field, so of the group's rows exactly that of the field's value matches. -/
theorem filter_groupRows {sl : Slot} (hrow : sl ≠ .rowPort) (haudio : sl ≠ .audioPort) (d : Descr) :
    (groupRows sl).filter (fun r => encodeDescr d &&& r.1 == r.2) = [tableRow (descrRow sl d)] := by
  obtain ⟨hop, hwire, hbg, hpolicy⟩ := Laws.EncodeInRow.descr_masks d
  obtain ⟨op, wire, bg, policy, pal, dur⟩ := d
  cases sl with
  | effect =>
    simp only [groupRows, List.filter_cons, List.filter_nil, hop]
    cases op <;> rfl
  | background =>
    simp only [groupRows, List.filter_cons, List.filter_nil, hbg]
    cases bg <;> rfl
  | wire =>
    simp only [groupRows, List.filter_cons, List.filter_nil, hwire]
    cases wire <;> rfl
  | policy =>
    simp only [groupRows, List.filter_cons, List.filter_nil, hpolicy]
    cases policy <;> rfl
  | rowPort => exact absurd rfl hrow
  | audioPort => exact absurd rfl haudio

end Sys2Proof
end

section
/-! SUPPORT. Context A's fetch (30_encoding.md R97, R103): what it runs where the word is accepted under its index, and that it
refuses any other. -/

namespace Sys2Proof.Machine

theorem fetch_of_decode {s : State} {i : Instr} (hop : opField (edrWord s.cfg s.effect.toNat) = s.effect)
    (hi : decode .effect (edrWord s.cfg s.effect.toNat) = .ok i) : fetch s = some i := by
  obtain ⟨d, hd, rfl⟩ := exists_descr_of_decode Slot.noConfusion Slot.noConfusion hi
  simp only [fetch, hd]
  exact if_pos ((holdsFieldsOf_of_decodeDescr hd).op.trans hop)

theorem fetch_of_wrong_op {s : State} (hop : (opField (edrWord s.cfg s.effect.toNat)) ≠ s.effect) : fetch s = none := by
  unfold fetch
  split
  · next d hd => exact if_neg fun h => hop ((holdsFieldsOf_of_decodeDescr hd).op.symm.trans h)
  · rfl

theorem contextA_of_fetch {s : State} {i : Instr} (hl : videoLive s = true) (hf : fetch s = some i) :
    contextA s = exec i s := by
  rw [contextA, if_pos hl, hf]

/-- An enabled Context A with the builders' turn past means built tables, so an accepted configuration. -/
theorem cfgAccepted_of_live {s : State} (hd : buildDue s = false) (hl : videoLive s = true) : cfgAccepted s = true := by
  obtain ⟨-, hhalted⟩ : s.vidEn = true ∧ s.halted = false := by simpa [videoLive] using hl
  have hrdy : s.tblRdy = true := by simpa [buildDue, hhalted] using hd
  exact cfgAccepted_of_tblRdy hrdy

/-- With the builders' turn past, a block that no event moves goes on with Context A. -/
theorem runAlone_of_built {s : State} (hd : buildDue s = false) : runAlone s = contextA s := by
  rw [runAlone, hd, if_neg Bool.false_ne_true]

theorem step_of_not_accepted {s : State} (h : cfgAccepted s = false) : step s = .refused .illFormedCfg := by
  rw [step, runStep, h, if_neg Bool.false_ne_true]

theorem cfgAccepted_eq_false {s : State} (hw : cfgWf s.cfg = false) (hr : s.tblRdy = false) : cfgAccepted s = false := by
  rw [cfgAccepted, hw, hr, Bool.or_false]

end Sys2Proof.Machine
end

section
/-! PROOF. The statements about the decoder, the encoder and the fetch (30_encoding.md, 93_implementation_defined.md section 2). -/

open Sys2Proof.Machine

namespace Sys2Proof

/-- Settles O2: a format-D row is read back through its descriptor (`decodeDescr_encodeDescr`), a port's request through its
word's fields. -/
theorem decodeOfEncodeIsTheInstruction : Obligations.DecodeOfEncodeIsTheInstruction := by
  unfold Obligations.DecodeOfEncodeIsTheInstruction
  intro i hpal
  cases hd : i.descr with
  | some d =>
    obtain ⟨hrow, haudio, hback, hword⟩ := of_descr_eq_some hd
    rw [decode_of_decodeDescr hrow haudio (hword ▸ decodeDescr_encodeDescr (hpal d hd)), hback]
  | none =>
    cases i with
    | rowrd zero idx => exact (decode_rowPort _).trans (by rw [decodeRowPort_encodeRow])
    | audrd n => exact decode_audioPort n
    | _ => cases hd

/-- Settles O3: a descriptor word holds the fields of its descriptor and nothing else (`encodeDescr_of_holdsFieldsOf`); a port's
word has 16 bits. -/
theorem encodeOfDecodeIsTheWord : Obligations.EncodeOfDecodeIsTheWord := by
  unfold Obligations.EncodeOfDecodeIsTheWord
  intro sl w i h
  by_cases hrow : sl = .rowPort
  · subst hrow
    simp only [decode] at h
    split at h
    · cases h
    · next hw =>
      cases h
      refine ⟨rfl, ?_⟩
      rw [decodeRowPort, encode, encodeRow_extract, setWidth_extractLsb'_port hw]
  by_cases haudio : sl = .audioPort
  · subst haudio
    simp only [decode] at h
    split at h
    · cases h
    · next hw =>
      cases h
      exact ⟨rfl, setWidth_extractLsb'_port hw⟩
  obtain ⟨d, hd, rfl⟩ := exists_descr_of_decode hrow haudio h
  obtain ⟨hslot, hdescr⟩ := descrRow_slot_descr hrow haudio d
  obtain ⟨-, -, -, hword⟩ := of_descr_eq_some hdescr
  exact ⟨hslot, hword.trans (encodeDescr_of_holdsFieldsOf (holdsFieldsOf_of_decodeDescr hd))⟩

/-- Settles O5: the reserved encodings are those of `exists_rejected_iff`; a wrong `OP` is not fetched; an ill-formed
configuration is not accepted before `TBL_RDY`, which reset clears. -/
theorem illFormedWordsAreRefused : Obligations.IllFormedWordsAreRefused := by
  unfold Obligations.IllFormedWordsAreRefused
  refine ⟨fun sl w hrow haudio => ?_, fun s hl hop => ?_, fun s hw hr => ?_, fun c es k hw => ?_⟩
  · rw [exists_decode_rejected_iff hrow haudio, exists_rejected_iff, rsvField_ne_zero_iff, toNat_opField, toNat_wireField,
      toNat_bgField, toNat_policyField, toNat_palField]
  · have hne : opField (edrWord s.cfg s.effect.toNat) ≠ s.effect := fun h => hop (by rw [← toNat_opField, h])
    rw [contextA, if_pos hl, fetch_of_wrong_op hne]
  · exact step_of_not_accepted (cfgAccepted_eq_false hw hr)
  · have hbad : cfgAccepted { State.resetWith c with events := es } = false := cfgAccepted_eq_false (s := _) hw rfl
    rw [core_run_succ, step_of_not_accepted hbad]

/-- Settles O6: the row read is the descriptor's row in the reading, and the group's masks tell its rows apart
(`filter_groupRows`). -/
theorem oneRowOfEachGroupMatches : Obligations.OneRowOfEachGroupMatches := by
  unfold Obligations.OneRowOfEachGroupMatches
  refine ⟨fun w d hd sl hsl => ?_, rfl⟩
  have hrow : sl ≠ .rowPort := by rintro rfl; simp at hsl
  have haudio : sl ≠ .audioPort := by rintro rfl; simp at hsl
  obtain ⟨hslot, hdescr⟩ := descrRow_slot_descr hrow haudio d
  refine ⟨descrRow sl d, decode_of_decodeDescr hrow haudio hd, hslot, hdescr, ?_⟩
  rw [← encodeDescr_of_holdsFieldsOf (holdsFieldsOf_of_decodeDescr hd)]
  exact filter_groupRows hrow haudio d

/-- Settles O1: eight words read and one written, each a closed fact. -/
theorem specWordsAreRead : Obligations.SpecWordsAreRead := by
  unfold Obligations.SpecWordsAreRead
  decide

/-- Settles O7: Context A runs what it fetches, and a port runs what it decodes, on the state without the event. -/
theorem stepRunsTheDecodedInstruction : Obligations.StepRunsTheDecodedInstruction := by
  unfold Obligations.StepRunsTheDecodedInstruction
  refine ⟨fun s i he hd hl hop hi => ?_, fun s i rest ha he hl hop hi => ?_, fun s i w rest ha he hi => ?_,
    fun s i w rest ha he hi => ?_⟩
  · rw [step_nil (cfgAccepted_of_live hd hl) he, runAlone_of_built hd, contextA_of_fetch hl (fetch_of_decode hop hi)]
  · rw [step_cons ha he]
    exact contextA_of_fetch (s := { s with events := rest }) hl (fetch_of_decode hop hi)
  · rw [decode_rowPort] at hi
    cases hi
    exact step_cons ha he
  · rw [decode_audioPort] at hi
    cases hi
    exact step_cons ha he

end Sys2Proof
end

section
/-! SUPPORT. What a step can do, once: each way a state goes on but by a reset, as one constructor of an inductive relation. Every
invariant of the machine is then a case analysis over it (60_exceptions.md R306 to R308, R324). -/

namespace Sys2Proof.Machine

/-- One agent moves, or an outside agent acts: every way on but a reset. -/
inductive Moves (s : State) : State → Prop
  | contextA {t : State} (h : contextA s = .next t) : Moves s t
  | build : Moves s (build s)
  | rowRequest (w : BitVec 16) : Moves s (rowWords s.cfg.W (rowOpen w s))
  | rowOpen (w : BitVec 16) : Moves s (rowOpen w s)
  | rowWord : Moves s (rowWord s)
  | audioRequest (n : BitVec 16) : Moves s (audioFinish (audioOpen n s))
  | audioOpen (n : BitVec 16) : Moves s (audioOpen n s)
  | audioSample : Moves s (audioSample s)
  | hostRead (off : BitVec 32) (bytes : Nat) : Moves s (hostRead off bytes s)
  | hostWrite (off : BitVec 32) (bytes : Nat) (v : BitVec 32) : Moves s (hostWrite off bytes v s)

/-- The state that a step's agent works on: the event it serves is off the list. -/
def eventTaken (s : State) : State := { s with events := s.events.tail }

theorem eventTaken_of_nil {s : State} (h : s.events = []) : eventTaken s = s := by
  rw [eventTaken, h, List.tail_nil, ← h]

theorem eventTaken_of_cons {s : State} {e : Event} {rest : List Event} (h : s.events = e :: rest) :
    eventTaken s = { s with events := rest } := by
  rw [eventTaken, h, List.tail_cons]

@[simp] theorem eventTaken_kept (s : State) :
    (eventTaken s).cfg = s.cfg ∧ (eventTaken s).effect = s.effect ∧ (eventTaken s).frame = s.frame ∧
    (eventTaken s).countdown = s.countdown ∧ (eventTaken s).palact = s.palact ∧ (eventTaken s).scan = s.scan ∧
    (eventTaken s).prologueDone = s.prologueDone ∧ (eventTaken s).phase = s.phase ∧ (eventTaken s).audPos = s.audPos ∧
    (eventTaken s).halted = s.halted :=
  ⟨rfl, rfl, rfl, rfl, rfl, rfl, rfl, rfl, rfl, rfl⟩

/-- A request word is read as its two fields and put together again. -/
theorem exec_decodeRowPort (w : BitVec 16) (s : State) :
    exec (decodeRowPort w) s = .next (rowWords s.cfg.W (rowOpen w s)) := by
  rw [decodeRowPort, exec_rowrd, encodeRow_extract]

theorem exec_decodeAudioPort (w : BitVec 16) (s : State) :
    exec (decodeAudioPort w) s = .next (audioFinish (audioOpen w s)) := rfl

theorem moves_of_serve {e : Event} {s t : State} (hne : e ≠ .reset) (h : serve e s = .next t) : Moves s t := by
  cases e with
  | contextA => exact .contextA h
  | build => cases h; exact .build
  | rowRequest w =>
    rw [serve, exec_decodeRowPort] at h
    cases h
    exact .rowRequest w
  | rowOpen w => cases h; exact .rowOpen w
  | rowWord => cases h; exact .rowWord
  | audioRequest w => cases h; exact .audioRequest w
  | audioOpen w => cases h; exact .audioOpen w
  | audioSample => cases h; exact .audioSample
  | hostRead off bytes => cases h; exact .hostRead off bytes
  | hostWrite off bytes v => cases h; exact .hostWrite off bytes v
  | reset => exact absurd rfl hne

theorem moves_of_runAlone {s t : State} (h : runAlone s = .next t) : Moves s t := by
  unfold runAlone at h
  split at h
  · cases h; exact .build
  · exact .contextA h

/-- A step is a reset or one of the moves. -/
theorem moves_of_step {s t : State} (h : step s = .next t) :
    (resetNext s = true ∧ t = resetBlock (eventTaken s)) ∨ (resetNext s = false ∧ Moves (eventTaken s) t) := by
  obtain ⟨-, ⟨he, hrun⟩ | ⟨e, rest, he, hserve⟩⟩ := step_cases h
  · rw [eventTaken_of_nil he]
    exact .inr ⟨by simp [resetNext, he], moves_of_runAlone hrun⟩
  · rw [← eventTaken_of_cons he] at hserve
    by_cases hreset : e = .reset
    · subst hreset
      cases hserve
      exact .inl ⟨by simp [resetNext, he], rfl⟩
    · exact .inr ⟨by simp [resetNext, he, hreset], moves_of_serve hreset hserve⟩

theorem moves_of_step_of_not_reset {s t : State} (hr : resetNext s = false) (h : step s = .next t) :
    Moves (eventTaken s) t := by
  obtain ⟨hr', -⟩ | ⟨-, hm⟩ := moves_of_step h
  · rw [hr] at hr'
    cases hr'
  · exact hm

end Sys2Proof.Machine
end

section
/-! SUPPORT. The invariant (10_state.md R55): it holds after reset, every move keeps it, and from it every step goes on. -/

namespace Sys2Proof.Machine

/-! ### Reset (10_state.md R54) -/

theorem inv_resetWith {c : Cfg} (h : cfgWf c = true) : Inv (State.resetWith c) := by
  obtain ⟨hW, -, hH, -⟩ := grid_of_cfgWf h
  exact
    { cfg := h
      effect := Nat.zero_le _
      palact := palselOf_le (edrWf_of_cfgWf h) (Nat.zero_le 8)
      scan := Nat.zero_le _
      col := show 0 < c.W by omega
      boundary := iff_of_false (by decide : Phase.gen ≠ .boundary) (show (0 : Nat) ≠ c.H by omega)
      due := fun hb => by cases hb
      audPos := Nat.zero_le _
      enables := fun hen => by rcases hen with hen | hen <;> cases hen
      diag := iff_of_false Bool.false_ne_true (not_not.2 rfl)
      bgWf := rfl
      bgBelow := rfl
      fgWf := rfl
      fgBelow := rfl
      compWf := rfl
      compBelow := rfl
      compWords := rfl
      palWf := rfl
      palBelow := rfl
      palValues := rfl
      geoWf := rfl
      transparent := fun _ _ _ => rfl
      row := fun r hr => by cases hr
      audio := fun a ha => by cases ha }

theorem inv_resetBlock {s : State} (hI : Inv s) : Inv (resetBlock s) := by
  have hreset := inv_resetWith hI.cfg
  exact { hreset with }

/-! ### The events and the table build (40_table_builders.md R111, R113, R116) -/

theorem inv_eventTaken {s : State} (hI : Inv s) : Inv (eventTaken s) := { hI with }

theorem below_writeAll {w n : Nat} {es : List (Nat × BitVec w)} (hes : ∀ e ∈ es, e.1 < n) {m : Memory w}
    (hm : Memory.below n m = true) : Memory.below n (writeAll es m) = true := by
  induction es generalizing m with
  | nil => exact hm
  | cons e t ih =>
    have hhead : e.1 < n := hes e List.mem_cons_self
    exact ih (fun e' he' => hes e' (List.mem_cons_of_mem _ he')) (Memory.below_write hhead hm e.2)

theorem valuesBelow_writeAll {w n : Nat} {es : List (Nat × BitVec w)} (hes : ∀ e ∈ es, e.2.toNat < n) {m : Memory w}
    (hm : Memory.valuesBelow n m = true) : Memory.valuesBelow n (writeAll es m) = true := by
  induction es generalizing m with
  | nil => exact hm
  | cons e t ih =>
    have hhead : e.2.toNat < n := hes e List.mem_cons_self
    exact ih (fun e' he' => hes e' (List.mem_cons_of_mem _ he')) (Memory.valuesBelow_write hhead hm)

theorem colorOf_lt (c : Cfg) (w : BitVec 32) : (colorOf c w).toNat < 2 ^ c.colorBits := by
  rw [colorOf, BitVec.toNat_ofNat]
  exact (Nat.mod_le _ _).trans_lt (Nat.mod_lt _ (Nat.two_pow_pos _))

/-- Every palette entry lies in the six palettes and fits the colour's width. -/
theorem bounds_of_mem_palEntries {c : Cfg} (hw : cfgWf c = true) {e : Nat × Color}
    (he : e ∈ (List.range 6).flatMap (palEntries c)) : e.1 < palWords ∧ e.2.toNat < 2 ^ c.colorBits := by
  obtain ⟨p, hp, sg, hsg, i, hi, rfl⟩ := mem_palEntries.1 he
  have hle := seg_index_le hw hp hsg hi.2
  refine ⟨?_, colorOf_lt c _⟩
  simp only [palWords]
  omega

theorem inv_build {s : State} (hI : Inv s) : Inv (build s) := by
  unfold build
  split
  · exact
      { hI with
        enables := fun _ => rfl
        palWf := wf_writeAll _ hI.palWf
        palBelow := below_writeAll (fun e he => (bounds_of_mem_palEntries hI.cfg he).1) hI.palBelow
        palValues := valuesBelow_writeAll (fun e he => (bounds_of_mem_palEntries hI.cfg he).2) hI.palValues
        geoWf := wf_writeAll _ (wf_writeAll _ hI.geoWf)
        transparent := fun _ p hp => read_palBuild_zero hI.cfg s.pal hp }
  · exact hI

/-! ### The row port (45_compositor_handoff.md R240 to R242) -/

theorem rowReq_rowWord (s : State) : (rowWord s).rowReq = s.rowReq.bind (rowRest s.cfg) := by
  unfold rowWord
  split
  · next hr => rw [hr, Option.bind_none]
  · next r hr =>
    rw [hr, Option.bind_some]
    split <;> rfl

theorem next_of_rowRest {c : Cfg} {r r' : RowService} (h : rowRest c r = some r') : r'.next < c.W := by
  unfold rowRest at h
  split at h
  · next hlt => cases h; exact hlt
  · cases h

theorem inv_rowOpen {s : State} (hI : Inv s) (w : BitVec 16) : Inv (rowOpen w s) := by
  obtain ⟨hW, -⟩ := grid_of_cfgWf hI.cfg
  refine { hI with row := fun r hr => ?_ }
  cases hr
  exact (by omega : 0 < s.cfg.W)

theorem inv_rowWord {s : State} (hI : Inv s) : Inv (rowWord s) := by
  have hreq := rowReq_rowWord s
  rw [rowWord_only]
  refine { hI with row := fun r hr => ?_ }
  obtain ⟨r', -, hrest⟩ := Option.bind_eq_some_iff.1 (hreq.symm.trans hr)
  exact next_of_rowRest hrest

theorem inv_rowWords : ∀ (n : Nat) {s : State}, Inv s → Inv (rowWords n s)
  | 0, _, hI => hI
  | n + 1, _, hI => inv_rowWords n (inv_rowWord hI)

/-! ### The audio port (46_audio.md R257, R258, R263) -/

theorem audEnd_lt_of_cfgWf {c : Cfg} (h : cfgWf c = true) : audEnd c < 2 ^ 32 := by
  simp only [cfgWf, Bool.and_eq_true, decide_eq_true_eq] at h
  rw [audEnd]
  tauto

theorem cursorWithin_of_inv {s : State} (hI : Inv s) : CursorWithin s := ⟨hI.audPos, audEnd_lt_of_cfgWf hI.cfg⟩

theorem audioSample_of_idle {s : State} (h : s.audReq = none) : audioSample s = s := by
  simp [audioSample, h]

theorem inv_audioSample {s : State} (hI : Inv s) : Inv (audioSample s) := by
  cases hr : s.audReq with
  | none => rwa [audioSample_of_idle hr]
  | some a =>
    obtain ⟨hleft, hlt, hlive⟩ := hI.audio a hr
    rw [audioSample_of_service hr]
    refine { hI with audPos := ?_, audio := fun a' ha' => ?_ }
    · dsimp only
      split
      · exact audAdvance_le _ _ _
      · exact hI.audPos
    · dsimp only at ha'
      split at ha'
      · cases ha'
      · next hmore =>
        cases ha'
        exact ⟨by dsimp only; omega, by dsimp only; omega, hlive⟩

theorem inv_audioSamples : ∀ (n : Nat) {s : State}, Inv s → Inv (audioSamples n s)
  | 0, _, hI => hI
  | n + 1, _, hI => inv_audioSamples n (inv_audioSample hI)

theorem inv_audioFinish {s : State} (hI : Inv s) : Inv (audioFinish s) := inv_audioSamples _ hI

/-- After completion no request is in service. -/
theorem audReq_audioFinish {s : State} (hI : Inv s) : (audioFinish s).audReq = none := by
  cases hr : s.audReq with
  | none => rw [audioFinish_of_idle hr, hr]
  | some a => rw [audioFinish_of_service hr (hI.audio a hr).1 fun _ => cursorWithin_of_inv hI]

theorem inv_audioOpen {s : State} (hI : Inv s) (n : BitVec 16) : Inv (audioOpen n s) := by
  have hdone := inv_audioFinish hI
  refine { hdone with audio := fun a ha => ?_ }
  have hreq : (if n = 0#16 then none else some ⟨n.toNat, audioLive (audioFinish s)⟩) = some a := ha
  split at hreq
  · cases hreq
  · next hn =>
    cases hreq
    have hpos : 0 < n.toNat := Nat.pos_of_ne_zero fun h => hn (BitVec.eq_of_toNat_eq h)
    exact ⟨hpos, n.isLt, id⟩

/-! ### The host (10_state.md R38, R46; 60_exceptions.md R301 to R304) -/

/-- With no request in service a halt leaves nothing live. -/
theorem inv_halt {s : State} (hI : Inv s) (hr : s.audReq = none) {code : BitVec 4} (hcode : code ≠ 0#4) :
    Inv { s with diag := code, halted := true } :=
  { hI with
    diag := iff_of_true rfl hcode
    audio := fun a ha => by rw [show s.audReq = some a from ha] at hr; cases hr }

theorem inv_raiseFatal {s : State} (hI : Inv s) {code : BitVec 4} (hcode : code ≠ 0#4) : Inv (raiseFatal code s) := by
  unfold raiseFatal
  split
  · exact hI
  · exact inv_halt (inv_audioFinish hI) (audReq_audioFinish hI) hcode

theorem inv_writeFail {s : State} (hI : Inv s) (v : BitVec 32) : Inv (writeFail v s) := by
  unfold writeFail
  dsimp only
  split
  · exact hI
  · next hcode => exact inv_raiseFatal hI hcode

theorem inv_writeCtrl {s : State} (hI : Inv s) (v : BitVec 32) : Inv (writeCtrl v s) := by
  unfold writeCtrl
  split
  · next hgate =>
    have hgate : s.tblRdy = true ∧ s.halted = false := by simpa using hgate
    refine { hI with enables := fun _ => hgate.1, audio := fun a ha => ?_ }
    obtain ⟨hleft, hlt, hlive⟩ := hI.audio a ha
    refine ⟨hleft, hlt, fun h => ?_⟩
    have henabled : s.audEn = true ∧ s.halted = false := by simpa [audioLive] using hlive h
    simp [audioLive, henabled]
  · exact hI

theorem inv_hostWrite {s : State} (hI : Inv s) (off : BitVec 32) (bytes : Nat) (v : BitVec 32) :
    Inv (hostWrite off bytes v s) := by
  unfold hostWrite
  split
  · unfold regWrite
    split
    · exact inv_writeCtrl hI v
    · exact { hI with }
    · exact inv_writeFail hI v
    · exact hI
  · exact hI

/-! ### Every step -/

theorem inv_contextA {s t : State} (hI : Inv s) (h : contextA s = .next t) : Inv t := by
  obtain rfl | ⟨d, hd⟩ := contextA_cases h
  · exact hI
  · exact inv_contextStep hI hd

theorem inv_moves {s t : State} (hI : Inv s) (h : Moves s t) : Inv t := by
  cases h with
  | contextA h => exact inv_contextA hI h
  | build => exact inv_build hI
  | rowRequest w => exact inv_rowWords _ (inv_rowOpen hI w)
  | rowOpen w => exact inv_rowOpen hI w
  | rowWord => exact inv_rowWord hI
  | audioRequest n => exact inv_audioFinish (inv_audioOpen hI n)
  | audioOpen n => exact inv_audioOpen hI n
  | audioSample => exact inv_audioSample hI
  | hostRead off bytes => exact { hI with }
  | hostWrite off bytes v => exact inv_hostWrite hI off bytes v

theorem inv_step {s t : State} (hI : Inv s) (h : step s = .next t) : Inv t := by
  obtain ⟨-, rfl⟩ | ⟨-, hm⟩ := moves_of_step h
  · exact inv_resetBlock (inv_eventTaken hI)
  · exact inv_moves (inv_eventTaken hI) hm

/-! ### Every state of the invariant goes on (60_exceptions.md R300) -/

theorem exists_contextStep {s : State} (hI : Inv s) (e : Effect) (a : EffectArgs) : ∃ t, contextStep e a s = .next t := by
  cases hl : videoLive s with
  | false => exact ⟨s, contextStep_of_not_live e a hl⟩
  | true =>
    cases hp : s.phase with
    | gen => exact ⟨_, contextStep_gen e a hl hp (positionOk_of_inv hI (by simp [hp]))⟩
    | merge => exact ⟨_, contextStep_merge e a hl hp (positionOk_of_inv hI (by simp [hp])) hI.palact⟩
    | boundary => exact ⟨_, contextStep_boundary e a hl hp⟩

theorem contextA_of_not_live {s : State} (hl : videoLive s = false) : contextA s = .next s := by
  rw [contextA, hl, if_neg Bool.false_ne_true]

theorem exists_contextA {s : State} (hI : Inv s) : ∃ t, contextA s = .next t := by
  cases hl : videoLive s with
  | false => exact ⟨s, contextA_of_not_live hl⟩
  | true =>
    obtain ⟨d, hd⟩ := fetch_of_edrWf (edrWf_of_cfgWf hI.cfg) hI.effect
    rw [contextA_of_fetch hl hd, exec_effectRow]
    exact exists_contextStep hI _ _

theorem exists_serve {s : State} (hI : Inv s) (e : Event) : ∃ t, serve e s = .next t := by
  cases e with
  | contextA => exact exists_contextA hI
  | build | rowOpen | rowWord | audioOpen | audioSample | hostRead | hostWrite | reset => exact ⟨_, rfl⟩
  | rowRequest w => exact ⟨_, exec_decodeRowPort w s⟩
  | audioRequest w => exact ⟨_, exec_decodeAudioPort w s⟩

theorem exists_step {s : State} (hI : Inv s) : ∃ t, step s = .next t := by
  have ha := cfgAccepted_of_cfgWf hI.cfg
  cases he : s.events with
  | nil =>
    rw [step_nil ha he, runAlone]
    split
    · exact ⟨_, rfl⟩
    · exact exists_contextA hI
  | cons e rest =>
    rw [step_cons ha he, ← eventTaken_of_cons he]
    exact exists_serve (inv_eventTaken hI) e

/-- Progress and preservation, put together over a run. -/
theorem exists_run {s : State} (hI : Inv s) (k : Nat) : ∃ t, Host.Core.run Sys2Proof.core k s = .next t ∧ Inv t := by
  induction k generalizing s with
  | zero => exact ⟨s, rfl, hI⟩
  | succ k ih =>
    obtain ⟨u, hstep⟩ := exists_step hI
    obtain ⟨t, hrun, ht⟩ := ih (inv_step hI hstep)
    refine ⟨t, ?_, ht⟩
    rw [core_run_succ, hstep]
    exact hrun

end Sys2Proof.Machine
end

section
/-! PROOF. The statements about the invariant (10_state.md section 8, 60_exceptions.md section 1). -/

namespace Sys2Proof.Machine

/-- Settles O11: a reset answers a reset state, and every other step is a move, each of which keeps the invariant. -/
theorem everyStepKeepsTheInvariant : Obligations.EveryStepKeepsTheInvariant := by
  unfold Obligations.EveryStepKeepsTheInvariant
  exact fun s t hI h => inv_step hI h

/-- Settles O12, by induction on the number of steps: from a state of the invariant the next step goes on (`exists_step`), to a
state of the invariant. -/
theorem runsNeverStop : Obligations.RunsNeverStop := by
  unfold Obligations.RunsNeverStop
  exact fun k s hI => exists_run hI k

/-- Settles O10: the reset state of a well-formed configuration, which the model's own is. -/
theorem invariantHoldsAtReset : Obligations.InvariantHoldsAtReset := by
  unfold Obligations.InvariantHoldsAtReset
  have hown : cfgWf Cfg.p1 = true := by decide +kernel
  exact ⟨fun c h => inv_resetWith h, inv_resetWith hown⟩

/-- Settles O9: an accepted configuration takes the step, and the event serves the reset. -/
theorem resetEventRestoresReset : Obligations.ResetEventRestoresReset := by
  unfold Obligations.ResetEventRestoresReset
  intro s rest ha he
  rw [step_cons ha he]
  rfl

end Sys2Proof.Machine
end

section
/-! SUPPORT. The two views of a state that isolation speaks of (20_memory.md R79, 60_exceptions.md R320): each operation either
leaves a view as it is, or makes of it what it makes of the state. -/

namespace Sys2Proof.Machine

/-- What an operation leaves in a view is determined by the view before it. -/
def DeterminedBy (view f : State → State) : Prop := ∀ s, view (f s) = view (f (view s))

theorem DeterminedBy.congr {view f : State → State} (h : DeterminedBy view f) {s s' : State} (hv : view s = view s') :
    view (f s) = view (f s') := by
  rw [h s, h s', hv]

theorem DeterminedBy.of_comm {view f : State → State} (hview : ∀ s, view (view s) = view s)
    (h : ∀ s, f (view s) = view (f s)) : DeterminedBy view f := fun s => by
  rw [h, hview]

/-! ### Operations that leave the view of the video -/

theorem videoView_videoView (s : State) : videoView (videoView s) = videoView s := rfl

theorem videoView_audioFinish (s : State) : videoView (audioFinish s) = videoView s := by
  rw [audioFinish_only]
  rfl

theorem videoView_audioOpen (n : BitVec 16) (s : State) : videoView (audioOpen n s) = videoView s := by
  rw [audioOpen_only]
  rfl

theorem videoView_audioSample (s : State) : videoView (audioSample s) = videoView s := by
  rw [audioSample_only]
  rfl

/-! ### Operations on the view of the video -/

theorem wireUnit_videoView (sel : WireSel) (s : State) : wireUnit sel (videoView s) = videoView (wireUnit sel s) := by
  have hredraw (gem : Bool) : wireRedraw gem (videoView s) = videoView (wireRedraw gem s) := by
    cases h : firstDispatch s with
    | true => rw [wireRedraw_of_first h, wireRedraw_of_first (s := videoView s) h]; rfl
    | false => rw [wireRedraw_of_not_first h, wireRedraw_of_not_first (s := videoView s) h]
  cases sel with
  | none => rfl
  | cube => exact hredraw false
  | gem => exact hredraw true

theorem textUnit_videoView (e : Effect) (s : State) : textUnit e (videoView s) = videoView (textUnit e s) := by
  cases h : firstDispatch s with
  | true => rw [textUnit_of_first h, textUnit_of_first (s := videoView s) h]; rfl
  | false => rw [textUnit_of_not_first h, textUnit_of_not_first (s := videoView s) h]

theorem bgUnit_videoView (sel : BgSel) (e : Effect) (s : State) : bgUnit sel e (videoView s) = videoView (bgUnit sel e s) := by
  have hunit (f : Cfg → Nat → Nat → Memory 8 → Memory 8) :
      onBackground f (videoView s) = videoView (onBackground f s) := rfl
  cases sel with
  | none => rfl
  | automaton => exact hunit (automaton e s.frame.toNat)
  | fractal => exact hunit (fractalUnit s.frame.toNat)
  | plasma => exact hunit (plasmaUnit s.frame.toNat)
  | checker => exact hunit (checkerUnit s.frame.toNat)

theorem pixDispatch_videoView (e : Effect) (a : EffectArgs) (s : State) :
    pixDispatch e a (videoView s) = videoView (pixDispatch e a s) := by
  rw [pixDispatch, bgUnit_videoView, wireUnit_videoView, textUnit_videoView, pixDispatch]

theorem afterDispatch_videoView (s : State) : afterDispatch (videoView s) = videoView (afterDispatch s) := by
  by_cases h : s.col.toNat + 1 = s.cfg.W
  · rw [afterDispatch_of_last h, afterDispatch_of_last (s := videoView s) h]; rfl
  · rw [afterDispatch_of_more h, afterDispatch_of_more (s := videoView s) h]; rfl

theorem afterMerge_videoView (s : State) : afterMerge (videoView s) = videoView (afterMerge s) := by
  by_cases h : s.col.toNat + 1 = s.cfg.W
  · rw [afterMerge_of_last h, afterMerge_of_last (s := videoView s) h]; rfl
  · rw [afterMerge_of_more h, afterMerge_of_more (s := videoView s) h]; rfl

theorem frameAdv_videoView (p : Policy) (s : State) : frameAdv p (videoView s) = videoView (frameAdv p s) := by
  by_cases hdue : frameDue s = true
  · rw [frameAdv_of_due p hdue, frameAdv_of_due p (s := videoView s) hdue]
    by_cases hzero : s.countdown = 0#16
    · rw [if_pos hzero, if_pos (show (videoView s).countdown = 0#16 from hzero)]; rfl
    · rw [if_neg hzero, if_neg (show (videoView s).countdown ≠ 0#16 from hzero)]; rfl
  · rw [frameAdv_of_not_due p hdue, frameAdv_of_not_due p (s := videoView s) hdue]

/-- An outcome with the next state reduced to the view of the video. -/
def videoOutcome : Host.Outcome State Fault Refusal → Host.Outcome State Fault Refusal
  | .next s => .next (videoView s)
  | .fault r => .fault r
  | .refused r => .refused r

/-- Context A's step on the view is the view of its step. -/
theorem contextStep_videoView (e : Effect) (a : EffectArgs) (s : State) :
    contextStep e a (videoView s) = videoOutcome (contextStep e a s) := by
  cases hl : videoLive s with
  | false => rw [contextStep_of_not_live e a hl, contextStep_of_not_live e a (s := videoView s) hl]; rfl
  | true =>
    cases hp : s.phase with
    | boundary =>
      rw [contextStep_boundary e a hl hp, contextStep_boundary e a (s := videoView s) hl hp, frameAdv_videoView]
      rfl
    | gen =>
      simp only [contextStep, hl, show videoLive (videoView s) = true from hl, hp,
        show (videoView s).phase = .gen from hp, if_true, atPosition, show positionOk (videoView s) = positionOk s from rfl,
        pixDispatch_videoView, afterDispatch_videoView]
      split <;> rfl
    | merge =>
      have hmerge : pixMerge (videoView s) = videoView (pixMerge s) := rfl
      simp only [contextStep, hl, show videoLive (videoView s) = true from hl, hp,
        show (videoView s).phase = .merge from hp, if_true, atPosition, show positionOk (videoView s) = positionOk s from rfl,
        show mergeOk (videoView s) = mergeOk s from rfl, hmerge, afterMerge_videoView]
      split
      · split <;> rfl
      · rfl

/-- What is fetched is the Effect row of some descriptor. -/
theorem eq_effectRow_of_fetch {s : State} {i : Instr} (h : fetch s = some i) : ∃ d, i = effectRow d := by
  unfold fetch at h
  split at h
  · next d _ =>
    split at h
    · cases h; exact ⟨d, rfl⟩
    · cases h
  · cases h

theorem contextA_videoView (s : State) : contextA (videoView s) = videoOutcome (contextA s) := by
  cases hl : videoLive s with
  | false => rw [contextA_of_not_live hl, contextA_of_not_live (s := videoView s) hl]; rfl
  | true =>
    have hfetch : fetch (videoView s) = fetch s := rfl
    rw [contextA, contextA, if_pos hl, if_pos (show videoLive (videoView s) = true from hl), hfetch]
    cases hf : fetch s with
    | none => rfl
    | some i =>
      obtain ⟨d, rfl⟩ := eq_effectRow_of_fetch hf
      dsimp only
      rw [exec_effectRow, exec_effectRow, contextStep_videoView]

theorem determinedBy_videoView_build : DeterminedBy videoView build := by
  intro s
  by_cases h : buildDue s = true
  · rw [build, if_pos h, build, if_pos (show buildDue (videoView s) = true from h)]; rfl
  · rw [build, if_neg h, build, if_neg (show ¬ buildDue (videoView s) = true from h)]; rfl

theorem rowWord_videoView (s : State) : rowWord (videoView s) = videoView (rowWord s) := by
  have hreq : (videoView s).rowReq = s.rowReq := rfl
  have hcfg : (videoView s).cfg = s.cfg := rfl
  simp only [rowWord, hreq, hcfg]
  cases s.rowReq with
  | none => rfl
  | some r => dsimp only; split <;> rfl

theorem rowWords_videoView : ∀ (n : Nat) (s : State), rowWords n (videoView s) = videoView (rowWords n s)
  | 0, _ => rfl
  | n + 1, s => by rw [rowWords, rowWord_videoView, rowWords_videoView n, rowWords]

/-- A halt takes the code and sets the flag; what it completes at the audio port is not in the view. -/
theorem videoView_raiseFatal (code : BitVec 4) (s : State) :
    videoView (raiseFatal code s) = if s.halted then videoView s else { videoView s with diag := code, halted := true } := by
  unfold raiseFatal
  split
  · rfl
  · rw [audioFinish_only]
    rfl

theorem determinedBy_videoView_hostWrite (off : BitVec 32) (bytes : Nat) (v : BitVec 32) :
    DeterminedBy videoView (hostWrite off bytes v) := by
  intro s
  unfold hostWrite
  split
  · unfold regWrite
    split
    · rw [writeCtrl_eq, writeCtrl_eq]
      rfl
    · rfl
    · rw [writeFail_eq, writeFail_eq]
      split
      · rfl
      · rw [videoView_raiseFatal, videoView_raiseFatal]
        rfl
    · rfl
  · rfl

/-! ### A step and a run, seen by the video -/

theorem videoOutcome_serve (e : Event) (s : State) :
    videoOutcome (serve e s) = videoOutcome (serve e (videoView s)) := by
  have hdet {f : State → State} (h : DeterminedBy videoView f) :
      videoOutcome (.next (f s)) = videoOutcome (.next (f (videoView s))) := congrArg Host.Outcome.next (h s)
  have hhidden {f : State → State} (h : ∀ s, videoView (f s) = videoView s) : DeterminedBy videoView f := fun s => by
    rw [h, h]; rfl
  cases e with
  | contextA =>
    show videoOutcome (contextA s) = videoOutcome (contextA (videoView s))
    rw [contextA_videoView]
    cases contextA s <;> rfl
  | build => exact hdet determinedBy_videoView_build
  | rowRequest w =>
    rw [serve, serve, exec_decodeRowPort, exec_decodeRowPort]
    exact hdet (f := fun s => rowWords s.cfg.W (rowOpen w s)) (.of_comm videoView_videoView fun s =>
      rowWords_videoView s.cfg.W (rowOpen w s))
  | rowOpen w => rfl
  | rowWord => exact hdet (.of_comm videoView_videoView rowWord_videoView)
  | audioRequest w =>
    exact hdet (hhidden fun s => by rw [videoView_audioFinish, videoView_audioOpen])
  | audioOpen w => exact hdet (hhidden (videoView_audioOpen w))
  | audioSample => exact hdet (hhidden videoView_audioSample)
  | hostRead off bytes => rfl
  | hostWrite off bytes v => exact hdet (determinedBy_videoView_hostWrite off bytes v)
  | reset => rfl

theorem videoOutcome_step (s : State) : videoOutcome (step s) = videoOutcome (step (videoView s)) := by
  cases ha : cfgAccepted s with
  | false =>
    rw [step_of_not_accepted ha, step_of_not_accepted (s := videoView s) ha]
  | true =>
    cases he : s.events with
    | nil =>
      rw [step_nil ha he, step_nil (s := videoView s) ha he]
      cases hd : buildDue s with
      | true =>
        rw [runAlone, if_pos hd, runAlone, if_pos (show buildDue (videoView s) = true from hd)]
        exact congrArg Host.Outcome.next (determinedBy_videoView_build s)
      | false =>
        rw [runAlone_of_built hd, runAlone_of_built (s := videoView s) hd]
        exact videoOutcome_serve .contextA s
    | cons e rest =>
      rw [step_cons ha he, step_cons (s := videoView s) ha he]
      exact videoOutcome_serve e { s with events := rest }

theorem exists_step_of_videoView {s s' t : State} (hv : videoView s = videoView s') (h : step s = .next t) :
    ∃ t', step s' = .next t' ∧ videoView t = videoView t' := by
  have hout : videoOutcome (step s') = .next (videoView t) := by
    rw [videoOutcome_step s', ← hv, ← videoOutcome_step s, h, videoOutcome]
  cases hs' : step s' with
  | next t' =>
    rw [hs', videoOutcome] at hout
    injection hout with heq
    exact ⟨t', rfl, heq.symm⟩
  | fault r => rw [hs'] at hout; cases hout
  | refused r => rw [hs'] at hout; cases hout

/-! ### The view of the audio -/

theorem audioView_of_videoFrame {s t : State} (h : VideoFrame s t) : audioView t = audioView s := by
  unfold VideoFrame at h
  rw [h]
  rfl

theorem audioView_rowWord (s : State) : audioView (rowWord s) = audioView s := by
  rw [rowWord_only]
  rfl

theorem audioView_rowWords (n : Nat) (s : State) : audioView (rowWords n s) = audioView s := by
  rw [rowWords_only]
  rfl

theorem audioSample_audioView (s : State) : audioSample (audioView s) = audioView (audioSample s) := by
  have hreq : (audioView s).audReq = s.audReq := rfl
  simp only [audioSample, hreq]
  cases s.audReq with
  | none => rfl
  | some a => dsimp only; split <;> rfl

theorem audioSamples_audioView : ∀ (n : Nat) (s : State), audioSamples n (audioView s) = audioView (audioSamples n s)
  | 0, _ => rfl
  | n + 1, s => by rw [audioSamples, audioSample_audioView, audioSamples_audioView n, audioSamples]

theorem audioFinish_audioView (s : State) : audioFinish (audioView s) = audioView (audioFinish s) :=
  audioSamples_audioView (audioLeft s) s

theorem audioOpen_audioView (n : BitVec 16) (s : State) : audioOpen n (audioView s) = audioView (audioOpen n s) := by
  rw [audioOpen, audioFinish_audioView]
  rfl

theorem determinedBy_audioView_build : DeterminedBy audioView build := by
  intro s
  by_cases h : buildDue s = true
  · rw [build, if_pos h, build, if_pos (show buildDue (audioView s) = true from h)]; rfl
  · rw [build, if_neg h, build, if_neg (show ¬ buildDue (audioView s) = true from h)]; rfl

theorem raiseFatal_audioView (code : BitVec 4) (s : State) :
    raiseFatal code (audioView s) = audioView (raiseFatal code s) := by
  cases h : s.halted with
  | true => rw [raiseFatal_of_halted h, raiseFatal_of_halted (s := audioView s) h]
  | false =>
    have hlive : ¬ s.halted = true := by simp [h]
    rw [raiseFatal, if_neg (show ¬ (audioView s).halted = true from hlive), audioFinish_audioView, raiseFatal, if_neg hlive]
    rfl

theorem determinedBy_audioView_hostWrite (off : BitVec 32) (bytes : Nat) (v : BitVec 32) :
    DeterminedBy audioView (hostWrite off bytes v) := by
  intro s
  unfold hostWrite
  split
  · unfold regWrite
    split
    · rw [writeCtrl_eq, writeCtrl_eq]
      rfl
    · rfl
    · rw [writeFail_eq, writeFail_eq]
      split
      · rfl
      · rw [raiseFatal_audioView]
        rfl
    · rfl
  · rfl

theorem audioView_serve {e : Event} {s s' t t' : State} (hv : audioView s = audioView s') (h : serve e s = .next t)
    (h' : serve e s' = .next t') : audioView t = audioView t' := by
  cases e with
  | contextA => rw [audioView_of_videoFrame (contextA_videoFrame h), hv, audioView_of_videoFrame (contextA_videoFrame h')]
  | build => cases h; cases h'; exact determinedBy_audioView_build.congr hv
  | rowRequest w =>
    rw [serve, exec_decodeRowPort] at h h'
    cases h; cases h'
    rw [audioView_rowWords, audioView_rowWords]
    exact hv
  | rowOpen w => cases h; cases h'; exact hv
  | rowWord => cases h; cases h'; rw [audioView_rowWord, audioView_rowWord, hv]
  | audioRequest w =>
    cases h; cases h'
    rw [← audioFinish_audioView, ← audioOpen_audioView, hv, audioOpen_audioView, audioFinish_audioView]
  | audioOpen w => cases h; cases h'; rw [← audioOpen_audioView, hv, audioOpen_audioView]
  | audioSample => cases h; cases h'; rw [← audioSample_audioView, hv, audioSample_audioView]
  | hostRead off bytes => cases h; cases h'; exact hv
  | hostWrite off bytes v => cases h; cases h'; exact (determinedBy_audioView_hostWrite off bytes v).congr hv
  | reset =>
    cases h; cases h'
    have hreset : DeterminedBy audioView resetBlock := fun s => rfl
    exact hreset.congr hv

theorem audioView_runAlone {s s' t t' : State} (hv : audioView s = audioView s') (h : runAlone s = .next t)
    (h' : runAlone s' = .next t') : audioView t = audioView t' := by
  have hdue : buildDue s = buildDue s' := (congrArg buildDue hv :)
  unfold runAlone at h h'
  rw [← hdue] at h'
  split at h
  · next hd =>
    rw [if_pos hd] at h'
    exact audioView_serve (e := .build) hv h h'
  · next hd =>
    rw [if_neg hd] at h'
    exact audioView_serve (e := .contextA) hv h h'

theorem audioView_withEvents {s s' : State} (hv : audioView s = audioView s') (rest : List Event) :
    audioView { s with events := rest } = audioView { s' with events := rest } :=
  congrArg (fun u : State => { u with events := rest }) hv

end Sys2Proof.Machine
end

section
/-! PROOF. The statements about isolation (20_memory.md section 6, 60_exceptions.md section 7). -/

namespace Sys2Proof.Machine

/-- Settles O15, by induction on the number of steps: a step's outcome, seen by the video, is that of the view alone
(`videoOutcome_step`). -/
theorem videoDoesNotDependOnAudio : Obligations.VideoDoesNotDependOnAudio := by
  unfold Obligations.VideoDoesNotDependOnAudio
  intro k
  induction k with
  | zero =>
    intro s s' t hv h
    cases h
    exact ⟨s', rfl, hv⟩
  | succ k ih =>
    intro s s' t hv h
    rw [core_run_succ] at h
    split at h
    · next u hu =>
      obtain ⟨u', hu', hvu⟩ := exists_step_of_videoView hv hu
      obtain ⟨t', ht', hvt⟩ := ih u u' t hvu h
      refine ⟨t', ?_, hvt⟩
      rw [core_run_succ, hu']
      exact ht'
    · cases h
    · cases h

/-- Settles O16: the two states serve the same event, or go on by themselves alike, and each operation leaves in the view of the
audio what the view determines. -/
theorem audioDoesNotDependOnVideo : Obligations.AudioDoesNotDependOnVideo := by
  unfold Obligations.AudioDoesNotDependOnVideo
  intro s s' t t' hv h h'
  have hevents : s.events = s'.events := (congrArg State.events hv :)
  obtain ⟨-, ⟨he, hrun⟩ | ⟨e, rest, he, hserve⟩⟩ := step_cases h
  · rw [step_nil (accepted_of_step h') (hevents ▸ he)] at h'
    exact audioView_runAlone hv hrun h'
  · rw [step_cons (accepted_of_step h') (hevents ▸ he)] at h'
    exact audioView_serve (audioView_withEvents hv rest) hserve h'

end Sys2Proof.Machine
end

section
/-! SUPPORT. The sequencer over all moves (41_sequencer.md sections 2, 3, 6): its registers stay but at a frame boundary; there they
move along the timeline; and where the run from reset stands after a number of steps. -/

namespace Sys2Proof.Machine

/-! ### What moves the sequencer (41_sequencer.md R126) -/

/-- The registers that the timeline speaks of, and the configuration it is made of. -/
def sequencer (s : State) : Cfg × BitVec 4 × BitVec 32 × BitVec 16 × BitVec 3 :=
  (s.cfg, s.effect, s.frame, s.countdown, s.palact)

theorem sequencer_hostWrite (off : BitVec 32) (bytes : Nat) (v : BitVec 32) (s : State) :
    sequencer (hostWrite off bytes v s) = sequencer s := by
  rw [hostWrite_only]
  rfl

/-- What a due frame boundary makes of the state: the transition where the countdown has run out, then the count. -/
def boundaryDone (p : Policy) (s : State) : State :=
  { countFrame (if s.countdown = 0#16 then transition p s else s) with phase := .gen }

theorem contextStep_sequencer {e : Effect} {a : EffectArgs} {s t : State} (h : contextStep e a s = .next t) :
    sequencer t = sequencer s ∨ (s.phase = .boundary ∧ frameDue s = true ∧ ∃ p, t = boundaryDone p s) := by
  obtain ⟨-, rfl⟩ | ⟨-, -, -, rfl⟩ | ⟨-, -, -, -, rfl⟩ | ⟨-, hp, rfl⟩ := contextStep_cases h
  · exact .inl rfl
  · rw [afterDispatch_only, pixDispatch_only]
    exact .inl rfl
  · rw [afterMerge_only]
    exact .inl rfl
  · by_cases hdue : frameDue s = true
    · exact .inr ⟨hp, hdue, a.policy, by rw [frameAdv_of_due _ hdue, boundaryDone]⟩
    · rw [frameAdv_of_not_due _ hdue]
      exact .inl rfl

/-- Only a due frame boundary of Context A moves the sequencer's registers. -/
theorem moves_sequencer {s t : State} (h : Moves s t) :
    sequencer t = sequencer s ∨ (s.phase = .boundary ∧ frameDue s = true ∧ ∃ p, t = boundaryDone p s) := by
  cases h with
  | contextA h =>
    obtain rfl | ⟨d, hd⟩ := contextA_cases h
    · exact .inl rfl
    · exact contextStep_sequencer hd
  | build => rw [build_only]; exact .inl rfl
  | rowRequest w => rw [rowWords_only]; exact .inl rfl
  | rowOpen w => exact .inl rfl
  | rowWord => rw [rowWord_only]; exact .inl rfl
  | audioRequest n => rw [audioFinish_only, audioOpen_only]; exact .inl rfl
  | audioOpen n => rw [audioOpen_only]; exact .inl rfl
  | audioSample => rw [audioSample_only]; exact .inl rfl
  | hostRead off bytes => exact .inl rfl
  | hostWrite off bytes v => exact .inl (sequencer_hostWrite off bytes v s)

theorem boundaryDone_of_more (p : Policy) {s : State} (h : s.countdown ≠ 0#16) :
    boundaryDone p s = { countFrame s with phase := .gen } := by
  rw [boundaryDone, if_neg h]

theorem boundaryDone_of_zero (p : Policy) {s : State} (h : s.countdown = 0#16) :
    boundaryDone p s = { countFrame (transition p s) with phase := .gen } := by
  rw [boundaryDone, if_pos h]

@[simp] theorem boundaryDone_frame (p : Policy) (s : State) : (boundaryDone p s).frame = s.frame + 1#32 := by
  unfold boundaryDone
  split <;> rfl

/-- The next Effect is the next code, but END stays END. -/
theorem nextEffect_cases {e : BitVec 4} (he : e.toNat ≤ 8) :
    (e.toNat < 8 ∧ nextEffect e = e.toNat + 1) ∨ (e.toNat = 8 ∧ nextEffect e = 8) := by
  unfold nextEffect
  omega

theorem toNat_effect_transition (p : Policy) (s : State) : (transition p s).effect.toNat = nextEffect s.effect :=
  toNat_ofNat_nextEffect s.effect

/-! ### The timeline (41_sequencer.md R131) -/

theorem cum_succ (c : Cfg) (k : Nat) : cum c (k + 1) = cum c k + max (durOf c k).toNat 1 := rfl

theorem cum_mono (c : Cfg) {j k : Nat} (h : j ≤ k) : cum c j ≤ cum c k := by
  induction h with
  | refl => exact le_rfl
  | step _ ih => exact ih.trans (Nat.le_add_right _ _)

theorem onTimeline_of_sequencer_eq {s t : State} (h : sequencer t = sequencer s) (hT : OnTimeline s) : OnTimeline t := by
  simp only [sequencer, Prod.mk.injEq] at h
  obtain ⟨hcfg, heffect, hframe, hcountdown, hpalact⟩ := h
  obtain ⟨hpalette, hwithin, hended⟩ := hT
  constructor
  · rw [hpalact, hcfg, heffect, hpalette]
  · rw [hcfg, heffect, hframe, hcountdown]
    exact hwithin
  · rw [hcfg, heffect, hframe]
    exact hended

theorem onTimeline_resetWith (c : Cfg) : OnTimeline (State.resetWith c) := by
  have hcountdown := resetWith_countdown c
  refine ⟨rfl, fun _ => ⟨Nat.zero_le _, ?_⟩, fun h => by cases h⟩
  show 0 + (State.resetWith c).countdown.toNat + 1 = 0 + max (durOf c 0).toNat 1
  omega

/-- The countdown of a number of frames with one of them begun. -/
theorem toNat_countdown_pred (d : BitVec 16) : (BitVec.ofNat 16 (d.toNat - 1)).toNat = d.toNat - 1 := by
  have hd := d.isLt
  rw [BitVec.toNat_ofNat]
  omega

theorem toNat_frame_succ {f : BitVec 32} (h : f.toNat < 2 ^ 32 - 1) : (f + 1#32).toNat = f.toNat + 1 := by
  rw [BitVec.toNat_add, BitVec.toNat_ofNat]
  omega

/-- A frame more of the same Effect: the counter rises by what the countdown falls. -/
theorem onTimeline_nextFrame {s : State} (hT : OnTimeline s) (hf : s.frame.toNat < 2 ^ 32 - 1) (hc : s.countdown ≠ 0#16) :
    OnTimeline { countFrame s with phase := .gen } := by
  have hframe := toNat_frame_succ hf
  have hcountdown := toNat_countdown_pred s.countdown
  have hpos : s.countdown.toNat ≠ 0 := fun h => hc (BitVec.eq_of_toNat_eq h)
  refine ⟨hT.palette, fun he => ?_, fun he => ?_⟩
  · obtain ⟨hlo, hhi⟩ := hT.within he
    constructor
    · show cum s.cfg s.effect.toNat ≤ (s.frame + 1#32).toNat
      omega
    · show (s.frame + 1#32).toNat + (BitVec.ofNat 16 (s.countdown.toNat - 1)).toNat + 1 = cum s.cfg (s.effect.toNat + 1)
      omega
  · have hend := hT.ended he
    show cum s.cfg 8 ≤ (s.frame + 1#32).toNat
    omega

/-- The first frame of the next Effect: the counter has reached its range, and all of its frames but this one are to begin. -/
theorem onTimeline_nextEffect {s : State} (he : s.effect.toNat ≤ 8) (hT : OnTimeline s) (hf : s.frame.toNat < 2 ^ 32 - 1)
    (hc : s.countdown = 0#16) (p : Policy) : OnTimeline { countFrame (transition p s) with phase := .gen } := by
  have hframe := toNat_frame_succ hf
  have hcountdown := toNat_countdown_pred (durOf s.cfg (nextEffect s.effect))
  have heffect := toNat_effect_transition p s
  have hzero : s.countdown.toNat = 0 := by rw [hc]; rfl
  constructor
  · show palselOf s.cfg (nextEffect s.effect) = palselOf s.cfg (transition p s).effect.toNat
    rw [heffect]
  · show (transition p s).effect.toNat < 8 →
      cum s.cfg (transition p s).effect.toNat ≤ (s.frame + 1#32).toNat ∧
      (s.frame + 1#32).toNat + (BitVec.ofNat 16 ((durOf s.cfg (nextEffect s.effect)).toNat - 1)).toNat + 1 =
        cum s.cfg ((transition p s).effect.toNat + 1)
    rw [heffect]
    intro hlt
    obtain ⟨hlt8, hnext⟩ | ⟨-, hnext⟩ := nextEffect_cases he
    · obtain ⟨-, hhi⟩ := hT.within hlt8
      rw [cum_succ, hcountdown]
      rw [hnext] at hcountdown ⊢
      omega
    · omega
  · show (transition p s).effect.toNat = 8 → cum s.cfg 8 ≤ (s.frame + 1#32).toNat
    rw [heffect]
    intro h8
    obtain ⟨hlt8, hnext⟩ | ⟨hend, -⟩ := nextEffect_cases he
    · obtain ⟨-, hhi⟩ := hT.within hlt8
      rw [show s.effect.toNat + 1 = 8 by omega] at hhi
      omega
    · have hended := hT.ended hend
      omega

theorem onTimeline_step {s t : State} (he : s.effect.toNat ≤ 8) (hT : OnTimeline s) (hf : s.frame.toNat < 2 ^ 32 - 1)
    (h : step s = .next t) : OnTimeline t := by
  obtain ⟨-, rfl⟩ | ⟨-, hm⟩ := moves_of_step h
  · exact onTimeline_of_sequencer_eq (s := State.resetWith s.cfg) rfl (onTimeline_resetWith s.cfg)
  · have hT' : OnTimeline (eventTaken s) := onTimeline_of_sequencer_eq (s := s) rfl hT
    obtain hkept | ⟨-, -, p, rfl⟩ := moves_sequencer hm
    · exact onTimeline_of_sequencer_eq hkept hT'
    · by_cases hc : s.countdown = 0#16
      · rw [boundaryDone_of_zero (s := eventTaken s) p hc]
        exact onTimeline_nextEffect (s := eventTaken s) he hT' hf hc p
      · rw [boundaryDone_of_more (s := eventTaken s) p hc]
        exact onTimeline_nextFrame (s := eventTaken s) hT' hf hc

/-- A run keeps to the timeline while the frame counter of each state it steps from does not wrap. -/
theorem onTimeline_run {t : State} : ∀ {n : Nat} {s : State}, Inv s → OnTimeline s →
    (∀ m < n, ∀ u, Host.Core.run Sys2Proof.core m s = .next u → u.frame.toNat < 2 ^ 32 - 1) →
    Host.Core.run Sys2Proof.core n s = .next t → OnTimeline t
  | 0, _, _, hT, _, hrun => by
    cases hrun
    exact hT
  | n + 1, s, hI, hT, hf, hrun => by
    obtain ⟨u, hstep⟩ := exists_step hI
    rw [core_run_succ, hstep] at hrun
    refine onTimeline_run (inv_step hI hstep) (onTimeline_step hI.effect hT (hf 0 n.succ_pos s rfl) hstep) (fun m hm v hv => ?_)
      hrun
    refine hf (m + 1) (Nat.succ_lt_succ hm) v ?_
    rw [core_run_succ, hstep]
    exact hv

/-- The timeline's ranges are apart, so the frame counter says which Effect runs. -/
theorem effect_eq_of_onTimeline {s : State} (he : s.effect.toNat ≤ 8) (hT : OnTimeline s) {k : Nat} (hk : k < 8)
    (hlo : cum s.cfg k ≤ s.frame.toNat) (hhi : s.frame.toNat < cum s.cfg (k + 1)) : s.effect.toNat = k := by
  by_contra hne
  by_cases hend : s.effect.toNat = 8
  · have hpast := hT.ended hend
    have hle := cum_mono s.cfg (show k + 1 ≤ 8 by omega)
    omega
  · obtain ⟨hlo', hhi'⟩ := hT.within (by omega)
    obtain hlt | hgt : s.effect.toNat + 1 ≤ k ∨ k + 1 ≤ s.effect.toNat := by omega
    · have hle := cum_mono s.cfg hlt
      omega
    · have hle := cum_mono s.cfg hgt
      omega

theorem effect_eq_end_of_onTimeline {s : State} (he : s.effect.toNat ≤ 8) (hT : OnTimeline s)
    (hlo : cum s.cfg 8 ≤ s.frame.toNat) : s.effect.toNat = 8 := by
  by_contra hne
  obtain ⟨-, hhi⟩ := hT.within (by omega)
  have hle := cum_mono s.cfg (show s.effect.toNat + 1 ≤ 8 by omega)
  omega

/-! ### The run from reset (41_sequencer.md R125, R131) -/

/-- The registers that one frame of the loop keeps from its first dispatch to its boundary. -/
structure SameFrame (s u : State) : Prop where
  cfg : u.cfg = s.cfg
  effect : u.effect = s.effect
  frame : u.frame = s.frame
  palact : u.palact = s.palact

theorem sameFrame_of_atTurn {s u : State} {r j : Nat} (h : AtTurn s r j u) : SameFrame s u :=
  ⟨h.cfg, h.effect, h.frame, h.palact⟩

/-- Less than a frame's steps after its first dispatch the loop is at one of its turns or at its boundary. -/
theorem exists_run_withinFrame {s : State} (h : AtTurn s 0 0 s) {m : Nat} (hm : m < frameSteps s.cfg) :
    ∃ u, Host.Core.run Sys2Proof.core m s = .next u ∧ SameFrame s u := by
  obtain ⟨hW, -⟩ := grid_of_cfgWf h.inv.cfg
  have hsteps : frameSteps s.cfg = s.cfg.H * (2 * s.cfg.W) + 1 := by rw [frameSteps, Nat.mul_comm]
  by_cases hlast : m = s.cfg.H * (2 * s.cfg.W)
  · obtain ⟨u, hrun, hu⟩ := exists_run_rows h le_rfl
    exact ⟨u, hlast ▸ hrun, sameFrame_of_atTurn hu⟩
  · have hrow : m / (2 * s.cfg.W) < s.cfg.H := Nat.div_lt_of_lt_mul (by rw [Nat.mul_comm]; omega)
    obtain ⟨v, hbefore, hv⟩ := exists_run_rows h hrow.le
    obtain ⟨u, hturns, hu⟩ := exists_run_turns hv hrow (Nat.mod_lt m (by omega : 0 < 2 * s.cfg.W))
    have hrun := core_run_add hturns hbefore
    rw [Nat.mul_comm, Nat.div_add_mod] at hrun
    exact ⟨u, hrun, sameFrame_of_atTurn hu⟩

/-- A state at the first dispatch of frame `q` of a running block. -/
structure AtFrame (c : Cfg) (q : Nat) (s : State) : Prop where
  turn : AtTurn s 0 0 s
  timeline : OnTimeline s
  frame : s.frame.toNat = q
  cfg : s.cfg = c

theorem exists_run_frame {c : Cfg} {q : Nat} {s : State} (h : AtFrame c q s) (hq : q < 2 ^ 32 - 1) :
    ∃ t, Host.Core.run Sys2Proof.core (frameSteps c) s = .next t ∧ AtFrame c (q + 1) t := by
  obtain ⟨u, hrows, hu⟩ := exists_run_rows h.turn le_rfl
  obtain ⟨t, hstep, hinv, hnext, hfirst, hframe, -, hcfg⟩ := exists_step_of_boundary hu.inv hu.next hu.phase_boundary
  have hsteps : frameSteps c = s.cfg.H * (2 * s.cfg.W) + 1 := by rw [frameSteps, Nat.mul_comm, h.cfg]
  have hrun : Host.Core.run Sys2Proof.core (frameSteps c) s = .next t := by
    rw [hsteps]
    exact core_run_add (core_run_one hstep) hrows
  have hnowrap : s.frame.toNat < 2 ^ 32 - 1 := h.frame.trans_lt hq
  have hT : OnTimeline t := by
    refine onTimeline_run h.turn.inv h.timeline (fun m hm v hv => ?_) hrun
    obtain ⟨v', hv', hsame⟩ := exists_run_withinFrame h.turn (h.cfg ▸ hm)
    obtain rfl : v' = v := by
      rw [hv'] at hv
      cases hv
      rfl
    rw [hsame.frame]
    exact hnowrap
  refine ⟨t, hrun, atTurn_of_frameStart hinv hnext hfirst, hT, ?_, hcfg.trans (hu.cfg.trans h.cfg)⟩
  rw [hframe, hu.frame, toNat_frame_succ hnowrap, h.frame]

theorem exists_run_frames {c : Cfg} {s : State} (h : AtFrame c 0 s) :
    ∀ {q : Nat}, q < 2 ^ 32 → ∃ t, Host.Core.run Sys2Proof.core (q * frameSteps c) s = .next t ∧ AtFrame c q t
  | 0, _ => ⟨s, by rw [Nat.zero_mul]; rfl, h⟩
  | q + 1, hq => by
    obtain ⟨u, hrun, hu⟩ := exists_run_frames h (q := q) (by omega)
    obtain ⟨t, hframe, ht⟩ := exists_run_frame hu (by omega)
    refine ⟨t, ?_, ht⟩
    rw [Nat.succ_mul]
    exact core_run_add hframe hrun

/-- The reset state with the build and the host's write of `VID_EN` waiting. -/
def startUp (c : Cfg) : State := { State.resetWith c with events := [.build, .hostWrite 0#32 4 1#32] }

/-- The block two steps after reset: the tables built and the video enabled, at the first dispatch of frame 0. -/
def started (c : Cfg) : State := { buildTables (State.resetWith c) with vidEn := true, events := [] }

theorem build_of_due {s : State} (h : buildDue s = true) : build s = buildTables s := if_pos h

theorem run_startUp {c : Cfg} (h : cfgWf c = true) : Host.Core.run Sys2Proof.core 2 (startUp c) = .next (started c) := by
  have hbuild : step (startUp c) = .next (buildTables (eventTaken (startUp c))) :=
    (step_cons (cfgAccepted_of_cfgWf (s := startUp c) h) rfl).trans
      (congrArg Host.Outcome.next (build_of_due (s := eventTaken (startUp c)) rfl))
  have hwrite : step (buildTables (eventTaken (startUp c))) = .next (started c) := by
    rw [step_hostWrite (s := buildTables _) (cfgAccepted_of_tblRdy rfl) rfl, hostWrite_ctrl, writeCtrl_eq]
    rfl
  rw [core_run_succ, hbuild]
  exact core_run_one hwrite

theorem atFrame_started {c : Cfg} (h : cfgWf c = true) : AtFrame c 0 (started c) := by
  have hwaiting : Inv (startUp c) := { inv_resetWith h with }
  obtain ⟨t, hrun, hI⟩ := exists_run hwaiting 2
  rw [run_startUp h] at hrun
  cases hrun
  have hT : OnTimeline (started c) := onTimeline_of_sequencer_eq (s := State.resetWith c) rfl (onTimeline_resetWith c)
  exact ⟨atTurn_of_frameStart hI rfl rfl, hT, rfl, rfl⟩

theorem cum_of_sourceTimeline {c : Cfg} (h : isSourceTimeline c = true) : cum c 1 = 10 ∧ cum c 2 = 225 ∧ cum c 3 = 356 := by
  simp only [isSourceTimeline, Bool.and_eq_true, decide_eq_true_eq] at h
  obtain ⟨⟨h0, h1⟩, h2⟩ := h
  simp [cum, h0, h1, h2]

/-! ### The three kinds of step, as equations (41_sequencer.md R125, R126) -/

theorem countdown_pred {d : BitVec 16} (h : d ≠ 0#16) : BitVec.ofNat 16 (d.toNat - 1) = d - 1#16 := by
  have hpos : d.toNat ≠ 0 := fun hz => h (BitVec.eq_of_toNat_eq hz)
  have hlt := d.isLt
  apply BitVec.eq_of_toNat_eq
  rw [toNat_countdown_pred, BitVec.toNat_sub, BitVec.toNat_ofNat]
  omega

theorem exec_boundary_due (e : Effect) (a : EffectArgs) {s : State} (hl : videoLive s = true) (hp : s.phase = .boundary)
    (hdue : frameDue s = true) : exec (effectInstr e a) s = .next (boundaryDone a.policy s) := by
  rw [exec_effectInstr, contextStep_boundary e a hl hp, frameAdv_of_due _ hdue, boundaryDone]

theorem exec_boundary_not_due (e : Effect) (a : EffectArgs) {s : State} (hl : videoLive s = true) (hp : s.phase = .boundary)
    (hdue : ¬ frameDue s = true) : exec (effectInstr e a) s = .next { s with phase := .gen } := by
  rw [exec_effectInstr, contextStep_boundary e a hl hp, frameAdv_of_not_due _ hdue]

theorem exec_bgInstr {sel : BgSel} (a : BgArgs) {s : State} (hok : positionOk s = true) :
    exec (bgInstr sel a) s = .next (bgUnit sel a.op s) := by
  cases sel with
  | none => rfl
  | automaton | fractal | plasma | checker => exact if_pos hok

theorem exec_wireInstr_eq (sel : WireSel) (a : WireArgs) (s : State) : exec (wireInstr sel a) s = .next (wireUnit sel s) := by
  cases sel <;> rfl

/-! ### The generated rows (41_sequencer.md R133) -/

theorem genRow_withScan {s : State} {k : Nat} (hk : k < 2 ^ 13) :
    genRow { s with scan := BitVec.ofNat 13 k } = (k + s.cfg.LEAD) % s.cfg.H := by
  simp only [genRow, BitVec.toNat_ofNat, Nat.mod_eq_of_lt hk]

/-- A rotation of the rows: first those from `lead` on, then the `lead` before them. -/
theorem map_range_add_mod {lead n : Nat} (h : lead < n) :
    (List.range n).map (fun k => (k + lead) % n) = (List.range (n - lead)).map (lead + ·) ++ List.range lead := by
  have hsplit : List.range n = List.range (n - lead) ++ (List.range lead).map (n - lead + ·) := by
    rw [← List.range_add, Nat.sub_add_cancel h.le]
  rw [hsplit, List.map_append, List.map_map]
  congr 1
  · refine List.map_congr_left fun k hk => ?_
    have hlt := List.mem_range.1 hk
    rw [Nat.mod_eq_of_lt (by omega), Nat.add_comm]
  · refine (List.map_congr_left fun j hj => ?_).trans (List.map_id _)
    have hlt := List.mem_range.1 hj
    show (n - lead + j + lead) % n = j
    rw [show n - lead + j + lead = j + n by omega, Nat.add_mod_right, Nat.mod_eq_of_lt (by omega)]

/-! ### Positions off the grid (log 17) -/

theorem exec_effectInstr_of_offGrid (e : Effect) (a : EffectArgs) {s : State} (hl : videoLive s = true)
    (hok : positionOk s = false) (hp : s.phase ≠ .boundary) :
    exec (effectInstr e a) s = .fault .outsideAddressSpace := by
  rw [exec_effectInstr]
  cases hphase : s.phase with
  | gen => simp [contextStep, hl, hphase, atPosition, hok]
  | merge => simp [contextStep, hl, hphase, atPosition, hok]
  | boundary => exact absurd hphase hp

theorem exec_effectInstr_of_badPalette (e : Effect) (a : EffectArgs) {s : State} (hl : videoLive s = true)
    (hpal : 5 < s.palact.toNat) (hp : s.phase = .merge) : exec (effectInstr e a) s = .fault .outsideAddressSpace := by
  have hbad : mergeOk s = false := decide_eq_false (by omega)
  rw [exec_effectInstr]
  simp [contextStep, hl, hp, hbad]

end Sys2Proof.Machine
end

section
/-! PROOF. The statements about the sequencer's registers, the timeline and the loop's steps (41_sequencer.md,
45_compositor_handoff.md section 1). -/

namespace Sys2Proof.Machine

/-- Settles O24: reset and every step are on the timeline (`onTimeline_step`); the run from reset is taken frame by frame
(`exists_run_frames`), and within a frame the registers of its first dispatch stay. -/
theorem timelineFollowsTheDurations : Obligations.TimelineFollowsTheDurations := by
  unfold Obligations.TimelineFollowsTheDurations
  refine ⟨onTimeline_resetWith, fun s t hI hT hf h => onTimeline_step hI.effect hT hf h, fun c n hw hn => ?_⟩
  obtain ⟨s, hframes, hs⟩ := exists_run_frames (atFrame_started hw) hn
  have hpos : 0 < frameSteps s.cfg := Nat.succ_pos _
  obtain ⟨t, hrest, ht⟩ := exists_run_withinFrame hs.turn (Nat.mod_lt n hpos)
  rw [hs.cfg] at hrest
  have hrun := core_run_add (core_run_add hrest hframes) (run_startUp hw)
  rw [Nat.mul_comm, Nat.div_add_mod] at hrun
  have he := hs.turn.inv.effect
  refine ⟨t, hrun, by rw [ht.frame, hs.frame], fun k hk hlo hhi => ?_, fun hlo => ?_, ?_, cum_of_sourceTimeline⟩
  · rw [← hs.frame, ← hs.cfg] at hlo hhi
    rw [ht.effect]
    exact effect_eq_of_onTimeline he hs.timeline hk hlo hhi
  · rw [← hs.frame, ← hs.cfg] at hlo
    rw [ht.effect]
    exact effect_eq_end_of_onTimeline he hs.timeline hlo
  · rw [ht.palact, ht.effect, ← hs.cfg]
    exact hs.timeline.palette

/-- Settles O14: a step leaves the sequencer's registers or is a due frame boundary (`moves_sequencer`), which counts one frame
and, where the countdown is 0, goes to the next Effect. -/
theorem sequencerMovesOnlyAtTheBoundary : Obligations.SequencerMovesOnlyAtTheBoundary := by
  unfold Obligations.SequencerMovesOnlyAtTheBoundary
  intro s t he hr h
  obtain hkept | ⟨hp, hdue, p, rfl⟩ := moves_sequencer (moves_of_step_of_not_reset hr h)
  · simp only [sequencer, Prod.mk.injEq, eventTaken_kept] at hkept
    obtain ⟨-, heffect, hframe, hcountdown, hpalact⟩ := hkept
    exact ⟨.inl (by rw [heffect]), heffect ▸ he, .inl hframe, fun hne => absurd hframe hne,
      fun hne => (hne.elim (absurd heffect) (absurd hpalact)), fun hne => absurd hcountdown hne⟩
  · have hwrapped := (frameDue_iff s).1 hdue
    have hframe : (boundaryDone p (eventTaken s)).frame = s.frame + 1#32 := boundaryDone_frame p (eventTaken s)
    by_cases hc : s.countdown = 0#16
    · have heffect : (boundaryDone p (eventTaken s)).effect.toNat = nextEffect s.effect := by
        rw [boundaryDone_of_zero (s := eventTaken s) p hc]
        exact toNat_effect_transition p (eventTaken s)
      refine ⟨?_, heffect ▸ nextEffect_le _, .inr hframe, fun _ => ⟨hp, hwrapped⟩, fun _ => ⟨hp, hc⟩, fun _ => hp⟩
      rw [heffect]
      obtain ⟨-, hnext⟩ | ⟨h8, hnext⟩ := nextEffect_cases he
      · exact .inr hnext
      · exact .inl (hnext.trans h8.symm)
    · have hmore := boundaryDone_of_more (s := eventTaken s) p hc
      have heffect : (boundaryDone p (eventTaken s)).effect = s.effect := by rw [hmore]; rfl
      have hpalact : (boundaryDone p (eventTaken s)).palact = s.palact := by rw [hmore]; rfl
      exact ⟨.inl (by rw [heffect]), heffect ▸ he, .inr hframe, fun _ => ⟨hp, hwrapped⟩,
        fun hne => hne.elim (absurd heffect) (absurd hpalact), fun _ => hp⟩

/-- Settles O19: a due boundary with frames left only counts the frame; one that is not due only returns to phase GEN. -/
theorem boundaryCountsTheFrame : Obligations.BoundaryCountsTheFrame := by
  unfold Obligations.BoundaryCountsTheFrame
  refine fun e a s hl hp => ⟨fun hscan hflag hc => ?_, fun hidle => ?_⟩
  · rw [exec_boundary_due e a hl hp ((frameDue_iff s).2 ⟨hscan, hflag⟩), boundaryDone_of_more _ hc, ← countdown_pred hc]
    rfl
  · refine exec_boundary_not_due e a hl hp fun hdue => ?_
    obtain ⟨hscan, hflag⟩ := (frameDue_iff s).1 hdue
    simp [hscan, hflag] at hidle

/-- Settles O20: the step is the transition and the count; of the layers the sweeps reach the grid's cells and no other. -/
theorem boundaryMakesTheTransition : Obligations.BoundaryMakesTheTransition := by
  unfold Obligations.BoundaryMakesTheTransition
  intro e a s hl hp hscan hflag hc
  have hstep : exec (effectInstr e a) s = .next { countFrame (transition a.policy s) with phase := .gen } := by
    rw [exec_boundary_due e a hl hp ((frameDue_iff s).2 ⟨hscan, hflag⟩), boundaryDone_of_zero _ hc]
  obtain ⟨-, -, -, hbg, hfg⟩ := transition_changed a.policy s
  refine ⟨_, hstep, rfl, fun b hb => ?_, fun b hb => ?_⟩
  · show cell (transition a.policy s).bg b = _ ∧ Memory.read (transition a.policy s).fg b = 0#8
    rw [hbg, hfg, cell_sweep_policyCell a.policy s.bg hb, Memory.read_sweep, if_pos hb]
    exact ⟨rfl, rfl⟩
  · show Memory.read (transition a.policy s).bg b = _ ∧ Memory.read (transition a.policy s).fg b = _
    rw [hbg, hfg, Memory.read_sweep_above _ _ hb, Memory.read_sweep_above _ _ hb]
    exact ⟨rfl, rfl⟩

/-- Settles O17: the step is `afterDispatch` of the three units in order, of which the first writes the Background alone and the
others the Foreground alone. -/
theorem dispatchRunsTheThreeUnits : Obligations.DispatchRunsTheThreeUnits := by
  unfold Obligations.DispatchRunsTheThreeUnits
  intro e a s hl hp hok
  refine ⟨bgUnit a.bg e s, wireUnit a.wire (bgUnit a.bg e s), exec_bgInstr _ hok, exec_wireInstr_eq _ _ _, ?_⟩
  rw [exec_effectInstr, contextStep_gen e a hl hp hok]
  have hcol : (pixDispatch e a s).col = s.col := by simp
  have hcfg : (pixDispatch e a s).cfg = s.cfg := by simp
  have hfg : (textUnit e (wireUnit a.wire (bgUnit a.bg e s))).fg = (pixDispatch e a s).fg := rfl
  rw [hfg]
  by_cases hlast : s.col.toNat + 1 = s.cfg.W
  · rw [afterDispatch_of_last (by rw [hcol, hcfg]; exact hlast), if_pos hlast, if_pos hlast, pixDispatch_only]
  · rw [afterDispatch_of_more (by rw [hcol, hcfg]; exact hlast), if_neg hlast, if_neg hlast, pixDispatch_only, ← hp]

/-- Settles O22: the rows over the scan positions are a rotation by `LEAD`. -/
theorem rowsAreGeneratedFromTheLead : Obligations.RowsAreGeneratedFromTheLead := by
  unfold Obligations.RowsAreGeneratedFromTheLead
  intro s hlead hH
  refine ⟨?_, Nat.mod_lt _ (by omega)⟩
  rw [← map_range_add_mod hlead]
  refine List.map_congr_left fun k hk => genRow_withScan ?_
  exact (List.mem_range.1 hk).trans_le hH

/-- Settles O38: the units and the two phases check the position, and a merge its palette. -/
theorem positionOffTheGridFaults : Obligations.PositionOffTheGridFaults := by
  unfold Obligations.PositionOffTheGridFaults
  refine fun s => ⟨fun hok a => ?_, fun e a hl => ⟨exec_effectInstr_of_offGrid e a hl, exec_effectInstr_of_badPalette e a hl⟩⟩
  have hfault (f : State → State) : atPosition s f = .fault .outsideAddressSpace := by
    rw [atPosition, hok, if_neg Bool.false_ne_true]
  exact ⟨hfault _, hfault _, hfault _, hfault _⟩

end Sys2Proof.Machine
end

section
/-! SUPPORT. The ownership table (60_exceptions.md section 7), agent by agent: a host write by its register, the cursor over all
moves, the halted block over all moves. -/

namespace Sys2Proof.Machine

/-! ### Host writes (10_state.md R37, R38, R46; 20_memory.md R72, R73) -/

/-- The three registers that a write may change, at their offsets and at full width; any other write is ignored. -/
theorem hostWrite_cases (off : BitVec 32) (bytes : Nat) (v : BitVec 32) (s : State) :
    (bytes = 4 ∧ off = 0x00#32 ∧ hostWrite off bytes v s = writeCtrl v s) ∨
    (bytes = 4 ∧ off = 0x1C#32 ∧ hostWrite off bytes v s = { s with audStep := v }) ∨
    (bytes = 4 ∧ off = 0x20#32 ∧ hostWrite off bytes v s = writeFail v s) ∨
    hostWrite off bytes v s = s := by
  unfold hostWrite
  split
  · next haligned =>
    obtain ⟨hbytes, -⟩ := of_decide_eq_true haligned
    unfold regWrite
    split
    · next hoff => exact .inl ⟨hbytes, BitVec.eq_of_toNat_eq hoff, rfl⟩
    · next hoff => exact .inr (.inl ⟨hbytes, BitVec.eq_of_toNat_eq hoff, rfl⟩)
    · next hoff => exact .inr (.inr (.inl ⟨hbytes, BitVec.eq_of_toNat_eq hoff, rfl⟩))
    · exact .inr (.inr (.inr rfl))
  · exact .inr (.inr (.inr rfl))

theorem writeFail_of_zero {v : BitVec 32} (h : v.toNat % 16 = 0) (s : State) : writeFail v s = s := by
  rw [writeFail_eq, if_pos h]

theorem writeFail_of_halted {s : State} (h : s.halted = true) (v : BitVec 32) : writeFail v s = s := by
  rw [writeFail_eq, raiseFatal_of_halted h, ite_self]

theorem writeCtrl_of_halted {s : State} (h : s.halted = true) (v : BitVec 32) : writeCtrl v s = s := by
  rw [writeCtrl, h, Bool.not_true, Bool.and_false, if_neg Bool.false_ne_true]

/-- A fatal write touches the halt, and the audio port with its cursor. -/
theorem writeFail_only (v : BitVec 32) (s : State) :
    writeFail v s = { s with
      audPos := (writeFail v s).audPos, audReply := (writeFail v s).audReply, audReq := (writeFail v s).audReq
      diag := (writeFail v s).diag, halted := (writeFail v s).halted } := by
  rw [writeFail_eq]
  split
  · rfl
  · rw [raiseFatal_only]

/-- What one register keeps of a host write to another. -/
theorem enables_hostWrite {off : BitVec 32} {bytes : Nat} (h : off ≠ 0x00#32 ∨ bytes ≠ 4) (v : BitVec 32) (s : State) :
    (hostWrite off bytes v s).vidEn = s.vidEn ∧ (hostWrite off bytes v s).audEn = s.audEn := by
  obtain ⟨hb, ho, -⟩ | ⟨-, -, heq⟩ | ⟨-, -, heq⟩ | heq := hostWrite_cases off bytes v s
  · exact absurd h (by simp [hb, ho])
  · rw [heq]; exact ⟨rfl, rfl⟩
  · rw [heq, writeFail_only]; exact ⟨rfl, rfl⟩
  · rw [heq]; exact ⟨rfl, rfl⟩

theorem audStep_hostWrite {off : BitVec 32} {bytes : Nat} (h : off ≠ 0x1C#32 ∨ bytes ≠ 4) (v : BitVec 32) (s : State) :
    (hostWrite off bytes v s).audStep = s.audStep := by
  obtain ⟨-, -, heq⟩ | ⟨hb, ho, -⟩ | ⟨-, -, heq⟩ | heq := hostWrite_cases off bytes v s
  · rw [heq, writeCtrl_eq]
  · exact absurd h (by simp [hb, ho])
  · rw [heq, writeFail_only]
  · rw [heq]

/-- A host write that raises no fatal code leaves what the fatal event may touch. -/
theorem fatalFields_hostWrite {off : BitVec 32} {bytes : Nat} {v : BitVec 32} {s : State}
    (h : off ≠ 0x20#32 ∨ bytes ≠ 4 ∨ v.toNat % 16 = 0 ∨ s.halted = true) :
    ((hostWrite off bytes v s).halted = s.halted ∧ (hostWrite off bytes v s).diag = s.diag) ∧
    (hostWrite off bytes v s).audPos = s.audPos ∧ (hostWrite off bytes v s).audReq = s.audReq ∧
    (hostWrite off bytes v s).audReply = s.audReply := by
  obtain ⟨-, -, heq⟩ | ⟨-, -, heq⟩ | ⟨hb, ho, heq⟩ | heq := hostWrite_cases off bytes v s
  · rw [heq, writeCtrl_eq]; exact ⟨⟨rfl, rfl⟩, rfl, rfl, rfl⟩
  · rw [heq]; exact ⟨⟨rfl, rfl⟩, rfl, rfl, rfl⟩
  · have hsame : writeFail v s = s := by
      obtain hne | hne | hzero | hhalted := h
      · exact absurd ho hne
      · exact absurd hb hne
      · exact writeFail_of_zero hzero s
      · exact writeFail_of_halted hhalted v
    rw [heq, hsame]; exact ⟨⟨rfl, rfl⟩, rfl, rfl, rfl⟩
  · rw [heq]; exact ⟨⟨rfl, rfl⟩, rfl, rfl, rfl⟩

/-- With no audio request in service no host write moves the cursor or the audio port's record. -/
theorem audioFields_hostWrite_of_idle {s : State} (hr : s.audReq = none) (off : BitVec 32) (bytes : Nat) (v : BitVec 32) :
    (hostWrite off bytes v s).audPos = s.audPos ∧ (hostWrite off bytes v s).audReq = s.audReq ∧
    (hostWrite off bytes v s).audReply = s.audReply := by
  by_cases h : off ≠ 0x20#32 ∨ bytes ≠ 4 ∨ v.toNat % 16 = 0 ∨ s.halted = true
  · exact (fatalFields_hostWrite h).2
  · simp only [not_or, not_not] at h
    obtain ⟨ho, hb, hcode, hlive⟩ := h
    rw [ho, hb, hostWrite_fail, writeFail_eq, if_neg hcode, raiseFatal_of_idle (Bool.eq_false_iff.2 hlive) hr]
    exact ⟨rfl, rfl, rfl⟩

/-! ### The ports' agents (60_exceptions.md R320) -/

/-- Nothing moves but the row port's record and the count of free values. -/
def RowPortFrame (s t : State) : Prop := t = { s with rowReq := t.rowReq, rowReply := t.rowReply, free := t.free }

/-- Nothing moves but the cursor and the audio port's record. -/
def AudioPortFrame (s t : State) : Prop := t = { s with audPos := t.audPos, audReq := t.audReq, audReply := t.audReply }

theorem rowPortFrame_serve {e : Event} {w : BitVec 16} {s t : State}
    (he : e = .rowRequest w ∨ e = .rowOpen w ∨ e = .rowWord) (h : serve e s = .next t) : RowPortFrame s t := by
  obtain rfl | rfl | rfl := he
  · rw [serve, exec_decodeRowPort] at h
    cases h
    exact rowWords_only _ _
  · cases h; rfl
  · cases h; exact rowWord_only s

theorem audioPortFrame_serve {e : Event} {n : BitVec 16} {s t : State}
    (he : e = .audioRequest n ∨ e = .audioOpen n ∨ e = .audioSample) (h : serve e s = .next t) : AudioPortFrame s t := by
  obtain rfl | rfl | rfl := he
  · cases h
    unfold AudioPortFrame
    rw [audioFinish_only, audioOpen_only]
  · cases h; exact audioOpen_only n s
  · cases h; exact audioSample_only s

/-! ### The cursor (46_audio.md R262, R263) -/

/-- From a cursor within the payload the cursor does not fall and stays within the payload. -/
def CursorAdvances (s t : State) : Prop :=
  t.cfg = s.cfg ∧ (CursorWithin s → s.audPos.toNat ≤ t.audPos.toNat ∧ t.audPos.toNat ≤ audEnd s.cfg)

theorem CursorAdvances.of_eq {s t : State} (hcfg : t.cfg = s.cfg) (hpos : t.audPos = s.audPos) : CursorAdvances s t :=
  ⟨hcfg, fun ⟨hle, _⟩ => by rw [hpos]; exact ⟨le_rfl, hle⟩⟩

theorem CursorAdvances.trans {s t u : State} (h : CursorAdvances s t) (h' : CursorAdvances t u) : CursorAdvances s u := by
  obtain ⟨hcfg, hpos⟩ := h
  obtain ⟨hcfg', hpos'⟩ := h'
  refine ⟨hcfg'.trans hcfg, fun hc => ?_⟩
  obtain ⟨hup, hin⟩ := hpos hc
  obtain ⟨hup', hin'⟩ := hpos' ⟨hcfg ▸ hin, hcfg ▸ hc.2⟩
  exact ⟨hup.trans hup', hcfg ▸ hin'⟩

/-- One sample adds the step, saturated at the payload's end, or leaves the cursor. -/
theorem cursorAdvances_audioSample (s : State) : CursorAdvances s (audioSample s) := by
  cases hr : s.audReq with
  | none =>
    rw [audioSample_of_idle hr]
    exact .of_eq rfl rfl
  | some a =>
    rw [audioSample_of_service hr]
    refine ⟨rfl, fun ⟨hle, hend⟩ => ?_⟩
    dsimp only
    split
    · refine ⟨?_, audAdvance_le _ _ _⟩
      have hfits : min (s.audPos.toNat + s.audStep.toNat) (audEnd s.cfg) < 2 ^ 32 := (Nat.min_le_right _ _).trans_lt hend
      rw [audAdvance, BitVec.toNat_ofNat, Nat.mod_eq_of_lt hfits]
      exact le_min (Nat.le_add_right _ _) hle
    · exact ⟨le_rfl, hle⟩

theorem cursorAdvances_audioSamples : ∀ (n : Nat) (s : State), CursorAdvances s (audioSamples n s)
  | 0, _ => .of_eq rfl rfl
  | n + 1, s => (cursorAdvances_audioSample s).trans (cursorAdvances_audioSamples n (audioSample s))

theorem cursorAdvances_audioFinish (s : State) : CursorAdvances s (audioFinish s) := cursorAdvances_audioSamples _ s

theorem cursorAdvances_audioOpen (n : BitVec 16) (s : State) : CursorAdvances s (audioOpen n s) :=
  (cursorAdvances_audioFinish s).trans (.of_eq rfl rfl)

theorem cursorAdvances_raiseFatal (code : BitVec 4) (s : State) : CursorAdvances s (raiseFatal code s) := by
  unfold raiseFatal
  split
  · exact .of_eq rfl rfl
  · exact (cursorAdvances_audioFinish s).trans (.of_eq rfl rfl)

theorem cursorAdvances_hostWrite (off : BitVec 32) (bytes : Nat) (v : BitVec 32) (s : State) :
    CursorAdvances s (hostWrite off bytes v s) := by
  obtain ⟨-, -, heq⟩ | ⟨-, -, heq⟩ | ⟨-, -, heq⟩ | heq := hostWrite_cases off bytes v s
  · rw [heq, writeCtrl_eq]; exact .of_eq rfl rfl
  · rw [heq]; exact .of_eq rfl rfl
  · rw [heq, writeFail_eq]
    split
    · exact .of_eq rfl rfl
    · exact cursorAdvances_raiseFatal _ s
  · rw [heq]; exact .of_eq rfl rfl

theorem cursorAdvances_moves {s t : State} (h : Moves s t) : CursorAdvances s t := by
  cases h with
  | contextA h =>
    have hvideo := contextA_videoFrame h
    unfold VideoFrame at hvideo
    rw [hvideo]
    exact .of_eq rfl rfl
  | build => rw [build_only]; exact .of_eq rfl rfl
  | rowRequest w => rw [rowWords_only]; exact .of_eq rfl rfl
  | rowOpen w => exact .of_eq rfl rfl
  | rowWord => rw [rowWord_only]; exact .of_eq rfl rfl
  | audioRequest n => exact (cursorAdvances_audioOpen n s).trans (cursorAdvances_audioFinish _)
  | audioOpen n => exact cursorAdvances_audioOpen n s
  | audioSample => exact cursorAdvances_audioSample s
  | hostRead off bytes => exact .of_eq rfl rfl
  | hostWrite off bytes v => exact cursorAdvances_hostWrite off bytes v s

/-! ### The halted block (60_exceptions.md R303) -/

/-- Nothing moves but `AUD_STEP`, the ports' records, what the host reads, the waiting events and the count of free values. -/
def HaltedFrame (s t : State) : Prop :=
  t = { s with
    events := t.events, audStep := t.audStep, rowReq := t.rowReq, rowReply := t.rowReply, free := t.free
    audReq := t.audReq, audReply := t.audReply, hostData := t.hostData }

/-- In a halted state of the invariant an audio request in service is silent. -/
theorem not_live_of_halted {s : State} (hI : Inv s) (hh : s.halted = true) {a : AudioService} (hr : s.audReq = some a) :
    a.live = false := by
  obtain ⟨-, -, hlive⟩ := hI.audio a hr
  by_contra hne
  have hboth : s.audEn = true ∧ s.halted = false := by simpa [audioLive] using hlive (by simpa using hne)
  simp [hh] at hboth

theorem haltedFrame_audioSample {s : State} (hI : Inv s) (hh : s.halted = true) : HaltedFrame s (audioSample s) := by
  cases hr : s.audReq with
  | none => rw [audioSample_of_idle hr]; rfl
  | some a =>
    rw [audioSample_of_service hr, not_live_of_halted hI hh hr]
    rfl

theorem haltedFrame_audioFinish {s : State} (hI : Inv s) (hh : s.halted = true) : HaltedFrame s (audioFinish s) := by
  cases hr : s.audReq with
  | none => rw [audioFinish_of_idle hr]; rfl
  | some a =>
    rw [audioFinish_of_service hr (hI.audio a hr).1 fun _ => cursorWithin_of_inv hI, not_live_of_halted hI hh hr]
    rfl

theorem HaltedFrame.trans {s t u : State} (h : HaltedFrame s t) (h' : HaltedFrame t u) : HaltedFrame s u := by
  unfold HaltedFrame at *
  rw [h', h]

theorem haltedFrame_audioOpen {s : State} (hI : Inv s) (hh : s.halted = true) (n : BitVec 16) :
    HaltedFrame s (audioOpen n s) :=
  (haltedFrame_audioFinish hI hh).trans rfl

theorem haltedFrame_hostWrite {s : State} (hh : s.halted = true) (off : BitVec 32) (bytes : Nat) (v : BitVec 32) :
    HaltedFrame s (hostWrite off bytes v s) := by
  obtain ⟨-, -, heq⟩ | ⟨-, -, heq⟩ | ⟨-, -, heq⟩ | heq := hostWrite_cases off bytes v s
  · rw [heq, writeCtrl_of_halted hh]; rfl
  · rw [heq]; rfl
  · rw [heq, writeFail_of_halted hh]; rfl
  · rw [heq]; rfl

theorem contextA_of_halted {s : State} (hh : s.halted = true) : contextA s = .next s :=
  contextA_of_not_live (by rw [videoLive, hh, Bool.not_true, Bool.and_false])

theorem build_of_halted {s : State} (hh : s.halted = true) : build s = s := by
  rw [build, buildDue, hh, Bool.not_true, Bool.and_false, if_neg Bool.false_ne_true]

theorem haltedFrame_moves {s t : State} (hI : Inv s) (hh : s.halted = true) (h : Moves s t) : HaltedFrame s t := by
  cases h with
  | contextA h =>
    rw [contextA_of_halted hh] at h
    cases h
    rfl
  | build => rw [build_of_halted hh]; rfl
  | rowRequest w =>
    unfold HaltedFrame
    rw [rowWords_only]
    rfl
  | rowOpen w => rfl
  | rowWord => unfold HaltedFrame; rw [rowWord_only]
  | audioRequest n =>
    have hopen := haltedFrame_audioOpen hI hh n
    have hhalted : (audioOpen n s).halted = true := by rw [audioOpen_only]; exact hh
    exact hopen.trans (haltedFrame_audioFinish (inv_audioOpen hI n) hhalted)
  | audioOpen n => exact haltedFrame_audioOpen hI hh n
  | audioSample => exact haltedFrame_audioSample hI hh
  | hostRead off bytes => rfl
  | hostWrite off bytes v => exact haltedFrame_hostWrite hh off bytes v

/-! ### Accesses that have no meaning (20_memory.md R72, R73) -/

theorem regRead_unmapped {off : BitVec 32} (h : 0x28 ≤ off.toNat) (s : State) : regRead s off = 0#32 := by
  unfold regRead
  split
  case h_11 => rfl
  all_goals omega

theorem hostRead_of_meaningless {off : BitVec 32} {bytes : Nat} (h : bytes ≠ 4 ∨ off.toNat % 4 ≠ 0 ∨ 0x28 ≤ off.toNat)
    (s : State) : hostRead off bytes s = { s with hostData := 0#32 } := by
  unfold hostRead
  split
  · next haligned =>
    obtain ⟨hbytes, hmult⟩ := of_decide_eq_true haligned
    rw [regRead_unmapped (by omega)]
  · rfl

theorem hostWrite_of_meaningless {off : BitVec 32} {bytes : Nat} (h : bytes ≠ 4 ∨ off.toNat % 4 ≠ 0 ∨ 0x28 ≤ off.toNat)
    (v : BitVec 32) (s : State) : hostWrite off bytes v s = s := by
  obtain ⟨rfl, rfl, -⟩ | ⟨rfl, rfl, -⟩ | ⟨rfl, rfl, -⟩ | heq := hostWrite_cases off bytes v s
  · simp at h
  · simp at h
  · simp at h
  · exact heq

/-! ### Row requests that name no row (45_compositor_handoff.md R242) -/

/-- One word read of a request that names no row. -/
theorem rowWord_of_not_named {s : State} {r : RowService} (hr : s.rowReq = some r) (hn : ¬ rowNamed s.cfg r.req = true) :
    rowWord s = { s with
      rowReply := s.rowReply ++ [colorOf s.cfg (Config.freeWord s.free)]
      rowReq := rowRest s.cfg r
      free := s.free + 1 } := by
  simp [rowWord, hr, hn]

/-- The record of a request that names no row after `n` word reads, each a free value. -/
def freeServed (req : BitVec 16) (n : Nat) (s : State) : State :=
  { s with
    rowReq := if n < s.cfg.W then some ⟨req, n⟩ else none
    rowReply := (List.range n).map fun x => colorOf s.cfg (Config.freeWord (s.free + x))
    free := s.free + n }

theorem rowWords_rowOpen_of_not_named {req : BitVec 16} {s : State} (hn : ¬ rowNamed s.cfg req = true) (hW : 0 < s.cfg.W) :
    ∀ {n : Nat}, n ≤ s.cfg.W → rowWords n (rowOpen req s) = freeServed req n s
  | 0, _ => by
    rw [freeServed, if_pos hW]
    rfl
  | n + 1, hle => by
    have hopen : (freeServed req n s).rowReq = some ⟨req, n⟩ := if_pos hle
    rw [rowWords_succ, rowWords_rowOpen_of_not_named hn hW (by omega), rowWord_of_not_named hopen hn]
    simp only [freeServed, List.range_succ, List.map_append, List.map_cons, List.map_nil, Nat.add_assoc]
    rfl

end Sys2Proof.Machine
end

section
/-! PROOF. The statements about who writes what: the ownership table, the halted block, the cursor, the ports and the host's
other accesses (60_exceptions.md, 46_audio.md, 45_compositor_handoff.md section 3, 20_memory.md section 5). -/

namespace Sys2Proof.Machine

/-- Settles O13: each agent's operation has its frame; the host's, register by register (`hostWrite_cases`). -/
theorem eachAgentWritesOnlyItsOwn : Obligations.EachAgentWritesOnlyItsOwn := by
  unfold Obligations.EachAgentWritesOnlyItsOwn
  intro s t h
  have ha := accepted_of_step h
  refine ⟨fun he hd => ?alone, fun he hd => ?video, fun rest he => ?contextA, fun rest he => ?build,
    fun rest w he => ?rowPort, fun rest w he => ?audioPort, fun rest off bytes he => ?hostRead,
    fun rest off bytes v he => ?hostWrite⟩
  case alone =>
    rw [step_nil ha he, runAlone, if_pos hd, build_of_due hd] at h
    cases h
    rfl
  case video =>
    rw [step_nil ha he, runAlone_of_built hd] at h
    exact contextA_videoFrame h
  case contextA =>
    rw [step_cons ha he] at h
    exact contextA_videoFrame (s := { s with events := rest }) h
  case build =>
    rw [step_cons ha he] at h
    cases h
    refine ⟨build_only { s with events := rest }, fun hrdy => ?_⟩
    have hnot : ¬ buildDue { s with events := rest } = true := by simp [buildDue, hrdy]
    exact if_neg hnot
  case rowPort =>
    obtain he | he | he := he
    · exact rowPortFrame_serve (w := w) (.inl rfl) ((step_cons ha he).symm.trans h)
    · exact rowPortFrame_serve (w := w) (.inr (.inl rfl)) ((step_cons ha he).symm.trans h)
    · exact rowPortFrame_serve (w := w) (.inr (.inr rfl)) ((step_cons ha he).symm.trans h)
  case audioPort =>
    obtain he | he | he := he
    · exact audioPortFrame_serve (n := w) (.inl rfl) ((step_cons ha he).symm.trans h)
    · exact audioPortFrame_serve (n := w) (.inr (.inl rfl)) ((step_cons ha he).symm.trans h)
    · exact audioPortFrame_serve (n := w) (.inr (.inr rfl)) ((step_cons ha he).symm.trans h)
  case hostRead =>
    rw [step_cons ha he] at h
    cases h
    rfl
  case hostWrite =>
    rw [step_hostWrite ha he] at h
    cases h
    refine ⟨hostWrite_only off bytes v { s with events := rest }, fun hne => enables_hostWrite hne v _,
      fun hne => audStep_hostWrite hne v _, fun hno => (fatalFields_hostWrite (s := { s with events := rest }) hno).1,
      fun hno => ?_⟩
    obtain hoff | hbytes | hcode | hhalted | hidle := hno
    · exact (fatalFields_hostWrite (s := { s with events := rest }) (.inl hoff)).2
    · exact (fatalFields_hostWrite (s := { s with events := rest }) (.inr (.inl hbytes))).2
    · exact (fatalFields_hostWrite (s := { s with events := rest }) (.inr (.inr (.inl hcode)))).2
    · exact (fatalFields_hostWrite (s := { s with events := rest }) (.inr (.inr (.inr hhalted)))).2
    · exact audioFields_hostWrite_of_idle (s := { s with events := rest }) hidle off bytes v

/-- Settles O51: no move lets the cursor fall or leave the payload (`cursorAdvances_moves`), so at the end it has nowhere to go. -/
theorem audioCursorNeverFallsBack : Obligations.AudioCursorNeverFallsBack := by
  unfold Obligations.AudioCursorNeverFallsBack
  intro s t hpos hend hr h
  obtain ⟨-, hmoves⟩ := cursorAdvances_moves (moves_of_step_of_not_reset hr h)
  obtain ⟨hup, hin⟩ := hmoves ⟨hpos, hend⟩
  exact ⟨hup, hin, fun hlast => BitVec.eq_of_toNat_eq (le_antisymm (hlast ▸ hin) hup)⟩

/-- Settles O56: no move of a halted block leaves the frame of `haltedFrame_moves`. -/
theorem haltedBlockIsFrozen : Obligations.HaltedBlockIsFrozen := by
  unfold Obligations.HaltedBlockIsFrozen
  intro s t hI hh hr h
  exact haltedFrame_moves (s := eventTaken s) (inv_eventTaken hI) hh (moves_of_step_of_not_reset hr h)

/-- Settles O47: the request names no row, and the `W` word reads after it, put together by `rowWords_rowOpen_of_not_named`,
close it. -/
theorem rowRequestOutsideGivesFreeWords : Obligations.RowRequestOutsideGivesFreeWords := by
  unfold Obligations.RowRequestOutsideGivesFreeWords
  intro zero idx s hout hW
  have hn : ¬ rowNamed s.cfg (encodeRow zero idx) = true := by
    rw [rowNamed_encodeRow]
    rintro ⟨hzero, hidx⟩
    exact hout.elim (absurd hzero) (fun hle => absurd hidx (not_lt.2 hle))
  rw [exec_rowrd, rowWords_rowOpen_of_not_named hn hW le_rfl, freeServed, if_neg (lt_irrefl _)]

/-- Settles O50: the state is the one after `audioFinish`, which leaves no request in service, so that completing again does
nothing. -/
theorem audioRequestIsServedToCompletion : Obligations.AudioRequestIsServedToCompletion := by
  unfold Obligations.AudioRequestIsServedToCompletion
  intro s a hr hleft hpos hend
  have hdone := audioFinish_of_service hr hleft fun _ => ⟨hpos, hend⟩
  have hidle : (audioFinish s).audReq = none := by rw [hdone]
  refine ⟨audioFinish s, hdone, fun n => ?_, fun code hlive => ?_⟩
  · have hopen : audioOpen n (audioFinish s) = audioOpen n s := by
      rw [audioOpen, audioFinish_of_idle hidle, audioOpen]
    show Host.Outcome.next (audioFinish (audioOpen n s)) = .next (audioFinish (audioOpen n (audioFinish s)))
    rw [hopen]
  · rw [raiseFatal, hlive, if_neg Bool.false_ne_true]

/-- Settles O48: the request names row `idx`, and a word read takes COMP's word of the next column as it is now. -/
theorem rowWordIsReadWhenTaken : Obligations.RowWordIsReadWhenTaken := by
  unfold Obligations.RowWordIsReadWhenTaken
  intro s idx x rest ha he hr hidx
  have hn : rowNamed s.cfg (encodeRow 0#3 idx) = true := (rowNamed_encodeRow s.cfg 0#3 idx).2 ⟨rfl, hidx⟩
  rw [step_cons ha he, serve, rowWord_of_named (s := { s with events := rest }) hr hn, encodeRow_idx]
  rfl

/-- Settles O53: a malformed or unmapped access reads 0 and writes nothing. -/
theorem otherHostAccessesDoNothing : Obligations.OtherHostAccessesDoNothing := by
  unfold Obligations.OtherHostAccessesDoNothing
  refine fun s off bytes rest ha hno => ⟨fun he => ?_, fun v he => ?_⟩
  · rw [step_cons ha he, serve, hostRead_of_meaningless hno]
  · rw [step_hostWrite ha he, hostWrite_of_meaningless hno]

end Sys2Proof.Machine
end

section
/-! SUPPORT. The automaton's balance (42_gen_automaton.md R154): the energy of a layer after one store and after a transfer, each
phase as stores and transfers; the cells of a still layer through the four phases; and the line of one point
(44_gen_wireframe_text.md R203). -/

namespace Sys2Proof.Machine

/-! ### The energy after one store and after a transfer (42_gen_automaton.md R147, R154) -/

theorem energy_eq_sum (c : Cfg) (m : Memory 8) : energy c m = ∑ a ∈ Finset.range (c.H * c.W), cell m a := rfl

/-- A store trades the cell's old value for the new one. -/
theorem energy_setCell {c : Cfg} (m : Memory 8) {a v : Nat} (ha : a < c.H * c.W) (hv : v ≤ 255) :
    energy c (setCell m a v) + cell m a = energy c m + v := by
  have hmem : a ∈ Finset.range (c.H * c.W) := Finset.mem_range.2 ha
  have hrest : ∑ b ∈ (Finset.range (c.H * c.W)).erase a, cell (setCell m a v) b =
      ∑ b ∈ (Finset.range (c.H * c.W)).erase a, cell m b :=
    Finset.sum_congr rfl fun b hb => cell_setCell_other m (Finset.ne_of_mem_erase hb) v
  rw [energy_eq_sum, energy_eq_sum, ← Finset.add_sum_erase _ _ hmem, ← Finset.add_sum_erase _ (cell m) hmem, hrest,
    cell_setCell_same m a hv]
  omega

/-- A transfer's two stores balance, also where both cells are one. -/
theorem energy_xfer {c : Cfg} (m : Memory 8) {src dst : Nat} (hs : src < c.H * c.W) (hd : dst < c.H * c.W) (req : Nat) :
    energy c (xfer m src dst req) = energy c m := by
  have hsrc := cell_le m src
  have hdst := cell_le m dst
  simp only [xfer]
  generalize ht : min req (min (cell m src) (255 - cell m dst)) = t
  have hout := energy_setCell m hs (show cell m src - t ≤ 255 by omega)
  have hbound : cell (setCell m src (cell m src - t)) dst + t ≤ 255 := by
    rw [cell_setCell m src dst _ (by omega)]
    split <;> omega
  have hin := energy_setCell (setCell m src (cell m src - t)) hd hbound
  omega

/-! ### The phases (42_gen_automaton.md R148 to R151) -/

/-- The search answers the value it began with, or a cell of the list. -/
theorem firstMin_cases (m : Memory 8) : ∀ (l : List Nat) (best : Nat × Option Nat),
    firstMin m best l = best ∨ ∃ b ∈ l, firstMin m best l = (cell m b, some b)
  | [], _ => .inl rfl
  | a :: t, best => by
    rw [firstMin]
    obtain hkept | ⟨b, hb, hfound⟩ := firstMin_cases m t (if cell m a < best.1 then (cell m a, some a) else best)
    · rw [hkept]
      split
      · exact .inr ⟨a, List.mem_cons_self, rfl⟩
      · exact .inl rfl
    · exact .inr ⟨b, List.mem_cons_of_mem a hb, hfound⟩

/-- Diffusion does nothing or transfers half of the cell to a neighbour. -/
theorem diffuse_cases (c : Cfg) (y x : Nat) (m : Memory 8) :
    diffuse c y x m = m ∨
    ∃ b ∈ nbrAddrs c y x, diffuse c y x m = xfer m (cellAddr c y x) b (cell m (cellAddr c y x) / 2) := by
  unfold diffuse
  obtain hnone | ⟨b, hb, hfound⟩ := firstMin_cases m (nbrAddrs c y x) (256, none)
  · rw [hnone]
    exact .inl rfl
  · rw [hfound]
    dsimp only
    split
    · next hless =>
      have hne : b ≠ cellAddr c y x := fun h => absurd hless (by rw [h]; exact lt_irrefl _)
      have hhalf : min (cell m (cellAddr c y x) / 2) (255 - cell m b) =
          min (cell m (cellAddr c y x) / 2) (min (cell m (cellAddr c y x)) (255 - cell m b)) := by omega
      refine .inr ⟨b, hb, ?_⟩
      simp only [xfer, hhalf, cell_setCell_other m hne]
    · exact .inl rfl

section Grid

variable {c : Cfg} {y x : Nat} (hy : y < c.H) (hx : x < c.W)

include hy hx

theorem energy_diffuse (m : Memory 8) : energy c (diffuse c y x m) = energy c m := by
  obtain hsame | ⟨b, hb, hxfer⟩ := diffuse_cases c y x m
  · rw [hsame]
  · rw [hxfer, energy_xfer m (cellAddr_lt hy hx) (nbrAddrs_lt (Nat.zero_lt_of_lt hy) (Nat.zero_lt_of_lt hx) hb)]

theorem energy_convect (e : Effect) (m : Memory 8) : energy c (convect c e y x m) = energy c m := by
  have hp := cellAddr_lt hy hx
  exact convect_keeps (P := fun m' => energy c m' = energy c m) e c y x
    (fun m' a b q ha hb hm' => by
      have hclamp (y' x' : Int) := clampAddr_lt (Nat.zero_lt_of_lt hy) (Nat.zero_lt_of_lt hx) (c := c) y' x'
      obtain ⟨yb, xb, rfl⟩ := hb
      obtain rfl | ⟨ya, xa, rfl⟩ := ha
      · exact (energy_xfer m' hp (hclamp yb xb) q).trans hm'
      · exact (energy_xfer m' (hclamp ya xa) (hclamp yb xb) q).trans hm')
    rfl

theorem energy_le_forcing (e : Effect) (f : Nat) (m : Memory 8) : energy c m ≤ energy c (forcing c e f y x m) := by
  have hp := cellAddr_lt hy hx
  have hle := cell_le m (cellAddr c y x)
  have hraise {v : Nat} (hv : v ≤ 255) (hup : cell m (cellAddr c y x) ≤ v) :
      energy c m ≤ energy c (setCell m (cellAddr c y x) v) := by
    have hstore := energy_setCell m hp hv
    omega
  cases hclass : forcingClass e with
  | ambient =>
    rw [forcing_of_ambient c hclass]
    split
    · exact hraise (by omega) (by omega)
    · exact le_rfl
  | seed =>
    rw [forcing_of_seed c hclass]
    split
    · exact hraise le_rfl hle
    · exact le_rfl
  | noforce => rw [forcing_of_noforce c hclass]

theorem energy_cool (m : Memory 8) :
    energy c (cool c y x m) ≤ energy c m ∧ energy c m ≤ energy c (cool c y x m) + 1 := by
  have hle := cell_le m (cellAddr c y x)
  have hstore := energy_setCell m (cellAddr_lt hy hx) (show cell m (cellAddr c y x) - 1 ≤ 255 by omega)
  simp only [cool]
  split <;> omega

end Grid

/-! ### A still layer (42_gen_automaton.md R154) -/

/-- A memory in canonical form that reads 0 everywhere lists nothing. -/
theorem Memory.eq_nil_of_read {w : Nat} {m : Memory w} (hm : Memory.wf m = true) (h : ∀ a, Memory.read m a = 0#w) :
    m = [] := by
  cases m with
  | nil => rfl
  | cons p t =>
    obtain ⟨k, v⟩ := p
    have hread := h k
    simp only [Memory.wf, Memory.wfFrom, Bool.and_eq_true, decide_eq_true_eq] at hm
    rw [Memory.read_cons, if_pos rfl] at hread
    exact absurd hread hm.1.2

theorem cell_setCell_self (m : Memory 8) (a b : Nat) : cell (setCell m a (cell m a)) b = cell m b := by
  by_cases h : b = a
  · rw [h, cell_setCell_same m a (cell_le m a)]
  · rw [cell_setCell_other m h]

theorem cell_xfer_zero (m : Memory 8) (src dst b : Nat) : cell (xfer m src dst 0) b = cell m b := by
  simp only [xfer, Nat.zero_min, Nat.sub_zero, Nat.add_zero]
  exact (cell_setCell_self _ dst b).trans (cell_setCell_self m src b)

/-- Only the cell itself may hold energy, and at most one unit. -/
def Drop (p : Nat) (m : Memory 8) : Prop := cell m p ≤ 1 ∧ ∀ b, b ≠ p → cell m b = 0

/-- A cell of one unit has no half to give. -/
theorem drop_diffuse {c : Cfg} {y x : Nat} {m : Memory 8} (h : Drop (cellAddr c y x) m) :
    Drop (cellAddr c y x) (diffuse c y x m) := by
  obtain hsame | ⟨b, -, hxfer⟩ := diffuse_cases c y x m
  · rwa [hsame]
  · have hhalf : cell m (cellAddr c y x) / 2 = 0 := by
      have hle := h.1
      omega
    rw [hxfer, hhalf]
    simpa only [Drop, cell_xfer_zero] using h

/-- On a grid of two rows some neighbour is another cell: the one below, or above in the last row. -/
theorem exists_nbr_ne {c : Cfg} {y x : Nat} (hH : 2 ≤ c.H) (hy : y < c.H) (hx : x < c.W) :
    ∃ b ∈ nbrAddrs c y x, b ≠ cellAddr c y x := by
  have hcol : clampTo c.W ((x : Int) + 0) = x := by unfold clampTo; omega
  have hvert {d : Int} {y' : Nat} (hrow : clampTo c.H (y + d) = y') (hne : y' ≠ y) :
      clampAddr c (y + d) (x + 0) ≠ cellAddr c y x := by
    rw [clampAddr, hrow, hcol, Ne, cellAddr_inj hx hx]
    exact fun h => hne h.1
  by_cases hlast : y + 1 < c.H
  · exact ⟨_, List.mem_map_of_mem (by decide : ((1 : Int), (0 : Int)) ∈ nbr),
      hvert (y' := y + 1) (by unfold clampTo; omega) (by omega)⟩
  · exact ⟨_, List.mem_map_of_mem (by decide : ((-1 : Int), (0 : Int)) ∈ nbr),
      hvert (y' := y - 1) (by unfold clampTo; omega) (by omega)⟩

/-- The neighbours of a single unit average 0, so cooling takes it. -/
theorem cell_cool_of_drop {c : Cfg} {y x : Nat} (hH : 2 ≤ c.H) (hy : y < c.H) (hx : x < c.W) {m : Memory 8}
    (h : Drop (cellAddr c y x) m) (b : Nat) : cell (cool c y x m) b = 0 := by
  obtain ⟨hself, hrest⟩ := h
  by_cases hb : b = cellAddr c y x
  · obtain ⟨n, hn, hne⟩ := exists_nbr_ne hH hy hx
    have hone : ∀ a ∈ nbrAddrs c y x, cell m a ≤ 1 := fun a _ => by
      by_cases ha : a = cellAddr c y x
      · rw [ha]; exact hself
      · rw [hrest a ha]; exact Nat.zero_le 1
    have hsum : ((nbrAddrs c y x).map (cell m)).sum < ((nbrAddrs c y x).map fun _ => 1).sum :=
      List.sum_lt_sum _ _ hone ⟨n, hn, by rw [hrest n hne]; exact Nat.one_pos⟩
    have height : ((nbrAddrs c y x).map fun _ => 1).sum = 8 := rfl
    rw [hb, cell_cool_same]
    split <;> omega
  · rw [cell, read_cool_other c m hb]
    exact hrest b hb

theorem drop_forcing_nil {c : Cfg} {e : Effect} (he : forcingClass e = .ambient) (hamt : c.ambientAmt = 1) (f y x : Nat) :
    Drop (cellAddr c y x) (forcing c e f y x []) := by
  have hnil (b : Nat) : cell [] b = 0 := rfl
  rw [forcing_of_ambient c he, hamt, hnil]
  split
  · refine ⟨(cell_setCell_same [] _ (by decide)).trans_le (by decide), fun b hb => ?_⟩
    rw [cell_setCell_other [] hb, hnil]
  · exact ⟨Nat.zero_le 1, fun b _ => hnil b⟩

theorem automaton_nil {c : Cfg} {e : Effect} (he : forcingClass e = .ambient) (hamt : c.ambientAmt = 1) {f y x : Nat}
    (hH : 2 ≤ c.H) (hy : y < c.H) (hx : x < c.W) : automaton e f c y x [] = [] := by
  have hcooled := cell_cool_of_drop hH hy hx (drop_diffuse (drop_forcing_nil he hamt f y x))
  refine Memory.eq_nil_of_read (wf_automaton e f c y x rfl) fun a => BitVec.eq_of_toNat_eq ?_
  rw [automaton, convect_of_low ((hcooled _).trans_le (Nat.zero_le _))]
  exact hcooled a

/-! ### A line of one point (44_gen_wireframe_text.md R203) -/

theorem linePoints_self (p : Int × Int) : linePoints p p = [p] := by
  simp [linePoints, lineWalk]

theorem drawLine_self (c : Cfg) (v : Byte) (p : Int × Int) (m : Memory 8) :
    drawLine c v p p m = clipWrite c m p.2 p.1 v := by
  rw [drawLine, linePoints_self]
  rfl

/-- A clipped write made again changes nothing that is read. -/
theorem read_clipWrite_twice (c : Cfg) (m : Memory 8) (y x : Int) (v : Byte) (b : Nat) :
    Memory.read (clipWrite c (clipWrite c m y x v) y x v) b = Memory.read (clipWrite c m y x v) b := by
  unfold clipWrite
  split
  · rw [Memory.read_write, Memory.read_write]
    split <;> rfl
  · rfl

end Sys2Proof.Machine
end

section
/-! PROOF. The statements about the automaton's balance (42_gen_automaton.md section 3) and the degenerate triangle
(44_gen_wireframe_text.md, Rasterisation). -/

namespace Sys2Proof.Machine

/-- Settles O32: diffusion and convection are transfers, which balance; forcing raises one cell and cooling lowers one by 1. -/
theorem automatonConservesEnergy : Obligations.AutomatonConservesEnergy := by
  unfold Obligations.AutomatonConservesEnergy
  exact fun c e f y x m hy hx =>
    ⟨energy_diffuse hy hx m, energy_convect hy hx e m, energy_le_forcing hy hx e f m, energy_cool hy hx m⟩

/-- Settles O34: the unit of forcing stays where it is until cooling takes it (`automaton_nil`). -/
theorem stillWaterStaysStill : Obligations.StillWaterStaysStill := by
  unfold Obligations.StillWaterStaysStill
  intro a s he hamt hW hH hbg hok
  have hclass : forcingClass a.op = .ambient := by
    obtain he | he := he
    · rw [he]; rfl
    · rw [he]; rfl
  obtain ⟨hscan, hcol⟩ := (positionOk_iff s).1 hok
  have hrow : genRow s < s.cfg.H := Nat.mod_lt _ (by omega)
  rw [exec_bgAutomaton a hok, onBackground_eq_self]
  rw [hbg]
  exact automaton_nil hclass hamt (by omega) hrow hcol

/-- Settles O41: each edge is the one point, and writing it again changes nothing. -/
theorem degenerateTriangleIsAPoint : Obligations.DegenerateTriangleIsAPoint := by
  unfold Obligations.DegenerateTriangleIsAPoint
  intro c geo gem f tri m h1 h2 b
  simp only [drawTriangle, h1, h2, drawLine_self]
  rw [read_clipWrite_twice, read_clipWrite_twice]

end Sys2Proof.Machine
end

section
/-! SUPPORT. The words of the host registers, bit by bit (10_state.md section 5), and what a host access is as a step. -/

namespace Sys2Proof.Machine

/-! ### `STATUS_R` (10_state.md R39) -/

theorem getLsbD_statusWord (s : State) (i : Nat) (hi : i < 32) :
    (statusWord s).getLsbD i =
      ((s.tblRdy && decide (i = 0)) || (s.prologueDone && decide (i = 1)) || (atEnd s && decide (i = 2)) ||
        (s.halted && decide (i = 3)) || (decide (4 ≤ i) && s.diag.getLsbD (i - 4))) := by
  simp only [statusWord, BitVec.getLsbD_or, getLsbD_bitAt, BitVec.getLsbD_shiftLeft, BitVec.getLsbD_setWidth, hi, true_and,
    decide_true, Bool.true_and, show i - 4 < 32 by omega]
  rw [← decide_not]
  simp only [not_lt]

/-- A word made of a low field and a field above it, as a number. -/
theorem toNat_setWidth_or_shiftLeft {m n k : Nat} (x : BitVec m) (y : BitVec n) (hmk : m ≤ k) (hfit : k + n ≤ 32) :
    (x.setWidth 32 ||| (y.setWidth 32 <<< k)).toNat = y.toNat * 2 ^ k + x.toNat := by
  have hx : x.toNat < 2 ^ k := x.isLt.trans_le (Nat.pow_le_pow_right (by decide) hmk)
  have hy : y.toNat * 2 ^ k < 2 ^ 32 := calc
    y.toNat * 2 ^ k < 2 ^ n * 2 ^ k := (Nat.mul_lt_mul_right (Nat.two_pow_pos k)).2 y.isLt
    _ = 2 ^ (n + k) := (Nat.pow_add 2 n k).symm
    _ ≤ 2 ^ 32 := Nat.pow_le_pow_right (by decide) (by omega)
  have hx32 : x.toNat < 2 ^ 32 := hx.trans_le (Nat.pow_le_pow_right (by decide) (by omega))
  have hy32 : y.toNat < 2 ^ 32 := (Nat.le_mul_of_pos_right _ (Nat.two_pow_pos k)).trans_lt hy
  rw [BitVec.toNat_or, BitVec.toNat_shiftLeft, BitVec.toNat_setWidth, BitVec.toNat_setWidth, Nat.mod_eq_of_lt hx32,
    Nat.mod_eq_of_lt hy32, Nat.shiftLeft_eq, Nat.mod_eq_of_lt hy, Nat.or_comm, Nat.mul_comm,
    ← Nat.two_pow_add_eq_or_of_lt hx]

/-- The field at a place of a word, as a number. -/
theorem extractLsb'_eq_iff {n : Nat} (w : BitVec 32) (k : Nat) (f : BitVec n) :
    w.extractLsb' k n = f ↔ w.toNat / 2 ^ k % 2 ^ n = f.toNat := by
  rw [← BitVec.toNat_inj, BitVec.extractLsb'_toNat, Nat.shiftRight_eq_div_pow]

theorem statusWord_fields (s : State) :
    (statusWord s).extractLsb' 4 4 = s.diag ∧ (statusWord s).extractLsb' 8 24 = 0#24 := by
  constructor
  · apply BitVec.eq_of_getLsbD_eq
    intro i hi
    rw [BitVec.getLsbD_extractLsb', getLsbD_statusWord s _ (by omega)]
    simp [hi, show ¬ 4 + i = 1 by omega, show ¬ 4 + i = 2 by omega, show ¬ 4 + i = 3 by omega,
      -BitVec.getLsbD_eq_getElem]
  · apply BitVec.eq_of_getLsbD_eq
    intro i hi
    have hdiag : s.diag.getLsbD (8 + i - 4) = false := BitVec.getLsbD_of_ge _ _ (by omega)
    rw [BitVec.getLsbD_extractLsb', getLsbD_statusWord s _ (by omega), hdiag]
    simp [show ¬ 8 + i = 1 by omega, show ¬ 8 + i = 2 by omega, show ¬ 8 + i = 3 by omega]

/-! ### `EFFECT_R` and `SCAN_R` (10_state.md R41, R43) -/

theorem toNat_regRead_effect (s : State) : (regRead s 0x0C#32).toNat = s.palact.toNat * 2 ^ 4 + s.effect.toNat :=
  toNat_setWidth_or_shiftLeft s.effect s.palact le_rfl (by decide)

theorem effectWord_fields (s : State) :
    (regRead s 0x0C#32).extractLsb' 0 4 = s.effect ∧ (regRead s 0x0C#32).extractLsb' 4 3 = s.palact ∧
    (regRead s 0x0C#32).extractLsb' 7 25 = 0#25 := by
  have he := s.effect.isLt
  have hp := s.palact.isLt
  simp only [extractLsb'_eq_iff, toNat_regRead_effect, BitVec.toNat_ofNat]
  omega

/-- Bits 28:16 of `SCAN_R`: the generated row, 0 where the scan position has wrapped. -/
def scanRow (s : State) : BitVec 13 := if s.scan.toNat < s.cfg.H then BitVec.ofNat 13 (genRow s) else 0#13

theorem toNat_scanWord (s : State) : (scanWord s).toNat = (scanRow s).toNat * 2 ^ 16 + s.scan.toNat := by
  rw [← toNat_setWidth_or_shiftLeft s.scan (scanRow s) (by decide : 13 ≤ 16) (by decide), scanWord, scanRow]
  split <;> rfl

theorem scanWord_fields (s : State) :
    (scanWord s).extractLsb' 0 13 = s.scan ∧ (scanWord s).extractLsb' 13 3 = 0#3 ∧ (scanWord s).extractLsb' 29 3 = 0#3 ∧
    (scanWord s).extractLsb' 16 13 = scanRow s := by
  have hscan := s.scan.isLt
  have hrow := (scanRow s).isLt
  simp only [extractLsb'_eq_iff, toNat_scanWord, BitVec.toNat_ofNat]
  omega

/-- A row number fits the field's 13 bits. -/
theorem toNat_scanRow {s : State} (hH : s.cfg.H ≤ 2 ^ 13) (h : s.scan.toNat < s.cfg.H) :
    (scanRow s).toNat = (s.scan.toNat + s.cfg.LEAD) % s.cfg.H := by
  have hlt : genRow s < s.cfg.H := Nat.mod_lt _ (by omega)
  rw [scanRow, if_pos h, BitVec.toNat_ofNat, Nat.mod_eq_of_lt (hlt.trans_le hH), genRow]

theorem scanRow_of_wrapped {s : State} (h : s.scan.toNat = s.cfg.H) : scanRow s = 0#13 := if_neg (by omega)

/-! ### `GEOM_R` (10_state.md R47) -/

theorem geomWord_fields (s : State) :
    (regRead s 0x24#32).extractLsb' 0 16 = BitVec.ofNat 16 s.cfg.W ∧
    (regRead s 0x24#32).extractLsb' 16 16 = BitVec.ofNat 16 s.cfg.H := by
  have hword : (regRead s 0x24#32).toNat = s.cfg.W % 2 ^ 16 + (s.cfg.H % 2 ^ 16) * 2 ^ 16 := by
    refine (BitVec.toNat_ofNat _ _).trans (Nat.mod_eq_of_lt ?_)
    omega
  simp only [extractLsb'_eq_iff, hword, BitVec.toNat_ofNat]
  omega

/-! ### The registers after reset (10_state.md R37, R54) -/

theorem toNat_scanWord_resetWith {c : Cfg} (hlead : c.LEAD < c.H) (hH : c.H ≤ 2 ^ 13) :
    (scanWord (State.resetWith c)).toNat = c.LEAD * 2 ^ 16 := by
  have hscan : (State.resetWith c).scan.toNat = 0 := rfl
  have hrow := toNat_scanRow (s := State.resetWith c) hH (hscan.trans_lt (Nat.zero_lt_of_lt hlead))
  rw [hscan, Nat.zero_add] at hrow
  rw [toNat_scanWord, hrow, hscan, Nat.add_zero]
  exact congrArg (· * 2 ^ 16) (Nat.mod_eq_of_lt hlead)

theorem ctrlWord_resetWith (c : Cfg) : ctrlWord (State.resetWith c) = 0#32 := by
  show bitAt 0 false ||| bitAt 1 false = 0#32
  decide

theorem statusWord_resetWith (c : Cfg) : statusWord (State.resetWith c) = 0#32 := by
  show bitAt 0 false ||| bitAt 1 false ||| bitAt 2 (decide (0#4 = 8#4)) ||| bitAt 3 false ||| ((0#4).setWidth 32 <<< 4) = 0#32
  decide

theorem toNat_regRead_countdown (s : State) : (regRead s 0x10#32).toNat = s.countdown.toNat := by
  have hlt := s.countdown.isLt
  refine (BitVec.toNat_setWidth _ _).trans (Nat.mod_eq_of_lt ?_)
  omega

/-! ### Writes (10_state.md R45; 20_memory.md R73) -/

theorem hostWrite_audStep (v : BitVec 32) (s : State) : hostWrite 0x1C#32 4 v s = { s with audStep := v } := rfl

/-- The offsets of the registers that ignore a write. -/
theorem hostWrite_readOnly {off : BitVec 32}
    (h : off ∈ [0x04#32, 0x08#32, 0x0C#32, 0x10#32, 0x14#32, 0x18#32, 0x24#32]) (v : BitVec 32) (s : State) :
    hostWrite off 4 v s = s := by
  obtain ⟨-, rfl, -⟩ | ⟨-, rfl, -⟩ | ⟨-, rfl, -⟩ | heq := hostWrite_cases off 4 v s
  · exact absurd h (by decide)
  · exact absurd h (by decide)
  · exact absurd h (by decide)
  · exact heq

end Sys2Proof.Machine
end

section
/-! PROOF. The statement about the host's registers (10_state.md section 5). -/

namespace Sys2Proof.Machine

/-- Settles O52: each register's word is read field by field; of the writes, `hostWrite_cases` knows one to `AUD_STEP` and none to
a read-only register. -/
theorem hostRegistersShowTheState : Obligations.HostRegistersShowTheState := by
  unfold Obligations.HostRegistersShowTheState
  refine ⟨fun s off rest ha he hoff => ?read, fun s => ?fields, fun c hlead hH => ?reset, fun s v rest ha he => ?audStep,
    fun s v a hr hlive => ?sample, fun s off v rest ha he hoff => ?readOnly⟩
  case read =>
    have haligned : regAligned off 4 = true := decide_eq_true ⟨rfl, hoff⟩
    rw [step_cons ha he, serve, hostRead, if_pos haligned]
    rfl
  case fields =>
    obtain ⟨hscan, hzero, htop, hrow⟩ := scanWord_fields s
    have hstatus (i : Nat) (hi : i < 32) : (regRead s 0x04#32).getLsbD i = _ := getLsbD_statusWord s i hi
    refine ⟨⟨?_, ?_, extractLsb'_ctrlWord_reserved s⟩, ⟨?_, ?_, ?_, ?_, statusWord_fields s⟩, rfl, effectWord_fields s, rfl,
      ⟨hscan, hzero, htop, fun hH hlt => ?_, fun hwrapped => ?_⟩, rfl, rfl, geomWord_fields s⟩
    · simp [getLsbD_ctrlWord, -BitVec.getLsbD_eq_getElem]
    · simp [getLsbD_ctrlWord, -BitVec.getLsbD_eq_getElem]
    · simp [hstatus, -BitVec.getLsbD_eq_getElem]
    · simp [hstatus, -BitVec.getLsbD_eq_getElem]
    · simp [hstatus, atEnd, -BitVec.getLsbD_eq_getElem]
    · simp [hstatus, -BitVec.getLsbD_eq_getElem]
    · exact (congrArg BitVec.toNat hrow).trans (toNat_scanRow hH hlt)
    · exact hrow.trans (scanRow_of_wrapped hwrapped)
  case reset =>
    refine ⟨ctrlWord_resetWith c, statusWord_resetWith c, rfl, (toNat_regRead_effect _).trans (Nat.add_zero _), ?_,
      toNat_scanWord_resetWith hlead hH, rfl, rfl, rfl⟩
    rw [toNat_regRead_countdown, resetWith_countdown]
  case audStep => rw [step_hostWrite ha he, hostWrite_audStep]
  case sample =>
    rw [audioSample_of_service (s := { s with audStep := v }) hr, hlive, if_pos rfl]
    rfl
  case readOnly => rw [step_hostWrite ha he, hostWrite_readOnly hoff]

end Sys2Proof.Machine
end

section
/-! SUPPORT. Rounding (00_scope.md section 5, R13): the magnitudes as a rising sequence without an end, in which the model's rounding,
before it is cut at infinity, answers the nearest one. -/

namespace Sys2Proof.Machine

/-! ### The magnitudes in order -/

/-- The value of a magnitude encoding in units of 2^-149, with no largest exponent. -/
def magUnits (m : Nat) : Nat := if m / 2 ^ 23 = 0 then m % 2 ^ 23 else (2 ^ 23 + m % 2 ^ 23) * 2 ^ (m / 2 ^ 23 - 1)

theorem f32Units_eq_magUnits (x : F32) : f32Units x = magUnits (f32Mag x) := rfl

theorem f32Mag_of_positive {m : Nat} (h : m < infMag) : f32Mag (f32Of false m) = m := by
  unfold infMag at h
  simp only [f32Mag, f32Of, Bool.false_eq_true, if_false, Nat.add_zero, BitVec.toNat_ofNat]
  omega

theorem f32Units_of_positive {m : Nat} (h : m < infMag) : f32Units (f32Of false m) = magUnits m := by
  rw [f32Units_eq_magUnits, f32Mag_of_positive h]

/-- A significand shifted `k` places: below 24 bits unshifted, else of 24 bits, or the carry out of them. -/
theorem magUnits_encode {k q : Nat} (hq : q ≤ 2 ^ 24) (h : k = 0 ∨ 2 ^ 23 ≤ q) : magUnits (k * 2 ^ 23 + q) = q * 2 ^ k := by
  unfold magUnits
  obtain hsub | hnormal | hcarry : q < 2 ^ 23 ∨ (2 ^ 23 ≤ q ∧ q < 2 ^ 24) ∨ q = 2 ^ 24 := by omega
  · obtain rfl : k = 0 := by omega
    rw [if_pos (by omega)]
    omega
  · have he : (k * 2 ^ 23 + q) / 2 ^ 23 = k + 1 := by omega
    have hm : 2 ^ 23 + (k * 2 ^ 23 + q) % 2 ^ 23 = q := by omega
    rw [he, hm, if_neg (Nat.succ_ne_zero k), Nat.add_sub_cancel]
  · have he : (k * 2 ^ 23 + q) / 2 ^ 23 = k + 2 := by omega
    have hm : 2 ^ 23 + (k * 2 ^ 23 + q) % 2 ^ 23 = 2 ^ 23 := by omega
    rw [he, hm, if_neg (Nat.succ_ne_zero _), hcarry, show k + 2 - 1 = 1 + k by omega, Nat.pow_add]
    ring

/-- A larger encoding is a larger magnitude. -/
theorem magUnits_strictMono : StrictMono magUnits := by
  refine strictMono_nat_of_lt_succ fun m => ?_
  obtain ⟨k, q, hq, hk, rfl⟩ : ∃ k q, q < 2 ^ 24 ∧ (k = 0 ∨ 2 ^ 23 ≤ q) ∧ m = k * 2 ^ 23 + q :=
    ⟨m / 2 ^ 23 - 1, m - (m / 2 ^ 23 - 1) * 2 ^ 23, by omega, by omega, by omega⟩
  rw [magUnits_encode hq.le hk, Nat.add_assoc, magUnits_encode hq (hk.imp_right Nat.le_succ_of_le)]
  exact (Nat.mul_lt_mul_right (Nat.two_pow_pos k)).2 q.lt_succ_self

/-! ### The nearest magnitude -/

/-- No magnitude is nearer to `n / d` than `m`, and where another is as near `m` is even. -/
def Nearest (n d m : Nat) : Prop :=
  ∀ y, |(n : Int) - d * magUnits m| ≤ |(n : Int) - d * magUnits y| ∧
    (|(n : Int) - d * magUnits m| = |(n : Int) - d * magUnits y| → y ≠ m → m % 2 = 0)

/-- The choice between two neighbours that enclose the fraction: the lower below the middle, the upper above it, the even one at
it. -/
theorem nearest_of_between {n d lo : Nat} (hd : 0 < d) (hlo : d * magUnits lo ≤ n) (hhi : n < d * magUnits (lo + 1))
    {up : Bool} (hup : up = true ↔ d * magUnits lo + d * magUnits (lo + 1) < 2 * n ∨
      (d * magUnits lo + d * magUnits (lo + 1) = 2 * n ∧ lo % 2 = 1)) :
    Nearest n d (lo + if up then 1 else 0) := by
  have hmono {a b : Nat} (h : a < b) : d * magUnits a < d * magUnits b :=
    (Nat.mul_lt_mul_left hd).2 (magUnits_strictMono h)
  have hlow {m : Nat} (hm : m ≤ lo) : |(n : Int) - d * magUnits m| = n - d * magUnits m ∧
      d * magUnits m ≤ d * magUnits lo ∧ (d * magUnits m = d * magUnits lo → m = lo) := by
    obtain rfl | hlt := hm.eq_or_lt
    · exact ⟨abs_of_nonneg (by omega), le_rfl, fun _ => rfl⟩
    · have hless := hmono hlt
      exact ⟨abs_of_nonneg (by omega), by omega, by omega⟩
  have hhigh {m : Nat} (hm : lo + 1 ≤ m) : |(n : Int) - d * magUnits m| = d * magUnits m - n ∧
      d * magUnits (lo + 1) ≤ d * magUnits m ∧ (d * magUnits m = d * magUnits (lo + 1) → m = lo + 1) := by
    obtain rfl | hlt := hm.eq_or_lt
    · exact ⟨(abs_of_nonpos (by omega)).trans (by omega), le_rfl, fun _ => rfl⟩
    · have hless := hmono hlt
      exact ⟨(abs_of_nonpos (by omega)).trans (by omega), by omega, by omega⟩
  intro y
  cases up with
  | false =>
    have hmiddle := mt hup.2 Bool.false_ne_true
    rw [if_neg Bool.false_ne_true, Nat.add_zero, (hlow le_rfl).1]
    obtain hy | hy := Nat.lt_or_ge lo y
    · obtain ⟨hdist, hle, heq⟩ := hhigh hy
      rw [hdist]
      omega
    · obtain ⟨hdist, hle, heq⟩ := hlow hy
      rw [hdist]
      omega
  | true =>
    have hmiddle := hup.1 rfl
    rw [if_pos rfl, (hhigh le_rfl).1]
    obtain hy | hy := Nat.lt_or_ge lo y
    · obtain ⟨hdist, hle, heq⟩ := hhigh hy
      rw [hdist]
      omega
    · obtain ⟨hdist, hle, heq⟩ := hlow hy
      rw [hdist]
      omega

/-- A magnitude is nearest to itself alone. -/
theorem eq_of_nearest_self {m r : Nat} (h : Nearest (magUnits m) 1 r) : r = m := by
  obtain ⟨hle, -⟩ := h m
  simp only [Nat.cast_one, one_mul, sub_self, abs_zero, abs_nonpos_iff, sub_eq_zero, Nat.cast_inj] at hle
  exact (magUnits_strictMono.injective hle).symm

/-! ### The model's rounding -/

/-- The places the significand is shifted, the quotient that is left of it, and what the division leaves. -/
def roundShift (n d : Nat) : Nat := Nat.log2 (n / d) - 23
def roundQuot (n d : Nat) : Nat := n / (d * 2 ^ roundShift n d)
def roundRest (n d : Nat) : Nat := n % (d * 2 ^ roundShift n d)

/-- The remainder is over the middle, or at it with an odd quotient. -/
def roundUp (n d : Nat) : Bool :=
  d * 2 ^ roundShift n d < 2 * roundRest n d ||
    (2 * roundRest n d == d * 2 ^ roundShift n d && roundQuot n d % 2 == 1)

/-- The rounding before it is cut at infinity. -/
def roundFree (n d : Nat) : Nat := roundShift n d * 2 ^ 23 + roundQuot n d + if roundUp n d then 1 else 0

theorem roundMag_eq (n d : Nat) : roundMag n d = min (roundFree n d) infMag := rfl

/-- The quotient has at most 24 bits, and exactly 24 where it is shifted. -/
theorem roundQuot_bounds (n d : Nat) : roundQuot n d < 2 ^ 24 ∧ (roundShift n d = 0 ∨ 2 ^ 23 ≤ roundQuot n d) := by
  have hquot : roundQuot n d = n / d / 2 ^ roundShift n d := (Nat.div_div_eq_div_mul n d _).symm
  rw [hquot]
  by_cases hv : n / d = 0
  · rw [hv, Nat.zero_div]
    exact ⟨Nat.two_pow_pos 24, .inl (by rw [roundShift, hv]; rfl)⟩
  · constructor
    · rw [Nat.div_lt_iff_lt_mul (Nat.two_pow_pos _), ← Nat.pow_add]
      exact (Nat.log2_lt hv).1 (by unfold roundShift; omega)
    · by_cases hshift : roundShift n d = 0
      · exact .inl hshift
      · refine .inr ((Nat.le_div_iff_mul_le (Nat.two_pow_pos _)).2 ?_)
        rw [← Nat.pow_add, show 23 + roundShift n d = Nat.log2 (n / d) by unfold roundShift at *; omega]
        exact Nat.log2_self_le hv

theorem roundUp_iff (n d : Nat) : roundUp n d = true ↔ d * 2 ^ roundShift n d < 2 * roundRest n d ∨
    (2 * roundRest n d = d * 2 ^ roundShift n d ∧ roundQuot n d % 2 = 1) := by
  simp only [roundUp, Bool.or_eq_true, Bool.and_eq_true, decide_eq_true_eq, beq_iff_eq]

/-- The quotient and its successor enclose the fraction, and the remainder tells the nearer one. -/
theorem nearest_roundFree {n d : Nat} (hd : 0 < d) : Nearest n d (roundFree n d) := by
  obtain ⟨hq, hk⟩ := roundQuot_bounds n d
  have hlow := magUnits_encode hq.le hk
  have hhigh := magUnits_encode hq (hk.imp_right Nat.le_succ_of_le)
  have hstep : 0 < d * 2 ^ roundShift n d := Nat.mul_pos hd (Nat.two_pow_pos _)
  have hrest : roundRest n d < d * 2 ^ roundShift n d := Nat.mod_lt n hstep
  have hdiv : roundQuot n d * (d * 2 ^ roundShift n d) + roundRest n d = n := Nat.div_add_mod' n _
  have hA : d * magUnits (roundShift n d * 2 ^ 23 + roundQuot n d) = roundQuot n d * (d * 2 ^ roundShift n d) := by
    rw [hlow]
    ring
  have hB : d * magUnits (roundShift n d * 2 ^ 23 + roundQuot n d + 1) =
      roundQuot n d * (d * 2 ^ roundShift n d) + d * 2 ^ roundShift n d := by
    rw [Nat.add_assoc, hhigh, Nat.succ_eq_add_one]
    ring
  have hparity : (roundShift n d * 2 ^ 23 + roundQuot n d) % 2 = roundQuot n d % 2 := by omega
  refine nearest_of_between hd (by omega) (by omega) ?_
  rw [roundUp_iff, hparity, hA, hB]
  omega

/-! ### The overflow threshold -/

theorem magUnits_infMag : magUnits infMag = 2 ^ 24 * 2 ^ 253 :=
  magUnits_encode (k := 253) (q := 2 ^ 24) le_rfl (.inr (by decide))

theorem magUnits_maxFinite : magUnits (infMag - 1) = (2 ^ 24 - 1) * 2 ^ 253 :=
  magUnits_encode (k := 253) (q := 2 ^ 24 - 1) (by decide) (.inr (by decide))

/-- The greatest finite magnitude is odd, so the middle between it and the first infinite one rounds to infinity. -/
theorem infMag_le_iff {n d m : Nat} (hd : 0 < d) (h : Nearest n d m) :
    infMag ≤ m ↔ (2 ^ 25 - 1) * 2 ^ 252 * d ≤ n := by
  have hmono {a b : Nat} (hab : a ≤ b) : d * magUnits a ≤ d * magUnits b :=
    Nat.mul_le_mul_left d (magUnits_strictMono.monotone hab)
  have hhalf : 0 < 2 ^ 252 * d := Nat.mul_pos (Nat.two_pow_pos 252) hd
  have hinf : d * magUnits infMag = 2 ^ 25 * (2 ^ 252 * d) := by
    rw [magUnits_infMag]
    ring
  have hmax : d * magUnits (infMag - 1) = (2 ^ 25 - 2) * (2 ^ 252 * d) := by
    rw [magUnits_maxFinite]
    ring
  rw [Nat.mul_assoc]
  generalize 2 ^ 252 * d = half at *
  constructor
  · intro hm
    obtain ⟨hle, -⟩ := h (infMag - 1)
    have hbig := hmono hm
    by_contra hn
    have hdist : |(n : Int) - d * magUnits m| = d * magUnits m - n := (abs_of_nonpos (by omega)).trans (by omega)
    obtain ⟨habs, -⟩ | ⟨habs, -⟩ := abs_cases ((n : Int) - d * magUnits (infMag - 1))
    · omega
    · omega
  · intro hn
    by_contra hm
    obtain ⟨hle, htie⟩ := h infMag
    have hsmall : d * magUnits m ≤ d * magUnits (infMag - 1) := hmono (by omega)
    have hdist : |(n : Int) - d * magUnits m| = n - d * magUnits m := abs_of_nonneg (by omega)
    have hdist' : |(n : Int) - d * magUnits infMag| = d * magUnits infMag - n := by
      obtain ⟨habs, -⟩ | ⟨habs, -⟩ := abs_cases ((n : Int) - d * magUnits infMag)
      · omega
      · omega
    have hlast : m = infMag - 1 := magUnits_strictMono.injective (Nat.eq_of_mul_eq_mul_left hd (by omega))
    have heven := htie (by omega) (by omega)
    rw [hlast] at heven
    exact absurd heven (by decide)

end Sys2Proof.Machine
end

section
/-! PROOF. The statement about rounding (00_scope.md section 5). -/

namespace Sys2Proof.Machine

/-- Settles O60: the uncut rounding is the nearest magnitude (`nearest_roundFree`); cut at infinity it is infinite exactly from the
threshold on, and a finite magnitude is nearest to itself. -/
theorem roundingIsToNearestEven : Obligations.RoundingIsToNearestEven := by
  unfold Obligations.RoundingIsToNearestEven
  refine ⟨fun n d hd => ⟨?_, fun hfinite y hy => ?_⟩, fun x hx => ?_⟩
  · rw [← infMag_le_iff hd (nearest_roundFree hd), roundMag_eq]
    exact min_eq_right_iff
  · have huncut : roundMag n d = roundFree n d := by
      rw [roundMag_eq] at hfinite ⊢
      omega
    rw [huncut] at hfinite ⊢
    rw [f32Units_of_positive hfinite, f32Units_of_positive hy]
    exact nearest_roundFree hd y
  · have hfinite : f32Mag x < infMag := of_decide_eq_true hx
    rw [f32Units_eq_magUnits, roundMag_eq, eq_of_nearest_self (nearest_roundFree Nat.one_pos)]
    exact Nat.min_eq_left hfinite.le

end Sys2Proof.Machine
end
